-- ==== Sys2Proof/Word.lean ====
section
/-! DEFINITION. The words of the block: the widths spec/00_scope.md R9 and R10 fix, and nothing else. -/

namespace Sys2Proof

/-- A symbol or a side-file character, one byte (R9 ALPHABET, R13 ByteSymbol). -/
abbrev Byte := BitVec 8

/-- A command word, 16 bits (R9 CMD_W, R66). -/
abbrev CmdWord := BitVec 16

/-- A count: CNT_W = 32 bits, unsigned (R9, R21). -/
abbrev Count := BitVec 32

/-- A node index: NODE_IDX_W = 9 bits (R9, R26). -/
abbrev NodeIdx := BitVec 9

/-- An address of the register space: 16 bits, one per 32-bit word (R33, R51). -/
abbrev RegAddr := BitVec 16

/-- A word of the register space: 32 bits (R33, R51). -/
abbrev RegWord := BitVec 32

/-- A bit-string, bit 0 first (R11). `false` is the bit 0 and `true` the bit 1. -/
abbrev BitString := List Bool

end Sys2Proof
end

