-- ==== Sys2Proof/Config.lean ====
section
/-! DEFINITION. The parameters spec/00_scope.md R9 fixes, and the one free value of the spec (R48). -/

namespace Sys2Proof.Config

/-- CNT_MAX = 2^32 - 1, the largest legal count and TOTAL (R9). -/
def cntMax : Nat := 2 ^ 32 - 1

/-- PAD_MAX = 7, the trailing bits accepted after the last symbol (R9, R104). -/
def padMax : Nat := 7

/-- MAX_NODES = 511, the nodes of the arena (R9, R26). -/
def maxNodes : Nat := 511

/-- The constant the ID register reads (R34). -/
def idValue : RegWord := 0x48554646

/-- FREE VALUE (R48, log entry 6): what the `n`-th register read that meets `idle = 0` returns.
R48 calls it "a draw: any 32-bit value, under no law", so this constant has no body and no
statement can learn a value of it. -/
opaque busyRead : Nat → RegWord

end Sys2Proof.Config
end

