-- ==== Sys2Proof/Syntax.lean ====
section
/-! DEFINITION. The ten commands of spec/30_encoding.md R68, their operand forms (R67) and the two
fields of a command word (R66). -/

namespace Sys2Proof

/-- The commands, one constructor per row of the opcode map (R68). An operand has exactly the values
its form allows (R67): form N has none, form B is a byte, form V is a bit (`false` = 0, `true` = 1). -/
inductive Instr where
  /-- NOP (R116). -/
  | nop
  /-- CLEAR (R117). -/
  | clear
  /-- COUNT b (R76). -/
  | count (b : Byte)
  /-- BUILD (R81). -/
  | build
  /-- ENCODE b (R95). -/
  | encodeByte (b : Byte)
  /-- ENC_END (R97). -/
  | encEnd
  /-- DEC_BIT v (R101). -/
  | decBit (v : Bool)
  /-- DEC_END (R105). -/
  | decEnd
  /-- SERIALIZE (R110). -/
  | serialize
  /-- DESER_CHAR c (R112). -/
  | deserChar (c : Byte)
deriving DecidableEq, Repr

/-- The operand forms (R67). -/
inductive Form where
  /-- No operand: ARG is 0x00. -/
  | N
  /-- A byte, all of ARG. -/
  | B
  /-- A bit, ARG[0], with ARG[7:1] = 0. -/
  | V
deriving DecidableEq, Repr

/-- The form of each command (R68, column "form"). -/
def Instr.form : Instr → Form
  | .nop => .N
  | .clear => .N
  | .count _ => .B
  | .build => .N
  | .encodeByte _ => .B
  | .encEnd => .N
  | .decBit _ => .V
  | .decEnd => .N
  | .serialize => .N
  | .deserChar _ => .B

/-- The two fields of a command word: OPC is bits [15:8] and ARG bits [7:0] (R66). -/
structure CmdFields where
  opc : Byte
  arg : Byte
deriving DecidableEq, Repr

/-- A command word split into its fields (R66). -/
def CmdFields.ofWord (w : CmdWord) : CmdFields :=
  { opc := w.extractLsb' 8 8, arg := w.extractLsb' 0 8 }

end Sys2Proof
end

