-- ==== Sys2Proof/WellFormed.lean ====
section
/-! DEFINITION. Which pairs of fields are a command (spec/30_encoding.md R67, R70). Every term of
`Instr` is well formed by its type (an operand has only the values of its form), so the checks are on
the raw fields: a defined OPC, a zero ARG in form N, and zero bits ARG[7:1] in form V. -/

namespace Sys2Proof

/-- The form the opcode map gives an OPC value, if it defines one (R68). -/
def formOfOpc (opc : Byte) : Option Form :=
  if opc ∈ [0x00, 0x01, 0x20, 0x31, 0x41, 0x50] then some .N
  else if opc ∈ [0x10, 0x30, 0x51] then some .B
  else if opc = 0x40 then some .V
  else none

/-- The constraint a form puts on ARG (R67). -/
def Form.argOk : Form → Byte → Bool
  | .N, arg => arg == 0
  | .B, _ => true
  | .V, arg => arg.extractLsb' 1 7 == 0

/-- The fields are those of one of the ten commands (R70: exactly the other words are illegal). -/
def CmdFields.wellFormed (f : CmdFields) : Bool :=
  match formOfOpc f.opc with
  | none => false
  | some form => form.argOk f.arg

end Sys2Proof
end

