-- ==== Sys2Proof/Decode.lean ====
section
/-! DEFINITION. `Decode(w)` of spec/30_encoding.md R69, total on every word and rejecting by name, and
after it the encoder written from the same opcode map (R68). -/

namespace Sys2Proof

/-- Why a word is ILLEGAL (R70): each is E_ILLEGAL when the word is executed (R118). -/
inductive IllegalReason where
  /-- OPC is not one of the ten of R68. -/
  | undefinedOpcode
  /-- A reserved ARG bit is not zero: ARG in form N, or ARG[7:1] in form V (R67). -/
  | reservedArg
deriving DecidableEq, Repr

/-- OPC, bits [15:8] (R66). -/
def opcOf (w : CmdWord) : Byte := w.extractLsb' 8 8

/-- ARG, bits [7:0] (R66). -/
def argOf (w : CmdWord) : Byte := w.extractLsb' 0 8

/-- Form N: ARG must be 0x00 (R67, R69). -/
def decodeFormN (i : Instr) (arg : Byte) : Except IllegalReason Instr :=
  if arg = 0 then .ok i else .error .reservedArg

/-- Form B: ARG is the operand as it stands (R67, R69). -/
def decodeFormB (mk : Byte → Instr) (arg : Byte) : Except IllegalReason Instr := .ok (mk arg)

/-- Form V: ARG[0] is the operand, and ARG[7:1] must be 0 (R67, R69). -/
def decodeFormV (mk : Bool → Instr) (arg : Byte) : Except IllegalReason Instr :=
  if arg.extractLsb' 1 7 = 0 then .ok (mk (arg.getLsbD 0)) else .error .reservedArg

/-- `Decode(w)` (R69). -/
def decode (w : CmdWord) : Except IllegalReason Instr :=
  if opcOf w = 0x00 then decodeFormN .nop (argOf w)
  else if opcOf w = 0x01 then decodeFormN .clear (argOf w)
  else if opcOf w = 0x10 then decodeFormB .count (argOf w)
  else if opcOf w = 0x20 then decodeFormN .build (argOf w)
  else if opcOf w = 0x30 then decodeFormB .encodeByte (argOf w)
  else if opcOf w = 0x31 then decodeFormN .encEnd (argOf w)
  else if opcOf w = 0x40 then decodeFormV .decBit (argOf w)
  else if opcOf w = 0x41 then decodeFormN .decEnd (argOf w)
  else if opcOf w = 0x50 then decodeFormN .serialize (argOf w)
  else if opcOf w = 0x51 then decodeFormB .deserChar (argOf w)
  else .error .undefinedOpcode

/-- The OPC of each command (R68). -/
def opcodeOf : Instr → Byte
  | .nop => 0x00
  | .clear => 0x01
  | .count _ => 0x10
  | .build => 0x20
  | .encodeByte _ => 0x30
  | .encEnd => 0x31
  | .decBit _ => 0x40
  | .decEnd => 0x41
  | .serialize => 0x50
  | .deserChar _ => 0x51

/-- The ARG of each command (R67, R68). -/
def argumentOf : Instr → Byte
  | .nop => 0x00
  | .clear => 0x00
  | .count b => b
  | .build => 0x00
  | .encodeByte b => b
  | .encEnd => 0x00
  | .decBit v => (BitVec.ofBool v).setWidth 8
  | .decEnd => 0x00
  | .serialize => 0x00
  | .deserChar c => c

/-- The word of a command: `{OPC, ARG}` (R66, R68). -/
def encode (i : Instr) : CmdWord := opcodeOf i ++ argumentOf i

/-- The 16-bit command word whose low `nbits` bits are those of `w`, the bits above them zero. -/
def tableWord (nbits w : Nat) : CmdWord := BitVec.ofNat 16 (w % 2 ^ nbits)

/-- What the decoder reads from the bits of an opcode-table row. A command is always one 16-bit
word (R66), transferred whole on the command port (R59), so no byte order arises. -/
def decodeTableWord (nbits w : Nat) : Option Instr := (decode (tableWord nbits w)).toOption

end Sys2Proof
end

