-- ==== Sys2Proof/Machine/State.lean ====
section
/-! DEFINITION. The state of the block as plain data (spec/10_state.md), its reset value (R42), and
the reasons a step can stop. -/

namespace Sys2Proof.Machine

/-- PHASE (R17). The values 5 and 6 are never held, so they have no name (log entry 9). -/
inductive Phase where
  | collect
  | ready
  | encoding
  | decoding
  | done
  | error
deriving DecidableEq, Repr

/-- SRC (R18). The value 3 is never held (log entry 9). -/
inductive Src where
  | empty
  | scan
  | text
deriving DecidableEq, Repr

/-- ERRCODE: the codes of R118, `none` being 0x00. The codes 0x0C to 0xFF are never raised (log
entry 9). -/
inductive ErrCode where
  | none
  | illegal
  | sequence
  | countOverflow
  | malformed
  | duplicate
  | noCode
  | encOverrun
  | encUnderrun
  | badCode
  | truncated
  | trailing
deriving DecidableEq, Repr

/-- PSTATE: the place within a side-file record (R25). The values 11 to 15 are never held (log
entry 9). -/
inductive ParsePos where
  /-- PSTATE 0 to 7: the next character is binary digit `k` of the symbol, digit 0 the most significant. -/
  | symDigit (k : Fin 8)
  /-- PSTATE 8: the next character is `:`. -/
  | colon
  /-- PSTATE 9: the next character is the first decimal digit of the count. -/
  | firstDigit
  /-- PSTATE 10: the next character is another decimal digit, or the record-ending space. -/
  | moreDigits
deriving DecidableEq, Repr

/-- One node of the arena (R26). -/
structure Node where
  valid : Bool
  leaf : Bool
  sym : Byte
  freq : Count
  left : NodeIdx
  right : NodeIdx
deriving DecidableEq, Repr

/-- A node's reset value: every field 0 (R42). -/
def Node.zero : Node :=
  { valid := false, leaf := false, sym := 0, freq := 0, left := 0, right := 0 }

/-- A table with one entry per symbol (R21, R28). -/
abbrev SymTable (α : Type) := Vector α 256

/-- The architectural state of the block: exactly the fields of R14. There is no
memory, general register or program counter (R15, R16, R51; log entry 14). -/
structure Block where
  /-- PHASE (R17). -/
  phase : Phase
  /-- SRC (R18). -/
  src : Src
  /-- BUILT (R19). -/
  built : Bool
  /-- ERRCODE (R20). -/
  errCode : ErrCode
  /-- ERRPHASE (R20). -/
  errPhase : Phase
  /-- ERRCMD (R20). -/
  errCmd : CmdWord
  /-- CNT (R21). -/
  cnt : SymTable Count
  /-- ORDER (R22). -/
  order : Vector Byte 256
  /-- NSYM (R22). -/
  nsym : BitVec 9
  /-- TOTAL (R23). -/
  total : Count
  /-- PSTATE (R25). -/
  pstate : ParsePos
  /-- PSYM (R25). -/
  psym : Byte
  /-- PCNT (R25). -/
  pcnt : Count
  /-- NODE (R26). -/
  node : Vector Node 511
  /-- NNODES (R26). -/
  nnodes : BitVec 9
  /-- ROOT (R26). -/
  root : NodeIdx
  /-- LEN (R28). -/
  len : SymTable (BitVec 8)
  /-- CODE (R28): bit `j` of the vector is bit `j` of the code. -/
  code : SymTable (BitVec 255)
  /-- ENCCNT (R30). -/
  encCnt : Count
  /-- BITCNT (R30). -/
  bitCnt : BitVec 64
  /-- CUR (R31). -/
  cur : NodeIdx
  /-- DEPTH (R31). -/
  depth : BitVec 8
  /-- DECCNT (R31). -/
  decCnt : Count
  /-- PADCNT (R31). -/
  padCnt : BitVec 4
deriving DecidableEq, Repr

/-- Every field at its reset value (R42). -/
def Block.reset : Block :=
  { phase := .collect, src := .empty, built := false
    errCode := .none, errPhase := .collect, errCmd := 0
    cnt := Vector.replicate 256 0, order := Vector.replicate 256 0, nsym := 0, total := 0
    pstate := .symDigit 0, psym := 0, pcnt := 0
    node := Vector.replicate 511 Node.zero, nnodes := 0, root := 0
    len := Vector.replicate 256 0, code := Vector.replicate 256 0
    encCnt := 0, bitCnt := 0
    cur := 0, depth := 0, decCnt := 0, padCnt := 0 }

/-- The three output streams (R43). -/
inductive Stream where
  | bitOut
  | symOut
  | txtOut
deriving DecidableEq, Repr

/-- One value a command appends to a stream: `Emit(P, v)` (R12, R43). -/
inductive Output where
  | bit (v : Bool)
  | sym (b : Byte)
  | txt (b : Byte)
deriving DecidableEq, Repr

/-- What the host does at the ports, one transfer or pin change each (R44, R134; log entries 1, 2). -/
inductive HostMove where
  /-- Present a command word, cmd_valid = 1, and keep it there until it transfers (R45). -/
  | command (w : CmdWord)
  /-- Have ready = 1 on one stream port at one clock edge (R45). -/
  | take (p : Stream)
  /-- Drive reg_addr and read reg_rdata (R48). -/
  | readReg (a : RegAddr)
  /-- A clock edge with rst_n = 0 (R136). -/
  | resetLow
  /-- rst_n = 1 again (R136). -/
  | resetHigh
deriving DecidableEq, Repr

/-- How long each stream's history was when the current job began (R13 job, R135; log entry 8). -/
structure JobMark where
  bits : Nat
  syms : Nat
  txts : Nat
deriving DecidableEq, Repr

/-- The machine: the block's fields (R14), its ports (R44), the histories of its streams (R43), and
what the host has still to do. -/
structure State extends Block where
  /-- rst_n is 0 (R136). -/
  inReset : Bool
  /-- Values the last command emitted that have not transferred yet, oldest first (R46, R47). The
  first of them is the one on its stream's data pins. -/
  offered : List Output
  /-- BIT_OUT, every bit transferred so far (R43). -/
  bitOut : BitString
  /-- SYM_OUT, every byte transferred so far (R43). -/
  symOut : List Byte
  /-- TXT_OUT, every character transferred so far (R43). -/
  txtOut : List Byte
  /-- MODEL'S OWN (log entry 8): where the current job's output begins. -/
  jobMark : JobMark
  /-- MODEL'S OWN (log entry 7): the register reads the host has made, with what reg_rdata was. -/
  reads : List (RegAddr × RegWord)
  /-- MODEL'S OWN (log entry 6): how many free values reads have drawn. -/
  draws : Nat
  /-- MODEL'S OWN (log entry 2): what the host does next, the first move first. -/
  host : List HostMove
deriving DecidableEq, Repr

/-- The machine right after hardware reset (R42, R136): the block at its reset values, nothing on the
streams, and no host move listed, since what the host will do is not the machine's (log entries 3, 10). -/
def State.reset : State :=
  { toBlock := Block.reset
    inReset := false, offered := [], bitOut := [], symOut := [], txtOut := []
    jobMark := { bits := 0, syms := 0, txts := 0 }
    reads := [], draws := 0, host := [] }

/-- Nothing stops the block with a fault: `Step` is total (R7), every error is the error entry of
R119, which is a next state, and a register access can be neither misaligned nor unmapped (R41, R58).
So there is no constructor (log entry 12). -/
inductive Fault where
deriving DecidableEq, Repr

/-- Why a step has no meaning. Raised by no arm of `exec` as it stands. -/
inductive Refusal where
  /-- Raised by an arm of `exec` whose instruction has no meaning yet. Safe: the run stops. -/
  | notModelled (mnemonic : String)
deriving DecidableEq, Repr

/-- What one step answers. -/
abbrev StepOutcome := Host.Outcome State Fault Refusal

end Sys2Proof.Machine
end

