-- ==== Sys2Proof/Machine/Ops.lean ====
section
/-! DEFINITION. The operations every command shares: reads and writes of the tables, the legality
table (spec/30_encoding.md R71), the error entry (spec/60_exceptions.md R119) and the way out of it
(R117, R122), and the frame of a command (R12, R72). -/

namespace Sys2Proof.Machine

/-! ## Tables -/

/-- The entry of symbol `b`. -/
def SymTable.read {α : Type} (t : SymTable α) (b : Byte) : α := t[b.toNat]

/-- The table with the entry of symbol `b` replaced. -/
def SymTable.write {α : Type} (t : SymTable α) (b : Byte) (x : α) : SymTable α := t.set b.toNat x

/-- ORDER[i] (R22). No entry 256 or above exists: such a read gives 0 (log entry 11). -/
def Block.orderAt (b : Block) (i : Nat) : Byte := b.order[i]?.getD 0

/-- NODE[i] (R26). No node 511 exists: such a read gives a node of zeros (R38, R39, log entry 11). -/
def Block.nodeAt (b : Block) (i : Nat) : Node := b.node[i]?.getD Node.zero

/-- The table with its first entries replaced by `xs`, those past the end of `xs` unchanged and those
of `xs` past the end of the table dropped (log entry 11). -/
def overlay {α : Type} {n : Nat} (t : Vector α n) (xs : List α) : Vector α n :=
  Vector.ofFn fun i : Fin n => xs[i.val]?.getD t[i]

/-- The frequency-table entries in insertion order: (ORDER[i], CNT[ORDER[i]]) for i < NSYM (R13
"frequency table", R22). -/
def Block.entries (b : Block) : List (Byte × Count) :=
  (List.range b.nsym.toNat).map fun i => (b.orderAt i, b.cnt.read (b.orderAt i))

/-- Append a symbol to the insertion order: ORDER[NSYM] <- v; NSYM <- NSYM + 1 (R76, R113). -/
def Block.appendOrder (b : Block) (v : Byte) : Block :=
  { b with order := b.order.setIfInBounds b.nsym.toNat v, nsym := b.nsym + 1 }

/-! ## Streams -/

/-- The stream a value goes to (R43). -/
def Output.stream : Output → Stream
  | .bit _ => .bitOut
  | .sym _ => .symOut
  | .txt _ => .txtOut

/-- The bits among some emitted values, in `Emit` order. -/
def bitsOf (out : List Output) : BitString :=
  out.filterMap fun o => match o with | .bit v => some v | .sym _ => none | .txt _ => none

/-- The symbols among some emitted values, in `Emit` order. -/
def symsOf (out : List Output) : List Byte :=
  out.filterMap fun o => match o with | .bit _ => none | .sym b => some b | .txt _ => none

/-- The side-file characters among some emitted values, in `Emit` order. -/
def txtsOf (out : List Output) : List Byte :=
  out.filterMap fun o => match o with | .bit _ => none | .sym _ => none | .txt b => some b

/-- Every bit emitted on BIT_OUT so far, transferred or still offered (R43, R47). -/
def State.emittedBits (s : State) : BitString := s.bitOut ++ bitsOf s.offered

/-- Every byte emitted on SYM_OUT so far, transferred or still offered (R43, R47). -/
def State.emittedSyms (s : State) : List Byte := s.symOut ++ symsOf s.offered

/-- Every character emitted on TXT_OUT so far, transferred or still offered (R43, R47). -/
def State.emittedTxts (s : State) : List Byte := s.txtOut ++ txtsOf s.offered

/-- The mark at which a job that begins now begins (R13 job, R135). -/
def State.markNow (s : State) : JobMark :=
  { bits := s.emittedBits.length, syms := s.emittedSyms.length, txts := s.emittedTxts.length }

/-- One value transfers from its port to the stream's history (R45, R47). -/
def State.transfer (s : State) (o : Output) (rest : List Output) : State :=
  match o with
  | .bit v => { s with bitOut := s.bitOut ++ [v], offered := rest }
  | .sym b => { s with symOut := s.symOut ++ [b], offered := rest }
  | .txt b => { s with txtOut := s.txtOut ++ [b], offered := rest }

/-- Every offered value transfers: the command ends (R46). -/
def State.drained (s : State) : State :=
  { s with bitOut := s.emittedBits, symOut := s.emittedSyms, txtOut := s.emittedTxts, offered := [] }

/-! ## Legality -/

/-- `Legal(op, PHASE, SRC)` (R71). In PHASE = ERROR no command is asked: see `commandRule`. -/
def legal (i : Instr) (phase : Phase) (src : Src) : Bool :=
  match i with
  | .nop => true
  | .clear => true
  | .count _ => phase == .collect && src != .text
  | .deserChar _ => phase == .collect && src != .scan
  | .build => phase == .collect
  | .encodeByte _ => phase == .ready || phase == .encoding
  | .encEnd => phase == .ready || phase == .encoding
  | .decBit _ => phase == .ready || phase == .decoding
  | .decEnd => phase == .ready || phase == .decoding
  | .serialize => phase != .error

/-! ## Error entry and exit -/

/-- The error entry, taking the exception: ERRCODE, ERRPHASE and ERRCMD are recorded, PHASE becomes
ERROR, and nothing else changes (R119). -/
def State.errorEntry (s : State) (code : ErrCode) (w : CmdWord) : State :=
  { s with errCode := code, errPhase := s.phase, errCmd := w, phase := .error }

/-- `Clear()`: every field of the block takes its reset value and a new job begins; what was
transferred stays transferred (R42, R43, R117). It is the one return from ERROR (R122). -/
def State.clear (s : State) : State :=
  { s with toBlock := Block.reset, jobMark := s.markNow }

/-! ## The frame of a command -/

/-- What a command's own rule gives: the error of its first failing check, or the block after its
writes together with the values it emits, in `Emit` order (R12). -/
abbrev RuleResult := Except ErrCode (Block × List Output)

/-- A command that completes: its writes take effect together (R12) and its outputs are offered in
`Emit` order (R47; log entry 5). -/
def State.complete (s : State) (b : Block) (out : List Output) : State :=
  { s with toBlock := b, offered := s.offered ++ out }

/-- `Execute` of a command other than CLEAR (R72): discarded in ERROR (R121), E_SEQUENCE where it is
not legal, else its own rule. An error undoes every write of the rule and emits nothing, because the
rule's block and outputs are used only where it succeeds (R119, R120). -/
def commandRule (i : Instr) (s : State) (rule : Block → RuleResult) : StepOutcome :=
  if s.phase = .error then .next s
  else if legal i s.phase s.src = false then .next (s.errorEntry .sequence (encode i))
  else
    match rule s.toBlock with
    | .error code => .next (s.errorEntry code (encode i))
    | .ok (b, out) => .next (s.complete b out)

/-- `Execute` of a word that `Decode` finds ILLEGAL (R72): discarded in ERROR (R121), else
E_ILLEGAL (R70, R118; log entry 17). -/
def illegalWord (w : CmdWord) (s : State) : StepOutcome :=
  if s.phase = .error then .next s else .next (s.errorEntry .illegal w)

end Sys2Proof.Machine
end

