-- ==== Sys2Proof/Machine/Operands.lean ====
section
/-! DEFINITION. What the commands compute from their operands: the side-file characters of
spec/44_serializer.md R109, their digits, and the bit-strings of spec/00_scope.md R11. A form B
operand is used as it stands and a form V operand is one bit (R67), so neither needs an evaluation. -/

namespace Sys2Proof.Machine

/-! ## Characters (R109) -/

/-- The character `:` (R109). -/
def charColon : Byte := 0x3A

/-- The character ` ` (R109). -/
def charSpace : Byte := 0x20

/-- The character of a digit: 0x30 + d (R109, R110). -/
def digitChar (d : Nat) : Byte := BitVec.ofNat 8 (0x30 + d)

/-- `c = 0x30 or c = 0x31` (R112). -/
def isBinaryDigit (c : Byte) : Bool := c == 0x30 || c == 0x31

/-- `0x30 <= c <= 0x39` (R112). -/
def isDecimalDigit (c : Byte) : Bool := 0x30 ≤ c.toNat && c.toNat ≤ 0x39

/-- `c - 0x30`, the value of a digit character (R112). -/
def digitValue (c : Byte) : Nat := c.toNat - 0x30

/-- `({PSYM, (c - 0x30)[0]})[7:0]`: shift left by one and insert the digit's bit (R112). -/
def shiftInDigit (psym c : Byte) : Byte :=
  (psym ++ (c - 0x30).extractLsb' 0 1 : BitVec 9).extractLsb' 0 8

/-- The symbol's eight binary digits, most significant first (R53, R110). -/
def symbolText (v : Byte) : List Byte :=
  [7, 6, 5, 4, 3, 2, 1, 0].map fun j => digitChar (v.getLsbD j).toNat

/-- The decimal digits of `c`, most significant first, at most `fuel` of them. -/
def decimalDigits : Nat → Nat → List Nat
  | 0, _ => []
  | fuel + 1, c => if c < 10 then [c] else decimalDigits fuel (c / 10) ++ [c % 10]

/-- `Decimal(c)` (R111): ten digits are enough for every 32-bit count. -/
def decimal (c : Count) : List Nat := decimalDigits 10 c.toNat

/-- The decimal text of a count, most significant digit first (R54, R110). -/
def countText (c : Count) : List Byte := (decimal c).map digitChar

/-- One side-file record (R108, R110). -/
def recordText (e : Byte × Count) : List Byte :=
  symbolText e.1 ++ [charColon] ++ countText e.2 ++ [charSpace]

/-- The side-file text of a list of entries: their records in order (R108). -/
def sideFile (entries : List (Byte × Count)) : List Byte := entries.flatMap recordText

/-! ## Bit-strings (R11) -/

/-- The 255-bit CODE vector of a bit-string: bit `j` is bit `j` of the string, the rest 0 (R28). -/
def codeBits : BitString → BitVec 255
  | [] => 0
  | v :: rest => (codeBits rest <<< 1) ||| (BitVec.ofBool v).setWidth 255

/-- The bit-string LEN and CODE hold: bits 0 to LEN - 1 of CODE, in order (R28, R95). -/
def codeString (len : BitVec 8) (code : BitVec 255) : BitString :=
  (List.range len.toNat).map code.getLsbD

/-- The code of a symbol (R13 "code", R28). -/
def Block.codeOf (b : Block) (v : Byte) : BitString := codeString (b.len.read v) (b.code.read v)

end Sys2Proof.Machine
end

