-- ==== Sys2Proof/Machine/Flags.lean ====
section
/-! DEFINITION. The status conditions of spec/10_state.md R32 and the output pins of
spec/20_memory.md R44 to R49. The block has no arithmetic flags and no condition codes (R32), and no
command writes any of these beyond its own rule. -/

namespace Sys2Proof.Machine

/-- The `idle` pin: no command is in progress, so every output has transferred; 0 while rst_n = 0
(R46, R49). -/
def State.idle (s : State) : Bool := !s.inReset && s.offered.isEmpty

/-- The `cmd_ready` pin: raised when idle (R46, R136; log entry 4). -/
def State.cmdReady (s : State) : Bool := s.idle

/-- The `err` pin: PHASE = ERROR; 0 while rst_n = 0 (R44, R49, R136). -/
def State.err (s : State) : Bool := !s.inReset && s.phase == .error

/-- The value on the stream ports: one is offered at a time, in `Emit` order (R47), and none while
rst_n = 0 (R136). -/
def State.offeredValue (s : State) : Option Output := if s.inReset then none else s.offered.head?

/-- The `bit_valid`, `sym_valid` and `txt_valid` pins (R44, R136). -/
def State.valid (s : State) (p : Stream) : Bool := s.offeredValue.map Output.stream == some p

/-- The status condition "decode complete": DECCNT = TOTAL (R32). -/
def Block.decodeComplete (b : Block) : Bool := b.decCnt == b.total

/-- The status condition "encode complete": ENCCNT = TOTAL (R32). -/
def Block.encodeComplete (b : Block) : Bool := b.encCnt == b.total

end Sys2Proof.Machine
end

