-- ==== Sys2Proof/Machine/Registers.lean ====
section
/-! DEFINITION. The register read space of spec/10_state.md R33 to R41 and spec/20_memory.md R51,
R52: `RegRead(a)`, total on all 65536 addresses, and what reg_rdata gives (R48). Each register is
written as its fields, the most significant first, so that every reserved bit is a literal 0. -/

namespace Sys2Proof.Machine

/-- The 3-bit value of PHASE (R17). -/
def Phase.bits : Phase → BitVec 3
  | .collect => 0
  | .ready => 1
  | .encoding => 2
  | .decoding => 3
  | .done => 4
  | .error => 7

/-- The 2-bit value of SRC (R18). -/
def Src.bits : Src → BitVec 2
  | .empty => 0
  | .scan => 1
  | .text => 2

/-- The 8-bit value of ERRCODE (R118). -/
def ErrCode.bits : ErrCode → BitVec 8
  | .none => 0x00
  | .illegal => 0x01
  | .sequence => 0x02
  | .countOverflow => 0x03
  | .malformed => 0x04
  | .duplicate => 0x05
  | .noCode => 0x06
  | .encOverrun => 0x07
  | .encUnderrun => 0x08
  | .badCode => 0x09
  | .truncated => 0x0A
  | .trailing => 0x0B

/-- The 4-bit value of PSTATE (R25). -/
def ParsePos.bits : ParsePos → BitVec 4
  | .symDigit k => BitVec.ofNat 4 k.val
  | .colon => 8
  | .firstDigit => 9
  | .moreDigits => 10

/-- STATUS (R35). -/
def Block.statusWord (b : Block) : RegWord :=
  (0 : BitVec 23) ++ BitVec.ofBool b.built ++ (0 : BitVec 2) ++ b.src.bits ++ (0 : BitVec 1) ++ b.phase.bits

/-- ERROR (R36). -/
def Block.errorWord (b : Block) : RegWord :=
  b.errCmd ++ (0 : BitVec 5) ++ b.errPhase.bits ++ b.errCode.bits

/-- TREE (R37). -/
def Block.treeWord (b : Block) : RegWord :=
  (0 : BitVec 7) ++ b.nnodes ++ (0 : BitVec 7) ++ b.root

/-- WALK (R37). -/
def Block.walkWord (b : Block) : RegWord :=
  (0 : BitVec 8) ++ b.depth ++ (0 : BitVec 7) ++ b.cur

/-- PARSE (R37). -/
def Block.parseWord (b : Block) : RegWord :=
  (0 : BitVec 16) ++ b.psym ++ (0 : BitVec 4) ++ b.pstate.bits

/-- ORDER[i]: bit 31 is 1 exactly when i < NSYM, and the register reads 0 for i ≥ NSYM (R38). -/
def Block.orderWord (b : Block) (i : Nat) : RegWord :=
  if i < b.nsym.toNat then (1 : BitVec 1) ++ (0 : BitVec 23) ++ b.orderAt i else 0

/-- NODE_LINK[i] of a node (R39). -/
def Node.linkWord (n : Node) : RegWord :=
  if n.valid = false then 0
  else if n.leaf then (1 : BitVec 1) ++ (1 : BitVec 1) ++ (0 : BitVec 22) ++ n.sym
  else (1 : BitVec 1) ++ (0 : BitVec 1) ++ (0 : BitVec 5) ++ n.right ++ (0 : BitVec 7) ++ n.left

/-- CODE[s][w]: bit `j` is code bit 32w + j when 32w + j < LEN[s], and 0 otherwise (R40). -/
def codeRegWord (len : BitVec 8) (code : BitVec 255) (w : Nat) : RegWord :=
  ((code.setWidth 256 &&& (BitVec.allOnes 256 >>> (256 - len.toNat))) >>> (32 * w)).setWidth 32

/-- `RegRead(a)` (R33). The last case is every address R33 does not list (R41). -/
def Block.regRead (b : Block) (a : RegAddr) : RegWord :=
  let n := a.toNat
  if n = 0x0000 then Config.idValue
  else if n = 0x0001 then b.statusWord
  else if n = 0x0002 then b.errorWord
  else if n = 0x0003 then b.nsym.setWidth 32
  else if n = 0x0004 then b.total
  else if n = 0x0005 then b.encCnt
  else if n = 0x0006 then b.decCnt
  else if n = 0x0007 then b.bitCnt.extractLsb' 0 32
  else if n = 0x0008 then b.bitCnt.extractLsb' 32 32
  else if n = 0x0009 then b.padCnt.setWidth 32
  else if n = 0x000A then b.treeWord
  else if n = 0x000B then b.walkWord
  else if n = 0x000C then b.parseWord
  else if n = 0x000D then b.pcnt
  else if 0x0100 ≤ n ∧ n < 0x0200 then b.cnt.read (BitVec.ofNat 8 (n - 0x0100))
  else if 0x0200 ≤ n ∧ n < 0x0300 then b.orderWord (n - 0x0200)
  else if 0x0300 ≤ n ∧ n < 0x0400 then (b.len.read (BitVec.ofNat 8 (n - 0x0300))).setWidth 32
  else if 0x0800 ≤ n ∧ n < 0x0A00 then (b.nodeAt (n - 0x0800)).freq
  else if 0x0A00 ≤ n ∧ n < 0x0C00 then (b.nodeAt (n - 0x0A00)).linkWord
  else if 0x1000 ≤ n ∧ n < 0x1800 then
    let v := BitVec.ofNat 8 ((n - 0x1000) / 8)
    codeRegWord (b.len.read v) (b.code.read v) ((n - 0x1000) % 8)
  else 0

/-- reg_rdata (R48): `RegRead(reg_addr)` while idle = 1, and a fresh draw while idle = 0. -/
def State.regData (s : State) (a : RegAddr) : RegWord :=
  if s.idle then s.toBlock.regRead a else Config.busyRead s.draws

/-- The host reads a register: it learns reg_rdata, and nothing of the block or of a stream changes
(R48, R59). -/
def State.recordRead (s : State) (a : RegAddr) : State :=
  { s with reads := s.reads ++ [(a, s.regData a)]
           draws := if s.idle then s.draws else s.draws + 1 }

end Sys2Proof.Machine
end

