-- ==== Sys2Proof/Machine/Control.lean ====
section
/-! DEFINITION. Block control (spec/45_control.md): NOP and CLEAR. -/

namespace Sys2Proof.Machine

/-- NOP has no effect (R116). -/
def nopRule (b : Block) : RuleResult := .ok (b, [])

/-- NOP (R116). -/
def execNop (s : State) : StepOutcome := commandRule .nop s nopRule

/-- CLEAR, the one command that has its effect in every phase, ERROR among them (R72, R117). -/
def execClear (s : State) : StepOutcome := .next s.clear

end Sys2Proof.Machine
end

