-- ==== Sys2Proof/Machine/Frequency.lean ====
section
/-! DEFINITION. The frequency table builder (spec/40_frequency.md): COUNT. -/

namespace Sys2Proof.Machine

/-- One more occurrence of `v`, entered into ORDER on its first (R76). -/
def Block.countOne (b : Block) (v : Byte) : Block :=
  let b' := if b.cnt.read v = 0 then b.appendOrder v else b
  { b' with cnt := b.cnt.write v (b.cnt.read v + 1), total := b.total + 1, src := .scan }

/-- COUNT's check and writes (R76). -/
def countRule (v : Byte) (b : Block) : RuleResult :=
  if b.total.toNat < Config.cntMax then .ok (b.countOne v, []) else .error .countOverflow

/-- COUNT v (R76). -/
def execCount (v : Byte) (s : State) : StepOutcome := commandRule (.count v) s (countRule v)

end Sys2Proof.Machine
end

