-- ==== Sys2Proof/Machine/TreeBuilder.lean ====
section
/-! DEFINITION. The code tree builder and code table deriver (spec/41_tree_builder.md): BUILD. The
arena under construction is the list of nodes created so far, so a node's index is its creation
sequence number (R26) and the tree is a function of the table's entries alone (R92 (e)). -/

namespace Sys2Proof.Machine

/-! ## Leaves and merging -/

/-- The leaf of a table entry (R83). -/
def Node.ofEntry (e : Byte × Count) : Node :=
  { valid := true, leaf := true, sym := e.1, freq := e.2, left := 0, right := 0 }

/-- FREQ of node `i` of a list of nodes. -/
def freqAt (nodes : List Node) (i : Nat) : Count := (nodes[i]?.getD Node.zero).freq

/-- The internal node with children `a` and `b` (R85). -/
def Node.merge (nodes : List Node) (a b : Nat) : Node :=
  { valid := true, leaf := false, sym := 0
    freq := BitVec.ofNat 32 ((freqAt nodes a).toNat + (freqAt nodes b).toNat)
    left := BitVec.ofNat 9 a, right := BitVec.ofNat 9 b }

/-- `(FREQ[i], i) < (FREQ[j], j)` in the lexicographic order (R84). -/
def precedes (nodes : List Node) (i j : Nat) : Bool :=
  (freqAt nodes i).toNat < (freqAt nodes j).toNat ||
    ((freqAt nodes i).toNat == (freqAt nodes j).toNat && i < j)

/-- The least of `m` and a list of indices under `precedes`. -/
def leastOf (nodes : List Node) : Nat → List Nat → Nat
  | m, [] => m
  | m, j :: js => leastOf nodes (if precedes nodes j m then j else m) js

/-- `ExtractMin(live)`: the least index of a nonempty live set, and the set without it (R84). -/
def extractMin (nodes : List Node) : List Nat → Option (Nat × List Nat)
  | [] => none
  | i :: is => some (leastOf nodes i is, (i :: is).erase (leastOf nodes i is))

/-- The loop of `MergeAll` (R85): while two nodes are live, merge the first two extracted into a new
node. Each round makes the live set one smaller, so its size is fuel enough. -/
def mergeAll : Nat → List Node → List Nat → List Node
  | 0, nodes, _ => nodes
  | fuel + 1, nodes, live =>
    match extractMin nodes live with
    | none => nodes
    | some (a, live1) =>
      match extractMin nodes live1 with
      | none => nodes
      | some (b, live2) =>
        mergeAll fuel (nodes ++ [Node.merge nodes a b]) (live2 ++ [nodes.length])

/-- The nodes BUILD creates for a table, in creation order: the leaves (R83), then the merges (R85). -/
def buildNodes (entries : List (Byte × Count)) : List Node :=
  mergeAll entries.length (entries.map Node.ofEntry) (List.range entries.length)

/-- ROOT: the last node created, or 0 when there is none (R81, R86). -/
def rootOf (nodes : List Node) : Nat := if nodes.length = 0 then 0 else nodes.length - 1

/-! ## Codes -/

/-- `Walk(n, path)` (R89): the leaves below node `n`, each with its path. A path visits no node
twice, so the number of nodes is fuel enough. -/
def walkCodes : Nat → List Node → Nat → BitString → List (Byte × BitString)
  | 0, _, _, _ => []
  | fuel + 1, nodes, n, path =>
    match nodes[n]? with
    | none => []
    | some nd =>
      if nd.leaf then [(nd.sym, path)]
      else
        walkCodes fuel nodes nd.left.toNat (path ++ [false]) ++
          walkCodes fuel nodes nd.right.toNat (path ++ [true])

/-- `DeriveCodes(k)`: no code for the empty table (R91), the code "0" for one symbol (R90), else the
root-to-leaf paths (R89). -/
def deriveCodes (k : Nat) (nodes : List Node) : List (Byte × BitString) :=
  if k = 0 then []
  else if k = 1 then [((nodes[0]?.getD Node.zero).sym, [false])]
  else walkCodes nodes.length nodes (rootOf nodes) []

/-- LEN with the lengths of some codes written into it (R89, R90). -/
def writeLens (codes : List (Byte × BitString)) (t : SymTable (BitVec 8)) : SymTable (BitVec 8) :=
  codes.foldl (fun t c => t.write c.1 (BitVec.ofNat 8 c.2.length)) t

/-- CODE with some codes written into it (R89, R90). -/
def writeCodes (codes : List (Byte × BitString)) (t : SymTable (BitVec 255)) : SymTable (BitVec 255) :=
  codes.foldl (fun t c => t.write c.1 (codeBits c.2)) t

/-! ## BUILD -/

/-- The block after BUILD (R81). -/
def Block.withTree (b : Block) : Block :=
  let nodes := buildNodes b.entries
  let codes := deriveCodes b.entries.length nodes
  { b with
    node := overlay b.node nodes
    nnodes := BitVec.ofNat 9 nodes.length
    root := BitVec.ofNat 9 (rootOf nodes)
    len := writeLens codes b.len
    code := writeCodes codes b.code
    encCnt := 0, bitCnt := 0, decCnt := 0, padCnt := 0
    cur := BitVec.ofNat 9 (rootOf nodes), depth := 0
    built := true, phase := .ready }

/-- BUILD's check and writes (R81, R82). -/
def buildRule (b : Block) : RuleResult :=
  if b.pstate = .symDigit 0 then .ok (b.withTree, []) else .error .malformed

/-- BUILD (R81). -/
def execBuild (s : State) : StepOutcome := commandRule .build s buildRule

end Sys2Proof.Machine
end

