-- ==== Sys2Proof/Machine/Encoder.lean ====
section
/-! DEFINITION. The stream encoder (spec/42_encoder.md): ENCODE and ENC_END. -/

namespace Sys2Proof.Machine

/-- ENCODE's checks, writes and emitted bits (R95). -/
def encodeRule (v : Byte) (b : Block) : RuleResult :=
  if b.len.read v = 0 then .error .noCode
  else if b.encCnt.toNat < b.total.toNat then
    .ok ({ b with
            bitCnt := b.bitCnt + (b.len.read v).setWidth 64
            encCnt := b.encCnt + 1
            phase := .encoding },
         (b.codeOf v).map Output.bit)
  else .error .encOverrun

/-- ENCODE v (R95). -/
def execEncodeByte (v : Byte) (s : State) : StepOutcome := commandRule (.encodeByte v) s (encodeRule v)

/-- ENC_END's check and write (R97). -/
def encEndRule (b : Block) : RuleResult :=
  if b.encCnt = b.total then .ok ({ b with phase := .done }, []) else .error .encUnderrun

/-- ENC_END (R97). -/
def execEncEnd (s : State) : StepOutcome := commandRule .encEnd s encEndRule

end Sys2Proof.Machine
end

