-- ==== Sys2Proof/Machine/Decoder.lean ====
section
/-! DEFINITION. The stream decoder (spec/43_decoder.md): DEC_BIT and DEC_END, by the tree walk (R100). -/

namespace Sys2Proof.Machine

/-- A bit after the last symbol: counted, not walked (R104). -/
def trailingBitRule (b : Block) : RuleResult :=
  if b.padCnt.toNat < Config.padMax then
    .ok ({ b with padCnt := b.padCnt + 1, phase := .decoding }, [])
  else .error .trailing

/-- A bit in a one-symbol tree: only 0 is a code (R103). -/
def oneSymbolBitRule (v : Bool) (b : Block) : RuleResult :=
  if v = false then
    .ok ({ b with decCnt := b.decCnt + 1, phase := .decoding }, [Output.sym (b.nodeAt 0).sym])
  else .error .badCode

/-- The child of CUR that a bit leads to: 0 to LEFT, 1 to RIGHT (R55, R102). -/
def Block.childOf (b : Block) (v : Bool) : NodeIdx :=
  if v = false then (b.nodeAt b.cur.toNat).left else (b.nodeAt b.cur.toNat).right

/-- One step of the tree walk (R102). -/
def walkBitRule (v : Bool) (b : Block) : RuleResult :=
  let n := b.childOf v
  if (b.nodeAt n.toNat).leaf then
    .ok ({ b with decCnt := b.decCnt + 1, cur := b.root, depth := 0, phase := .decoding },
         [Output.sym (b.nodeAt n.toNat).sym])
  else .ok ({ b with cur := n, depth := b.depth + 1, phase := .decoding }, [])

/-- DEC_BIT's cases, in the order of R101. -/
def decBitRule (v : Bool) (b : Block) : RuleResult :=
  if b.decCnt = b.total then trailingBitRule b
  else if b.nnodes = 1 then oneSymbolBitRule v b
  else walkBitRule v b

/-- DEC_BIT v (R101). -/
def execDecBit (v : Bool) (s : State) : StepOutcome := commandRule (.decBit v) s (decBitRule v)

/-- DEC_END's check and write (R105). -/
def decEndRule (b : Block) : RuleResult :=
  if b.decCnt = b.total then .ok ({ b with phase := .done }, []) else .error .truncated

/-- DEC_END (R105). -/
def execDecEnd (s : State) : StepOutcome := commandRule .decEnd s decEndRule

end Sys2Proof.Machine
end

