-- ==== Sys2Proof/Machine/Serializer.lean ====
section
/-! DEFINITION. The frequency-table serializer (spec/44_serializer.md): SERIALIZE and DESER_CHAR. -/

namespace Sys2Proof.Machine

/-- SERIALIZE writes no field and emits the side-file text of the table (R110). -/
def serializeRule (b : Block) : RuleResult := .ok (b, (sideFile b.entries).map Output.txt)

/-- SERIALIZE (R110). -/
def execSerialize (s : State) : StepOutcome := commandRule .serialize s serializeRule

/-- The place after symbol digit `k`: PSTATE + 1 (R112). -/
def ParsePos.afterDigit (k : Fin 8) : ParsePos := if k = 7 then .colon else .symDigit (k + 1)

/-- A symbol digit, PSTATE 0 to 7 (R112). -/
def symDigitRule (k : Fin 8) (c : Byte) (b : Block) : RuleResult :=
  if isBinaryDigit c then
    .ok ({ b with psym := shiftInDigit b.psym c, pstate := ParsePos.afterDigit k, src := .text }, [])
  else .error .malformed

/-- The colon, PSTATE 8 (R112). -/
def colonRule (c : Byte) (b : Block) : RuleResult :=
  if c = charColon then .ok ({ b with pstate := .firstDigit, src := .text }, []) else .error .malformed

/-- The first count digit, PSTATE 9 (R112). -/
def firstDigitRule (c : Byte) (b : Block) : RuleResult :=
  if isDecimalDigit c then
    .ok ({ b with pcnt := BitVec.ofNat 32 (digitValue c), pstate := .moreDigits, src := .text }, [])
  else .error .malformed

/-- `Commit()`: the record's ending space enters it into the table (R113). -/
def commitRule (b : Block) : RuleResult :=
  if b.pcnt = 0 then .error .malformed
  else if b.cnt.read b.psym ≠ 0 then .error .duplicate
  else if b.total.toNat + b.pcnt.toNat ≤ Config.cntMax then
    .ok ({ b.appendOrder b.psym with
            cnt := b.cnt.write b.psym b.pcnt
            total := b.total + b.pcnt
            pstate := .symDigit 0, psym := 0, pcnt := 0, src := .text }, [])
  else .error .countOverflow

/-- A further count digit or the record's end, PSTATE 10 (R112). -/
def moreDigitsRule (c : Byte) (b : Block) : RuleResult :=
  if isDecimalDigit c then
    let v := b.pcnt.toNat * 10 + digitValue c
    if v ≤ Config.cntMax then .ok ({ b with pcnt := BitVec.ofNat 32 v, src := .text }, [])
    else .error .countOverflow
  else if c = charSpace then commitRule b
  else .error .malformed

/-- DESER_CHAR's cases by PSTATE (R112). -/
def deserCharRule (c : Byte) (b : Block) : RuleResult :=
  match b.pstate with
  | .symDigit k => symDigitRule k c b
  | .colon => colonRule c b
  | .firstDigit => firstDigitRule c b
  | .moreDigits => moreDigitsRule c b

/-- DESER_CHAR c (R112). -/
def execDeserChar (c : Byte) (s : State) : StepOutcome := commandRule (.deserChar c) s (deserCharRule c)

end Sys2Proof.Machine
end

