-- ==== Sys2Proof/Machine/Dispatch.lean ====
section
/-! DEFINITION. The one match from a command to its meaning (spec/30_encoding.md R72). -/

namespace Sys2Proof.Machine

def exec (i : Instr) (s : State) : Host.Outcome State Fault Refusal :=
  match i with
  | .nop => Sys2Proof.Machine.execNop s
  | .clear => Sys2Proof.Machine.execClear s
  | .count b => Sys2Proof.Machine.execCount b s
  | .build => Sys2Proof.Machine.execBuild s
  | .encodeByte b => Sys2Proof.Machine.execEncodeByte b s
  | .encEnd => Sys2Proof.Machine.execEncEnd s
  | .decBit v => Sys2Proof.Machine.execDecBit v s
  | .decEnd => Sys2Proof.Machine.execDecEnd s
  | .serialize => Sys2Proof.Machine.execSerialize s
  | .deserChar c => Sys2Proof.Machine.execDeserChar c s

end Sys2Proof.Machine
end

