-- ==== Sys2Proof/Machine/Ports.lean ====
section
/-! DEFINITION. What each host move does at the ports (spec/20_memory.md R44 to R48,
spec/60_exceptions.md R134, spec/70_reset_and_hazards.md R136). -/

namespace Sys2Proof.Machine

/-- `Execute(w)` (R72): the decoded command's meaning, or E_ILLEGAL. In PHASE = ERROR each of the two
discards every word but 0x0100, so asking `Decode` first changes nothing (R121). -/
def executeWord (w : CmdWord) (s : State) : StepOutcome :=
  match decode w with
  | .ok i => exec i s
  | .error _ => illegalWord w s

/-- A host with ready = 1 on stream `p` for one edge: the offered value transfers if it is on `p`, and
otherwise nothing does (R45, R47). -/
def State.takeFrom (s : State) (p : Stream) : State :=
  if s.inReset then s
  else
    match s.offered with
    | [] => s
    | o :: rest => if o.stream = p then s.transfer o rest else s

/-- A clock edge with rst_n = 0: every field takes its reset value, a command in progress is abandoned
with its untransferred outputs, and what has transferred stays (R136). A new job begins (R13; log entry 13). -/
def State.resetEdge (s : State) : State :=
  { s with
    toBlock := Block.reset, inReset := true, offered := []
    jobMark := { bits := s.bitOut.length, syms := s.symOut.length, txts := s.txtOut.length } }

/-- The host's next move, `rest` being those after it. A command word waits on the port until
cmd_ready = 1 (R45, R46), and the host with it (log entry 2). -/
def hostMove (m : HostMove) (rest : List HostMove) (s : State) : StepOutcome :=
  match m with
  | .command w => if s.cmdReady then executeWord w { s with host := rest } else .next s
  | .take p => .next ({ s with host := rest }.takeFrom p)
  | .readReg a => .next ({ s with host := rest }.recordRead a)
  | .resetLow => .next { s with host := rest }.resetEdge
  | .resetHigh => .next { s with host := rest, inReset := false }

/-- With no host move the block holds its state: while idle (R133), and with a value offered that
nobody takes, for ever (R144). -/
def holdState (s : State) : StepOutcome := .next s

/-- The machine made ready to accept a word at once: rst_n is 1 and every offered value has
transferred (R46, R136). A state that is idle is unchanged. -/
def State.madeIdle (s : State) : State := { s.drained with inReset := false }

end Sys2Proof.Machine
end

