-- ==== Sys2Proof/Machine/Step.lean ====
section
/-! DEFINITION. One step of the machine: the host's next move (log entry 1). -/

namespace Sys2Proof.Machine

/-- One step: the first of the host's moves, or none (R6, R7). -/
def step (s : State) : Host.Outcome State Fault Refusal :=
  match s.host with
  | [] => holdState s
  | m :: rest => hostMove m rest s

/-- The machine with a command word as the host's next move, on an idle block (log entry 3). The
block fetches nothing (R16, R138): its program is what the host presents. -/
def State.withFetchWord (s : State) (nbits w : Nat) : State :=
  { s.madeIdle with host := .command (tableWord nbits w) :: s.host }

end Sys2Proof.Machine
end

