-- ==== Sys2Proof/Machine/HostFlows.lean ====
section
/-! DEFINITION. The command sequences a host presents: the pseudo-instructions of
spec/30_encoding.md R74, the two job flows of spec/70_reset_and_hazards.md R140 and R141, and the
host's packing of bits into file bytes (spec/20_memory.md R57). None of this is the block: it is what
the statements about whole jobs are made of. -/

namespace Sys2Proof.Machine

/-! ## Pseudo-instructions (R74) -/

/-- `COUNTS`: one COUNT per byte, in order. -/
def countsOf (bytes : List Byte) : List Instr := bytes.map Instr.count

/-- `ENCODES`: one ENCODE per byte, in order. -/
def encodesOf (bytes : List Byte) : List Instr := bytes.map Instr.encodeByte

/-- `DESER`: one DESER_CHAR per character byte, in order. -/
def deserOf (text : List Byte) : List Instr := text.map Instr.deserChar

/-- `DEC_BITS`: one DEC_BIT per bit, in order. -/
def decBitsOf (bits : BitString) : List Instr := bits.map Instr.decBit

/-- The bits of a byte, bit 7 first (R57, R74). -/
def bitsOfByte (x : Byte) : BitString := [7, 6, 5, 4, 3, 2, 1, 0].map x.getLsbD

/-- `DEC_BYTES`: eight DEC_BIT per byte, bit 7 first (R74). -/
def decBytesOf (bytes : List Byte) : List Instr := decBitsOf (bytes.flatMap bitsOfByte)

/-! ## The host's bit writer (R57; log entry 15) -/

/-- A byte from up to eight bits, the first of them bit 7, the missing ones 0. -/
def byteOfBits (bits : BitString) : Byte :=
  BitVec.ofNat 8 ((List.range 8).foldl (fun n j => 2 * n + (bits[j]?.getD false).toNat) 0)

/-- The bytes of the encoded file: most significant bit first, the last byte padded with 0 bits.
`fuel` bounds the number of bytes. -/
def packWithin : Nat → BitString → List Byte
  | 0, _ => []
  | fuel + 1, bits =>
    match bits with
    | [] => []
    | _ :: _ => byteOfBits (bits.take 8) :: packWithin fuel (bits.drop 8)

/-- The bytes of the encoded file (R57). -/
def packBits (bits : BitString) : List Byte := packWithin bits.length bits

/-! ## Job flows -/

/-- `encode(inputFile, outputFile, freqFile)` over the bytes of inputFile (R140). -/
def encodeJob (input : List Byte) : List Instr :=
  [.clear] ++ countsOf input ++ [.build, .serialize] ++ encodesOf input ++ [.encEnd]

/-- `decode(inputFile, outputFile, freqFile)` over the side file's text and the encoded bits (R141). -/
def decodeJob (text : List Byte) (bits : BitString) : List Instr :=
  [.clear] ++ deserOf text ++ [.build] ++ decBitsOf bits ++ [.decEnd]

/-- Commands executed one after another, each completely before the next (R6, R60). DESIGN CHOICE, log
entry 19: `exec` asks for no cmd_ready, so the next command runs while values of the one before are still
offered. What it says of the ports has a premise, which R144 asks to be stated: the host takes every value
a command offers before the next word transfers. `execDraining` is the same with that host, and
`execDraining_of_execAll` (Laws/Runs.lean) that the two agree. A host that does not drain stalls the block
in `step` (R46, R144), and nothing of `execAll` is about it. -/
def execAll : List Instr → State → StepOutcome
  | [], s => .next s
  | i :: rest, s =>
    match exec i s with
    | .next t => execAll rest t
    | .fault r => .fault r
    | .refused r => .refused r

/-- Commands executed by a host that drains: every value a command offers has transferred before the next
command begins (R46, R144; log entry 19). -/
def execDraining : List Instr → State → StepOutcome
  | [], s => .next s
  | i :: rest, s =>
    match exec i s with
    | .next t => execDraining rest t.drained
    | .fault r => .fault r
    | .refused r => .refused r

/-- A host that takes every value a command offers before it presents the next word (R134, R144). -/
def takesOf (out : List Output) : List HostMove := out.map fun o => .take o.stream

end Sys2Proof.Machine
end

