-- ==== Sys2Proof/Safety.lean ====
section
/-! DEFINITION. What a job and a sound state are, in the terms the statements use: the job of
spec/60_exceptions.md R135, and the invariants of spec/10_state.md R24 to R31. -/

namespace Sys2Proof.Machine

/-! ## Jobs (R135) -/

/-- The bits emitted since the current job began. -/
def State.jobBits (s : State) : BitString := s.emittedBits.drop s.jobMark.bits

/-- The bytes emitted on SYM_OUT since the current job began. -/
def State.jobSyms (s : State) : List Byte := s.emittedSyms.drop s.jobMark.syms

/-- The side-file characters emitted since the current job began. -/
def State.jobTxts (s : State) : List Byte := s.emittedTxts.drop s.jobMark.txts

/-- The phase the job was in when it failed, or is in (R17, R20). -/
def Block.jobPhase (b : Block) : Phase := if b.phase = .error then b.errPhase else b.phase

/-- The job has succeeded: it has reached DONE (R135). What comes after leaves the result as it is: a
SERIALIZE in DONE, also while its characters drain, and an error in DONE, which leaves PHASE = ERROR
with ERRPHASE = DONE (R119). The step that reaches DONE leaves idle = 1 (`step_endsJob`), so DONE is
reached at the very point at which R135 ends the job. -/
def State.jobSucceeded (s : State) : Bool := s.jobPhase == .done

/-- The job has failed: it has reached ERROR, and not from DONE. All its output is invalid (R124,
R135). -/
def State.jobFailed (s : State) : Bool := s.phase == .error && s.errPhase != .done

/-- The job has ended, now or at an earlier point (R135). It stays so until the next CLEAR or hardware
reset (`step_keepsJobResult`). -/
def State.jobEnded (s : State) : Bool := s.jobSucceeded || s.jobFailed

/-! ## The frequency table (R24) -/

/-- The sum of CNT[s] over all symbols. -/
def Block.countSum (b : Block) : Nat := (b.cnt.toList.map BitVec.toNat).sum

/-- The invariants of R24, (a) to (e). -/
structure Block.TableInv (b : Block) : Prop where
  /-- (a) ORDER[0] to ORDER[NSYM-1] are pairwise distinct. -/
  distinct : ∀ i j, i < b.nsym.toNat → j < b.nsym.toNat → b.orderAt i = b.orderAt j → i = j
  /-- (b) CNT[s] ≥ 1 exactly when s is one of them. -/
  present : ∀ v, 1 ≤ (b.cnt.read v).toNat ↔ ∃ i, i < b.nsym.toNat ∧ b.orderAt i = v
  /-- (c) TOTAL equals the sum of CNT[s], which is at most CNT_MAX. -/
  total_sum : b.total.toNat = b.countSum ∧ b.countSum ≤ Config.cntMax
  /-- (d) NSYM ≤ 256, and ORDER[i] = 0 for every i ≥ NSYM. -/
  tail : b.nsym.toNat ≤ 256 ∧ ∀ i, b.nsym.toNat ≤ i → b.orderAt i = 0
  /-- (e) NSYM = 0 exactly when TOTAL = 0. -/
  empty_iff : b.nsym.toNat = 0 ↔ b.total.toNat = 0

/-! ## Phases, errors and the parser (R17 to R20, R25) -/

/-- What PHASE, SRC, BUILT and the error fields say of one another. -/
structure Block.ControlInv (b : Block) : Prop where
  /-- BUILT becomes 1 when BUILD completes, and BUILD is what leaves COLLECT (R19, R81). -/
  built_iff : b.built = true ↔ b.jobPhase ≠ .collect
  /-- ERRCODE is nonzero exactly in ERROR (R20, R119). -/
  err_iff : b.errCode = .none ↔ b.phase ≠ .error
  /-- ERRPHASE is a phase 0 to 4 (R119). -/
  errPhase_ne : b.errPhase ≠ .error
  /-- The error fields hold 0 until the first error of a job (R20). -/
  no_error : b.phase ≠ .error → b.errPhase = .collect ∧ b.errCmd = 0
  /-- A record is being read only in a table filled from text, before BUILD (R18, R25, R82). -/
  parser : b.src ≠ .text ∨ b.built = true → b.pstate = .symDigit 0
  /-- The parser holds no digits between records (R25, R113). -/
  digits : b.pstate = .symDigit 0 → b.psym = 0 ∧ b.pcnt = 0
  /-- SRC = EMPTY says that no COUNT and no DESER_CHAR has completed (R18). -/
  src_empty : b.src = .empty → b.nsym = 0

/-! ## Counters (R30, R31, R98, R104) -/

/-- The counters against TOTAL, one another and the phase. -/
structure Block.CounterInv (b : Block) : Prop where
  /-- No more bytes are encoded than were counted (R95). -/
  enc_le : b.encCnt.toNat ≤ b.total.toNat
  /-- No more symbols are decoded than were counted (R101). -/
  dec_le : b.decCnt.toNat ≤ b.total.toNat
  /-- PADCNT is 0 to 7 (R31), and counts bits only after the last symbol (R104). -/
  pad : b.padCnt.toNat ≤ Config.padMax ∧ (b.padCnt ≠ 0 → b.decCnt = b.total)
  /-- BITCNT is at most 255 bits a byte, so it cannot overflow (R30). -/
  bits_le : b.bitCnt.toNat ≤ 255 * b.encCnt.toNat
  /-- Nothing is encoded or decoded before BUILD, nor in READY (R17). -/
  start : b.jobPhase = .collect ∨ b.jobPhase = .ready → b.encCnt = 0 ∧ b.decCnt = 0 ∧ b.padCnt = 0
  /-- A job that encodes does not decode (R17, R71). -/
  encoding : b.jobPhase = .encoding → b.decCnt = 0 ∧ b.padCnt = 0
  /-- A job that decodes does not encode (R17, R71). -/
  decoding : b.jobPhase = .decoding → b.encCnt = 0
  /-- A job ends in DONE with every byte encoded or every symbol decoded (R97, R98, R105). -/
  done : b.jobPhase = .done → b.encCnt = b.total ∨ b.decCnt = b.total

/-- The counters against the streams: BITCNT and DECCNT count what the job emitted (R30, R31). -/
structure State.AccountInv (s : State) : Prop where
  counters : s.CounterInv
  /-- The job's output begins within what has been emitted. -/
  marks : s.jobMark.bits ≤ s.emittedBits.length ∧ s.jobMark.syms ≤ s.emittedSyms.length ∧
    s.jobMark.txts ≤ s.emittedTxts.length
  bits : s.bitCnt.toNat = s.jobBits.length
  syms : s.decCnt.toNat = s.jobSyms.length

/-! ## The tree and the code table (R19, R27, R29) -/

/-- The tree and code table are those of the current table while BUILT = 1, and hold their reset
values while BUILT = 0 (R19, R27, R29). -/
structure Block.TreeCurrent (b : Block) : Prop where
  built_node : b.built = true → b.node = overlay Block.reset.node (buildNodes b.entries)
  built_nnodes : b.built = true → b.nnodes = BitVec.ofNat 9 (buildNodes b.entries).length
  built_root : b.built = true → b.root = BitVec.ofNat 9 (rootOf (buildNodes b.entries))
  built_len : b.built = true →
    b.len = writeLens (deriveCodes b.entries.length (buildNodes b.entries)) Block.reset.len
  built_code : b.built = true →
    b.code = writeCodes (deriveCodes b.entries.length (buildNodes b.entries)) Block.reset.code
  unbuilt : b.built = false → b.node = Block.reset.node ∧ b.nnodes = 0 ∧ b.root = 0 ∧
    b.len = Block.reset.len ∧ b.code = Block.reset.code

/-- Node `j` waits to be merged when BUILD creates node `i`: it is in `live`, being an earlier node that
no earlier internal node has taken as a child (R85). -/
def Block.WaitingAt (b : Block) (i j : Nat) : Prop :=
  j < i ∧ ∀ p, b.nsym.toNat ≤ p → p < i →
    (b.nodeAt p).left.toNat ≠ j ∧ (b.nodeAt p).right.toNat ≠ j

/-- Node `m` is the one of a set of nodes that is smallest under (FREQ, index) (R84). -/
def Block.FirstOf (b : Block) (waiting : Nat → Prop) (m : Nat) : Prop :=
  waiting m ∧ ∀ j, waiting j → j ≠ m →
    (b.nodeAt m).freq.toNat < (b.nodeAt j).freq.toNat ∨
      ((b.nodeAt m).freq.toNat = (b.nodeAt j).freq.toNat ∧ m < j)

/-- R27, (a) to (e): the arena is a full binary tree over the table's entries, merged in the order of
R84 and R85. -/
structure Block.ArenaInv (b : Block) : Prop where
  /-- (a) NNODES = 2k - 1 when k ≥ 1, and 0 when k = 0. -/
  size : b.nnodes.toNat = 2 * b.nsym.toNat - 1
  /-- (b) The first k nodes are the leaves, in insertion order. -/
  leaves : ∀ i, i < b.nsym.toNat →
    b.nodeAt i = { valid := true, leaf := true, sym := b.orderAt i, freq := b.cnt.read (b.orderAt i),
                   left := 0, right := 0 }
  /-- (c) The rest are internal, with smaller children and the sum of their frequencies. -/
  internal : ∀ i, b.nsym.toNat ≤ i → i < b.nnodes.toNat →
    (b.nodeAt i).valid = true ∧ (b.nodeAt i).leaf = false ∧ (b.nodeAt i).sym = 0 ∧
    (b.nodeAt i).left.toNat < i ∧ (b.nodeAt i).right.toNat < i ∧
    (b.nodeAt i).freq.toNat =
      (b.nodeAt (b.nodeAt i).left.toNat).freq.toNat + (b.nodeAt (b.nodeAt i).right.toNat).freq.toNat
  /-- (c) They stand in the order BUILD created them: LEFT is the first node taken of those waiting, and
  RIGHT the first of the rest (R84, R85). -/
  order : ∀ i, b.nsym.toNat ≤ i → i < b.nnodes.toNat →
    b.FirstOf (b.WaitingAt i) (b.nodeAt i).left.toNat ∧
    b.FirstOf (fun j => b.WaitingAt i j ∧ j ≠ (b.nodeAt i).left.toNat) (b.nodeAt i).right.toNat
  /-- (d) ROOT is the last node, and every other node is the child of exactly one internal node, on
  exactly one side. -/
  root_last : b.root.toNat = b.nnodes.toNat - 1
  one_parent : ∀ i, i + 1 < b.nnodes.toNat →
    ∃ p v, (b.nsym.toNat ≤ p ∧ p < b.nnodes.toNat ∧
        (if v = false then (b.nodeAt p).left else (b.nodeAt p).right).toNat = i) ∧
      ∀ q w, b.nsym.toNat ≤ q → q < b.nnodes.toNat →
        (if w = false then (b.nodeAt q).left else (b.nodeAt q).right).toNat = i → q = p ∧ w = v
  /-- (e) The nodes past NNODES hold their reset value. -/
  rest : ∀ i, b.nnodes.toNat ≤ i → b.nodeAt i = Node.zero

/-- The node reached from `n` by a bit-string: 0 to LEFT, 1 to RIGHT (R11, R55). -/
def Block.descend (b : Block) : NodeIdx → BitString → NodeIdx
  | n, [] => n
  | n, v :: rest =>
    b.descend (if v = false then (b.nodeAt n.toNat).left else (b.nodeAt n.toNat).right) rest

/-- R29, (a) to (c): the code table of a table of k symbols. -/
structure Block.CodeInv (b : Block) : Prop where
  /-- (a) LEN[s] ≥ 1 exactly when CNT[s] ≥ 1. -/
  present : ∀ v, 1 ≤ (b.len.read v).toNat ↔ 1 ≤ (b.cnt.read v).toNat
  /-- (b) No code is a prefix of another code. -/
  prefix_free : ∀ u v, 1 ≤ (b.len.read u).toNat → 1 ≤ (b.len.read v).toNat →
    b.codeOf u <+: b.codeOf v → u = v
  /-- (c) LEN[s] ≤ max(1, NSYM - 1) ≤ 255. -/
  bound : ∀ v, (b.len.read v).toNat ≤ max 1 (b.nsym.toNat - 1)
  /-- The bits of CODE[s] at and above LEN[s] are 0 (R28). -/
  high : ∀ v j, (b.len.read v).toNat ≤ j → (b.code.read v).getLsbD j = false

/-- R31 and R102: CUR is the node the pending candidate bits lead to, an internal node, and DEPTH is
how many they are. In a tree of at most one node no bit is ever pending (R103). -/
structure Block.WalkInv (b : Block) : Prop where
  few : b.nnodes.toNat ≤ 1 → b.cur = b.root ∧ b.depth = 0
  path : 1 < b.nnodes.toNat → ∃ p : BitString, p.length = b.depth.toNat ∧ b.descend b.root p = b.cur ∧
    b.nsym.toNat ≤ b.cur.toNat ∧ b.cur.toNat < b.nnodes.toNat ∧ p.length ≤ 254

/-- Everything the block's fields say of one another in a state a run can reach (R24 to R31). -/
structure Block.Inv (b : Block) : Prop where
  table : b.TableInv
  control : b.ControlInv
  counters : b.CounterInv
  tree : b.TreeCurrent
  walk : b.built = true → b.WalkInv

/-! ## What the statements quantify over -/

/-- Two states of machines that have made the same moves but for register reads: the second's host
list is the first's without its reads, and only the read history and the draw count differ (R8). -/
def SameButReads (s u : State) : Prop :=
  u = { s with reads := u.reads, draws := u.draws
               host := s.host.filter fun m => match m with
                 | .readReg _ => false
                 | .command _ => true
                 | .take _ => true
                 | .resetLow => true
                 | .resetHigh => true }

/-- The number a list of decimal digits writes, most significant first (R111). -/
def decimalValue (digits : List Nat) : Nat := digits.foldl (fun n d => 10 * n + d) 0

/-- The distinct symbols of an input in order of first occurrence, each with its count (R75, R77). -/
def tableOf (input : List Byte) : List (Byte × Count) :=
  input.eraseDups.map fun v => (v, BitVec.ofNat 32 (input.count v))

/-- The sum of CNT[s] × (length of the code of s) over some entries (R13 "weighted path length"). -/
def weightedLength (entries : List (Byte × Count)) (length : Byte × Count → Nat) : Nat :=
  (entries.map fun e => e.2.toNat * length e).sum

end Sys2Proof.Machine
end

