-- ==== Sys2Proof/Certificates/Slice0/Obligations.lean ====
section
/-! DEFINITION. The statements about the model, each formalising rules of spec/. `exec` answers a next
state in every one of them: an error is the error entry of R119, which is a next state. -/

section

open Sys2Proof Sys2Proof.Machine

/-! ## Encoding -/

/-- R68, R73: one word of each command, written out from the opcode map. -/
def Obligations.DecodeReadsTheSpecsWords : Prop :=
  decode 0b00000000_00000000 = .ok .nop ∧
  decode 0b00000001_00000000 = .ok .clear ∧
  decode 0b00010000_01000001 = .ok (.count 0x41) ∧
  decode 0b00100000_00000000 = .ok .build ∧
  decode 0b00110000_01000011 = .ok (.encodeByte 0x43) ∧
  decode 0b00110001_00000000 = .ok .encEnd ∧
  decode 0b01000000_00000001 = .ok (.decBit true) ∧
  decode 0b01000001_00000000 = .ok .decEnd ∧
  decode 0b01010000_00000000 = .ok .serialize ∧
  decode 0b01010001_00111010 = .ok (.deserChar 0x3A)

/-- R66 to R70: the decoder and the encoder are inverse of one another, so every command has exactly
one word and every legal word exactly one command. -/
def Obligations.DecodeInvertsEncode : Prop :=
  ∀ (w : CmdWord) (i : Instr), decode w = .ok i ↔ w = encode i

/-- R70: exactly these words are illegal (OPC is `w / 256` and ARG is `w % 256`); the legal words,
counted opcode by opcode, are 776; and an illegal word raises E_ILLEGAL, or is discarded in ERROR. -/
def Obligations.IllegalWordsAreExactlyThese : Prop :=
  (∀ w : CmdWord,
    (∃ r, decode w = .error r) ↔
      (w.toNat / 256 ∉ [0x00, 0x01, 0x10, 0x20, 0x30, 0x31, 0x40, 0x41, 0x50, 0x51]) ∨
      (w.toNat / 256 ∈ [0x00, 0x01, 0x20, 0x31, 0x41, 0x50] ∧ w.toNat % 256 ≠ 0) ∨
      (w.toNat / 256 = 0x40 ∧ w.toNat % 256 / 2 ≠ 0)) ∧
  ((List.range 256).map fun opc => ((List.range 256).filter fun arg =>
    (decode (BitVec.ofNat 8 opc ++ BitVec.ofNat 8 arg)).isOk).length).sum = 776 ∧
  ∀ (s : State) (w : CmdWord), (∃ r, decode w = .error r) →
    executeWord w s = .next (if s.phase = .error then s else
      { s with errCode := .illegal, errPhase := s.phase, errCmd := w, phase := .error })

/-! ## The machine: steps, errors, reset -/

/-- R72: an idle block runs the command its next word decodes to, the word taken off the host's list
and nothing else done around it. The host as a list of moves is the model's (log entry 2), and so is
that idle = 1 alone lets the word transfer at this step: R45 and R46 let a block that is idle hold
cmd_ready at 0, and the model deduces cmd_ready = idle (DEDUCED, log entry 4). -/
def Obligations.StepRunsTheDecodedCommand : Prop :=
  ∀ (s : State) (w : CmdWord) (rest : List HostMove) (i : Instr),
    s.idle = true → s.host = .command w :: rest → decode w = .ok i →
    step s = exec i { s with host := rest }

/-- R72, R119, R121: an idle block raises E_ILLEGAL on an illegal word whatever the phase allows, and
discards the word in ERROR. The host as a list of moves is the model's (log entry 2), and so is that
idle = 1 alone lets the word transfer at this step (cmd_ready = idle: DEDUCED, log entry 4). -/
def Obligations.IllegalWordRaisesIllegal : Prop :=
  ∀ (s : State) (w : CmdWord) (rest : List HostMove) (r : IllegalReason),
    s.idle = true → s.host = .command w :: rest → decode w = .error r →
    step s = .next (if s.phase = .error then { s with host := rest } else
      { s with host := rest, errCode := .illegal, errPhase := s.phase, errCmd := w, phase := .error })

/-- R7, R133: `Step` is total: every step of every state, reachable or not, gives a next state, and
with no host move the block holds its state. -/
def Obligations.EveryStepGivesANextState : Prop :=
  ∀ s : State, (∃ t, step s = .next t) ∧ (s.host = [] → step s = .next s)

/-- R71: the legality table, E_SEQUENCE where it says "no", and in ERROR every command but CLEAR
discarded. -/
def Obligations.OutOfPhaseCommandRaisesSequence : Prop :=
  ∀ (i : Instr) (s : State),
    (s.phase ≠ .error →
      (legal i s.phase s.src = true ↔
        match i with
        | .nop => True
        | .clear => True
        | .count _ => s.phase = .collect ∧ s.src ≠ .text
        | .deserChar _ => s.phase = .collect ∧ s.src ≠ .scan
        | .build => s.phase = .collect
        | .encodeByte _ => s.phase = .ready ∨ s.phase = .encoding
        | .encEnd => s.phase = .ready ∨ s.phase = .encoding
        | .decBit _ => s.phase = .ready ∨ s.phase = .decoding
        | .decEnd => s.phase = .ready ∨ s.phase = .decoding
        | .serialize => True) ∧
      (legal i s.phase s.src = false →
        exec i s = .next { s with errCode := .sequence, errPhase := s.phase, errCmd := encode i
                                  phase := .error })) ∧
    (s.phase = .error → i ≠ .clear → exec i s = .next s)

/-- R119, R49: a command that raises an error changes PHASE and the three error fields and nothing else,
in particular it emits nothing; and with rst_n = 1 the err pin is 0 before it and 1 after it. -/
def Obligations.ErrorEntryChangesNothingElse : Prop :=
  ∀ (i : Instr) (s t : State), s.phase ≠ .error → exec i s = .next t → t.phase = .error →
    t = { s with errCode := t.errCode, errPhase := s.phase, errCmd := encode i, phase := .error } ∧
    t.errCode ≠ .none ∧
    (s.inReset = false → s.err = false ∧ t.err = true)

/-- R118: each error is raised only by the commands the table names. No command raises E_ILLEGAL: a
word that is no command does. -/
def Obligations.EachErrorHasItsCommands : Prop :=
  ∀ (i : Instr) (s t : State), s.phase ≠ .error → exec i s = .next t → t.phase = .error →
    match t.errCode with
    | .none => False
    | .illegal => False
    | .sequence => i ≠ .nop ∧ i ≠ .clear ∧ i ≠ .serialize
    | .countOverflow => (∃ b, i = .count b) ∨ ∃ c, i = .deserChar c
    | .malformed => (∃ c, i = .deserChar c) ∨ i = .build
    | .duplicate => ∃ c, i = .deserChar c
    | .noCode => ∃ b, i = .encodeByte b
    | .encOverrun => ∃ b, i = .encodeByte b
    | .encUnderrun => i = .encEnd
    | .badCode => i = .decBit true
    | .truncated => i = .decEnd
    | .trailing => ∃ v, i = .decBit v

/-- R121: in ERROR, 0x0100 is CLEAR and every other word, legal or not, is discarded with no effect
and no output. -/
def Obligations.ErrorPhaseDiscardsAllButClear : Prop :=
  ∀ (s : State) (w : CmdWord), s.phase = .error →
    (w ≠ 0x0100 → executeWord w s = .next s) ∧
    (w = 0x0100 → executeWord w s = exec .clear s ∧
      ∃ t, executeWord w s = .next t ∧ t.toBlock = Block.reset)

/-- R122: ERROR is left only by the word 0x0100 or by a reset edge, and both leave the reset values.
(The host as a list of moves is the model's, log entry 2.) -/
def Obligations.ErrorLeftOnlyByClearOrReset : Prop :=
  ∀ s t : State, step s = .next t → s.phase = .error → t.phase ≠ .error →
    t.toBlock = Block.reset ∧
    ∃ rest, s.host = .command 0x0100 :: rest ∨ s.host = .resetLow :: rest

/-- R117: CLEAR, in every phase: all fields to their reset values, nothing transferred or offered
retracted, nothing emitted. (`jobMark` is the model's own, log entry 8, and left open here.) -/
def Obligations.ClearGivesTheResetState : Prop :=
  ∀ s : State, ∃ t, exec .clear s = .next t ∧ t.toBlock = Block.reset ∧
    t = { s with toBlock := t.toBlock, jobMark := t.jobMark }

/-- R136: a clock edge with rst_n = 0 in any state: every field to its reset value, the outputs not
yet transferred dropped, those transferred kept, the pins idle, err and the valids 0; and with
rst_n = 1 again the block is idle in COLLECT. (The host as a list of moves is the model's, log
entries 1 and 2.) -/
def Obligations.ResetEdgeResetsAndDropsOutputs : Prop :=
  ∀ (s : State) (rest : List HostMove), s.host = .resetLow :: rest →
    ∃ t, step s = .next t ∧ t.toBlock = Block.reset ∧ t.offered = [] ∧
      t.bitOut = s.bitOut ∧ t.symOut = s.symOut ∧ t.txtOut = s.txtOut ∧ t.reads = s.reads ∧
      t.cmdReady = false ∧ t.idle = false ∧ t.err = false ∧ (∀ p, t.valid p = false) ∧ t.host = rest ∧
      ∀ more, rest = .resetHigh :: more → ∃ u, step t = .next u ∧ u.idle = true ∧ u.cmdReady = true ∧
        u.phase = .collect ∧ u.toBlock = Block.reset

/-- R42: every field's value after reset and after CLEAR, and that every register but ID then reads 0. -/
def Obligations.ResetRegistersReadZero : Prop :=
  ∀ s t : State, s = State.reset ∨ exec .clear t = .next s →
    (s.phase = .collect ∧ s.src = .empty ∧ s.built = false ∧
      s.errCode = .none ∧ s.errPhase = .collect ∧ s.errCmd = 0 ∧
      (∀ v, s.cnt.read v = 0) ∧ (∀ i, s.orderAt i = 0) ∧ s.nsym = 0 ∧ s.total = 0 ∧
      s.pstate = .symDigit 0 ∧ s.psym = 0 ∧ s.pcnt = 0 ∧
      (∀ i, s.nodeAt i = { valid := false, leaf := false, sym := 0, freq := 0, left := 0, right := 0 }) ∧
      s.nnodes = 0 ∧ s.root = 0 ∧ (∀ v, s.len.read v = 0 ∧ s.code.read v = 0) ∧
      s.encCnt = 0 ∧ s.bitCnt = 0 ∧ s.cur = 0 ∧ s.depth = 0 ∧ s.decCnt = 0 ∧ s.padCnt = 0) ∧
    ∀ a : RegAddr, s.regRead a = if a = 0x0000 then 0x48554646 else 0

/-- R17, R18, R71: how PHASE and SRC change in a step, whatever the host does. -/
def Obligations.PhaseAndSourceChangeOnlySo : Prop :=
  ∀ s t : State, step s = .next t →
    t.toBlock = Block.reset ∨
    ((t.phase = s.phase ∨ (t.phase = .error ∧ s.phase ≠ .error) ∨
        (s.phase = .collect ∧ t.phase = .ready) ∨
        (s.phase = .ready ∧ t.phase = .encoding) ∨ (s.phase = .ready ∧ t.phase = .decoding) ∨
        ((s.phase = .ready ∨ s.phase = .encoding ∨ s.phase = .decoding) ∧ t.phase = .done)) ∧
      (t.src = s.src ∨ (s.src = .empty ∧ s.phase = .collect ∧ t.phase = .collect)) ∧
      (t.built = s.built ∨ (t.built = true ∧ t.phase = .ready)))

/-! ## Registers -/

/-- R34 to R37: the fields of ID, STATUS, ERROR, TREE, WALK and PARSE, bit by bit; and the numbers that
PHASE, SRC, ERRCODE and PSTATE read as (R17, R18, R118, R25). -/
def Obligations.PackedRegistersHoldTheirFields : Prop :=
  ∀ b : Block,
    b.regRead 0x0000 = 0x48554646 ∧
    ((b.regRead 0x0001).extractLsb' 0 3 = b.phase.bits ∧ (b.regRead 0x0001).extractLsb' 3 1 = 0 ∧
      (b.regRead 0x0001).extractLsb' 4 2 = b.src.bits ∧ (b.regRead 0x0001).extractLsb' 6 2 = 0 ∧
      (b.regRead 0x0001).getLsbD 8 = b.built ∧ (b.regRead 0x0001).extractLsb' 9 23 = 0) ∧
    ((b.regRead 0x0002).extractLsb' 0 8 = b.errCode.bits ∧
      (b.regRead 0x0002).extractLsb' 8 3 = b.errPhase.bits ∧
      (b.regRead 0x0002).extractLsb' 11 5 = 0 ∧ (b.regRead 0x0002).extractLsb' 16 16 = b.errCmd) ∧
    ((b.regRead 0x000A).extractLsb' 0 9 = b.root ∧ (b.regRead 0x000A).extractLsb' 9 7 = 0 ∧
      (b.regRead 0x000A).extractLsb' 16 9 = b.nnodes ∧ (b.regRead 0x000A).extractLsb' 25 7 = 0) ∧
    ((b.regRead 0x000B).extractLsb' 0 9 = b.cur ∧ (b.regRead 0x000B).extractLsb' 9 7 = 0 ∧
      (b.regRead 0x000B).extractLsb' 16 8 = b.depth ∧ (b.regRead 0x000B).extractLsb' 24 8 = 0) ∧
    ((b.regRead 0x000C).extractLsb' 0 4 = b.pstate.bits ∧ (b.regRead 0x000C).extractLsb' 4 4 = 0 ∧
      (b.regRead 0x000C).extractLsb' 8 8 = b.psym ∧ (b.regRead 0x000C).extractLsb' 16 16 = 0) ∧
    [Phase.collect, .ready, .encoding, .decoding, .done, .error].map Phase.bits = [0, 1, 2, 3, 4, 7] ∧
    [Src.empty, .scan, .text].map Src.bits = [0, 1, 2] ∧
    [ErrCode.none, .illegal, .sequence, .countOverflow, .malformed, .duplicate, .noCode, .encOverrun,
      .encUnderrun, .badCode, .truncated, .trailing].map ErrCode.bits =
      [0x00, 0x01, 0x02, 0x03, 0x04, 0x05, 0x06, 0x07, 0x08, 0x09, 0x0A, 0x0B] ∧
    (∀ k : Fin 8, (ParsePos.symDigit k).bits.toNat = k.val) ∧
    [ParsePos.colon, .firstDigit, .moreDigits].map ParsePos.bits = [8, 9, 10]

/-- R33, R38, R39: the registers of the counters and the tables. -/
def Obligations.CounterAndTableRegistersRead : Prop :=
  ∀ b : Block,
    (b.regRead 0x0003).toNat = b.nsym.toNat ∧ b.regRead 0x0004 = b.total ∧
    b.regRead 0x0005 = b.encCnt ∧ b.regRead 0x0006 = b.decCnt ∧
    (b.regRead 0x0008 ++ b.regRead 0x0007 : BitVec 64) = b.bitCnt ∧
    (b.regRead 0x0009).toNat = b.padCnt.toNat ∧ b.regRead 0x000D = b.pcnt ∧
    (∀ v : Byte, b.regRead (0x0100 + v.setWidth 16) = b.cnt.read v ∧
      (b.regRead (0x0300 + v.setWidth 16)).toNat = (b.len.read v).toNat ∧
      b.regRead (0x0200 + v.setWidth 16) =
        if v.toNat < b.nsym.toNat then 0x80000000 + (b.orderAt v.toNat).setWidth 32 else 0) ∧
    (∀ i : NodeIdx, b.regRead (0x0800 + i.setWidth 16) = (b.nodeAt i.toNat).freq ∧
      b.regRead (0x0A00 + i.setWidth 16) =
        if (b.nodeAt i.toNat).valid = false then 0
        else if (b.nodeAt i.toNat).leaf then 0xC0000000 + (b.nodeAt i.toNat).sym.setWidth 32
        else 0x80000000 + (b.nodeAt i.toNat).right.setWidth 32 * 0x10000 +
          (b.nodeAt i.toNat).left.setWidth 32) ∧
    b.regRead 0x09FF = 0 ∧ b.regRead 0x0BFF = 0

/-- R40: bit `j` of CODE[s][w] is code bit 32w + j below LEN[s], and 0 from there on. -/
def Obligations.CodeRegistersHoldTheCode : Prop :=
  ∀ (b : Block) (v : Byte) (w j : Nat), w < 8 → j < 32 →
    (b.regRead (BitVec.ofNat 16 (0x1000 + 8 * v.toNat + w))).getLsbD j =
      (decide (32 * w + j < (b.len.read v).toNat) && (b.code.read v).getLsbD (32 * w + j))

/-- R41: every address outside the map reads 0. -/
def Obligations.UnmappedAddressesReadZero : Prop :=
  ∀ (b : Block) (a : RegAddr),
    (0x000E ≤ a.toNat ∧ a.toNat ≤ 0x00FF) ∨ (0x0400 ≤ a.toNat ∧ a.toNat ≤ 0x07FF) ∨
      (0x0C00 ≤ a.toNat ∧ a.toNat ≤ 0x0FFF) ∨ (0x1800 ≤ a.toNat ∧ a.toNat ≤ 0xFFFF) →
    b.regRead a = 0

/-- R48, R59: a read while idle = 1 gives `RegRead`, and no read changes a field, a stream or a port.
(What the host has read is the model's own list, log entry 7.) -/
def Obligations.RegisterReadHasNoEffect : Prop :=
  ∀ (s : State) (a : RegAddr) (rest : List HostMove), s.host = .readReg a :: rest →
    ∃ t x, step s = .next t ∧ t.reads = s.reads ++ [(a, x)] ∧
      (s.idle = true → x = s.toBlock.regRead a) ∧
      t = { s with reads := t.reads, draws := t.draws, host := rest }

/-- R8: a register read never feeds `Step`: a machine whose host makes no reads keeps in step with
one whose host makes them. (The host as a list of moves is the model's, log entry 2.) -/
def Obligations.RegisterReadsNeverFeedStep : Prop :=
  ∀ s u t : State, SameButReads s u → step s = .next t →
    SameButReads t u ∨ ∃ v, step u = .next v ∧ SameButReads t v

/-- R7, R8: what a command does to the block and what it emits depend on the block and the command
alone, not on the ports, the streams or the host. -/
def Obligations.CommandDependsOnTheBlockAlone : Prop :=
  ∀ (i : Instr) (s u t : State), s.toBlock = u.toBlock → exec i s = .next t →
    ∃ v out, exec i u = .next v ∧ v.toBlock = t.toBlock ∧
      t.offered = s.offered ++ out ∧ v.offered = u.offered ++ out

/-! ## Ports and streams -/

/-- R45, R47: a stream's ready takes the offered value if it is the next in `Emit` order, and no other.
(A move that finds nothing to take is the model's, log entry 2.) -/
def Obligations.TakeTransfersTheNextValue : Prop :=
  ∀ (s : State) (p : Stream) (o : Output) (more : List Output) (rest : List HostMove),
    s.inReset = false → s.offered = o :: more → s.host = .take p :: rest →
    step s = .next (if o.stream = p then
        { s with host := rest, offered := more, bitOut := s.bitOut ++ bitsOf [o]
                 symOut := s.symOut ++ symsOf [o], txtOut := s.txtOut ++ txtsOf [o] }
      else { s with host := rest })

/-- R46, R47: a host that takes every value ends the command, with all of it transferred in order and
no value left on any port. -/
def Obligations.DrainingEndsTheCommand : Prop :=
  ∀ (s : State) (rest : List HostMove),
    s.inReset = false → s.host = takesOf s.offered ++ rest →
    ∃ t, Host.Core.run core s.offered.length s = .next t ∧ t.idle = true ∧ (∀ p, t.valid p = false) ∧
      t = { s with offered := [], host := rest, bitOut := s.bitOut ++ bitsOf s.offered
                   symOut := s.symOut ++ symsOf s.offered, txtOut := s.txtOut ++ txtsOf s.offered }

/-- R144, R45, R47: until the offered value is taken, or the block is reset, nothing the host does ends
the command or begins another; and the value stays on its port, valid = 1 there and 0 on the other two
streams, before the step and after it. -/
def Obligations.UndrainedBlockAcceptsNothing : Prop :=
  ∀ (s t : State) (o : Output) (more : List Output),
    s.inReset = false → s.offered = o :: more →
    (∀ rest, s.host ≠ .take o.stream :: rest) → (∀ rest, s.host ≠ .resetLow :: rest) →
    step s = .next t →
    t.toBlock = s.toBlock ∧ t.offered = s.offered ∧ t.bitOut = s.bitOut ∧ t.symOut = s.symOut ∧
      t.txtOut = s.txtOut ∧ t.inReset = false ∧ t.idle = false ∧ t.cmdReady = false ∧
      (∀ p, s.valid p = true ↔ p = o.stream) ∧ (∀ p, t.valid p = true ↔ p = o.stream) ∧
      s.offeredValue = some o ∧ t.offeredValue = some o

/-- R43: the streams' histories only grow, whatever the host does, reset and CLEAR among it. -/
def Obligations.StreamsAreAppendOnly : Prop :=
  ∀ s t : State, step s = .next t →
    s.bitOut <+: t.bitOut ∧ s.symOut <+: t.symOut ∧ s.txtOut <+: t.txtOut

/-- R43: only ENCODE writes BIT_OUT, only DEC_BIT writes SYM_OUT, and only SERIALIZE writes TXT_OUT. -/
def Obligations.EachStreamHasOneWriter : Prop :=
  ∀ (i : Instr) (s t : State), exec i s = .next t →
    (t.emittedBits ≠ s.emittedBits → ∃ b, i = .encodeByte b) ∧
    (t.emittedSyms ≠ s.emittedSyms → ∃ v, i = .decBit v) ∧
    (t.emittedTxts ≠ s.emittedTxts → i = .serialize)

/-! ## Control and the frequency table -/

/-- R116: NOP changes nothing, in any phase. -/
def Obligations.NopChangesNothing : Prop := ∀ s : State, exec .nop s = .next s

/-- R76: COUNT adds one to CNT[b] and TOTAL, sets SRC, appends b to ORDER when it is new, and changes
nothing else; when TOTAL = 2^32 - 1 it raises E_COUNT_OVERFLOW, and out of phase E_SEQUENCE. -/
def Obligations.CountAddsOneOccurrence : Prop :=
  ∀ (s : State) (b : Byte), s.phase ≠ .error →
    (s.phase = .collect ∧ s.src ≠ .text → s.total.toNat < 2 ^ 32 - 1 →
      ∃ t, exec (.count b) s = .next t ∧
        (∀ v, t.cnt.read v = if v = b then s.cnt.read b + 1 else s.cnt.read v) ∧
        t.total.toNat = s.total.toNat + 1 ∧ t.src = .scan ∧
        t.nsym = (if s.cnt.read b = 0 then s.nsym + 1 else s.nsym) ∧
        (∀ i, i < 256 → t.orderAt i =
          if s.cnt.read b = 0 ∧ i = s.nsym.toNat then b else s.orderAt i) ∧
        t = { s with cnt := t.cnt, total := t.total, src := t.src, nsym := t.nsym
                     order := t.order }) ∧
    (s.phase = .collect ∧ s.src ≠ .text → s.total.toNat = 2 ^ 32 - 1 →
      exec (.count b) s = .next { s with errCode := .countOverflow, errPhase := s.phase
                                         errCmd := 0x1000 + b.setWidth 16, phase := .error }) ∧
    (¬ (s.phase = .collect ∧ s.src ≠ .text) →
      exec (.count b) s = .next { s with errCode := .sequence, errPhase := s.phase
                                         errCmd := 0x1000 + b.setWidth 16, phase := .error })

/-- R75, R77: counting an input gives exactly its distinct symbols in first-occurrence order, each
with its exact count. (`execAll` presumes a host that drains: R144, log entry 19.) -/
def Obligations.CountingGivesTheInputsTable : Prop :=
  ∀ (s : State) (input : List Byte), s.toBlock = Block.reset → input.length ≤ Config.cntMax →
    ∃ t, execAll (countsOf input) s = .next t ∧ t.entries = tableOf input ∧
      t.total.toNat = input.length ∧ (∀ v, (t.cnt.read v).toNat = input.count v) ∧
      t.phase = .collect ∧ t.offered = s.offered

/-! ## BUILD -/

/-- R81, R82: BUILD with no record partly read completes and sets the counters, the walk, BUILT and
PHASE, and nothing else but the tree and the code table; inside a record it raises E_MALFORMED. -/
def Obligations.BuildCompletesOrIsMalformed : Prop :=
  ∀ s : State, s.phase = .collect →
    (s.pstate = .symDigit 0 →
      ∃ t, exec .build s = .next t ∧
        t = { s with node := t.node, nnodes := t.nnodes, root := t.root, len := t.len, code := t.code
                     encCnt := 0, bitCnt := 0, decCnt := 0, padCnt := 0, cur := t.root, depth := 0
                     built := true, phase := .ready }) ∧
    (s.pstate ≠ .symDigit 0 →
      exec .build s = .next { s with errCode := .malformed, errPhase := .collect, errCmd := 0x2000
                                     phase := .error })

/-- R84: on every nonempty live set ExtractMin returns the least node under (FREQ, index), and removes
it. -/
def Obligations.ExtractMinTakesTheLeast : Prop :=
  ∀ (nodes : List Node) (live : List Nat), live ≠ [] →
    ∃ m rest, extractMin nodes live = some (m, rest) ∧
    m ∈ live ∧ rest = live.erase m ∧
    ∀ i, i ∈ live → i ≠ m →
      (freqAt nodes m).toNat < (freqAt nodes i).toNat ∨
        ((freqAt nodes m).toNat = (freqAt nodes i).toNat ∧ m < i)

/-- R27, R83 to R86: BUILD of a sound table makes a full binary tree over its entries, each internal
node's LEFT and RIGHT the first and second node taken of those waiting when it was created. -/
def Obligations.BuildMakesTheArena : Prop :=
  ∀ s : State, s.phase = .collect → s.pstate = .symDigit 0 → s.TableInv →
    s.node = Block.reset.node →
    ∃ t, exec .build s = .next t ∧ t.ArenaInv

/-- R88: no FREQ overflows: none is above TOTAL, and the root's is TOTAL. -/
def Obligations.BuildFrequenciesAreBoundedByTotal : Prop :=
  ∀ s : State, s.phase = .collect → s.pstate = .symDigit 0 → s.TableInv →
    s.node = Block.reset.node → 1 ≤ s.nsym.toNat →
    ∃ t, exec .build s = .next t ∧ (t.nodeAt t.root.toNat).freq = s.total ∧
      ∀ i, (t.nodeAt i).freq.toNat ≤ s.total.toNat

/-- R29, R89, R92 (a) and (b): BUILD's codes are prefix-free, non-empty exactly for the symbols
present, at most max(1, k - 1) long, and for k ≥ 2 the paths from the root to the symbols' leaves. -/
def Obligations.BuildMakesAPrefixFreeCode : Prop :=
  ∀ s : State, s.phase = .collect → s.pstate = .symDigit 0 → s.TableInv →
    s.node = Block.reset.node → s.len = Block.reset.len → s.code = Block.reset.code →
    ∃ t, exec .build s = .next t ∧ t.CodeInv ∧
      (2 ≤ s.nsym.toNat → ∀ v, 1 ≤ (s.cnt.read v).toNat →
        (t.nodeAt (t.descend t.root (t.codeOf v)).toNat).leaf = true ∧
        (t.nodeAt (t.descend t.root (t.codeOf v)).toNat).sym = v)

/-- R80, R92 (c): BUILD's code has the least weighted path length of all prefix-free codes for the
table. -/
def Obligations.BuildIsOptimal : Prop :=
  ∀ s : State, s.phase = .collect → s.pstate = .symDigit 0 → s.TableInv → 2 ≤ s.nsym.toNat →
    s.node = Block.reset.node → s.len = Block.reset.len → s.code = Block.reset.code →
    ∃ t, exec .build s = .next t ∧
      ∀ other : Byte → BitString,
        (∀ u v, 1 ≤ (s.cnt.read u).toNat → 1 ≤ (s.cnt.read v).toNat → other u <+: other v → u = v) →
        weightedLength s.entries (fun e => (t.len.read e.1).toNat) ≤
          weightedLength s.entries (fun e => (other e.1).length)

/-- R79, R92 (e): what BUILD makes depends on the sequence (ORDER[i], CNT[ORDER[i]]) for i < NSYM and on
nothing else. -/
def Obligations.BuildDependsOnTheEntriesAlone : Prop :=
  ∀ s u : State, s.phase = .collect → u.phase = .collect → s.pstate = .symDigit 0 →
    u.pstate = .symDigit 0 → s.nsym = u.nsym →
    (∀ i, i < s.nsym.toNat → s.orderAt i = u.orderAt i ∧
      s.cnt.read (s.orderAt i) = u.cnt.read (u.orderAt i)) →
    s.node = u.node → s.len = u.len → s.code = u.code →
    ∃ t v, exec .build s = .next t ∧ exec .build u = .next v ∧
      t.node = v.node ∧ t.nnodes = v.nnodes ∧ t.root = v.root ∧ t.len = v.len ∧ t.code = v.code

/-- R87, R91: BUILD of the empty table: no node, no code, and PHASE = READY. -/
def Obligations.BuildOfTheEmptyTable : Prop :=
  ∀ s : State, s.phase = .collect → s.pstate = .symDigit 0 → s.nsym = 0 →
    ∃ t, exec .build s = .next t ∧ t.nnodes = 0 ∧ t.root = 0 ∧ t.node = s.node ∧ t.len = s.len ∧
      t.code = s.code ∧ t.phase = .ready ∧ t.built = true

/-- R87, R90: BUILD of a one-symbol table: one leaf, the root, and the code "0". -/
def Obligations.BuildOfOneSymbol : Prop :=
  ∀ s : State, s.phase = .collect → s.pstate = .symDigit 0 → s.nsym = 1 →
    ∃ t, exec .build s = .next t ∧ t.nnodes = 1 ∧ t.root = 0 ∧
      t.nodeAt 0 = { valid := true, leaf := true, sym := s.orderAt 0
                     freq := s.cnt.read (s.orderAt 0), left := 0, right := 0 } ∧
      (∀ i, 1 ≤ i → t.nodeAt i = s.nodeAt i) ∧
      t.codeOf (s.orderAt 0) = [false] ∧
      (∀ v, v ≠ s.orderAt 0 → t.len.read v = s.len.read v ∧ t.code.read v = s.code.read v) ∧
      t.phase = .ready

/-! ## Encoder -/

/-- R95, R96: ENCODE emits bits 0 to LEN - 1 of the code in that order, counts them and the byte, and
changes nothing else; a byte with no code raises E_NOCODE, and only then a byte past TOTAL
E_ENC_OVERRUN; out of phase it raises E_SEQUENCE. -/
def Obligations.EncodeEmitsTheCode : Prop :=
  ∀ (s : State) (b : Byte), s.phase ≠ .error →
    (s.phase = .ready ∨ s.phase = .encoding → s.len.read b ≠ 0 → s.encCnt.toNat < s.total.toNat →
      ∃ bits : BitString, bits.length = (s.len.read b).toNat ∧
        (∀ j, j < bits.length → bits[j]? = some ((s.code.read b).getLsbD j)) ∧
        exec (.encodeByte b) s = .next
          { s with bitCnt := s.bitCnt + (s.len.read b).setWidth 64, encCnt := s.encCnt + 1
                   phase := .encoding, offered := s.offered ++ bits.map Output.bit }) ∧
    (s.phase = .ready ∨ s.phase = .encoding → s.len.read b = 0 →
      exec (.encodeByte b) s = .next { s with errCode := .noCode, errPhase := s.phase
                                              errCmd := 0x3000 + b.setWidth 16, phase := .error }) ∧
    (s.phase = .ready ∨ s.phase = .encoding → s.len.read b ≠ 0 → s.total.toNat ≤ s.encCnt.toNat →
      exec (.encodeByte b) s = .next { s with errCode := .encOverrun, errPhase := s.phase
                                              errCmd := 0x3000 + b.setWidth 16, phase := .error }) ∧
    (¬ (s.phase = .ready ∨ s.phase = .encoding) →
      exec (.encodeByte b) s = .next { s with errCode := .sequence, errPhase := s.phase
                                              errCmd := 0x3000 + b.setWidth 16, phase := .error })

/-- R97: ENC_END ends the job when ENCCNT = TOTAL, else raises E_ENC_UNDERRUN, and out of phase
E_SEQUENCE. -/
def Obligations.EncEndNeedsEveryByte : Prop :=
  ∀ s : State, s.phase ≠ .error →
    (s.phase = .ready ∨ s.phase = .encoding → s.encCnt = s.total →
      exec .encEnd s = .next { s with phase := .done }) ∧
    (s.phase = .ready ∨ s.phase = .encoding → s.encCnt ≠ s.total →
      exec .encEnd s = .next { s with errCode := .encUnderrun, errPhase := s.phase
                                      errCmd := 0x3100, phase := .error }) ∧
    (¬ (s.phase = .ready ∨ s.phase = .encoding) →
      exec .encEnd s = .next { s with errCode := .sequence, errPhase := s.phase
                                      errCmd := 0x3100, phase := .error })

/-! ## Decoder -/

/-- R104: a bit after the last symbol is counted and not walked; the 8th raises E_TRAILING. -/
def Obligations.TrailingBitsAreCounted : Prop :=
  ∀ (s : State) (v : Bool), s.phase = .ready ∨ s.phase = .decoding → s.decCnt = s.total →
    (s.padCnt.toNat < 7 →
      exec (.decBit v) s = .next { s with padCnt := s.padCnt + 1, phase := .decoding }) ∧
    (7 ≤ s.padCnt.toNat →
      exec (.decBit v) s = .next { s with errCode := .trailing, errPhase := s.phase
                                          errCmd := encode (.decBit v), phase := .error })

/-- R103: in a one-symbol tree a 0 emits the symbol and a 1 raises E_BADCODE at once. -/
def Obligations.OneSymbolTreeDecodesZeroOnly : Prop :=
  ∀ s : State, s.phase = .ready ∨ s.phase = .decoding → s.decCnt ≠ s.total → s.nnodes = 1 →
    exec (.decBit false) s = .next { s with decCnt := s.decCnt + 1, phase := .decoding
                                            offered := s.offered ++ [.sym (s.nodeAt 0).sym] } ∧
    exec (.decBit true) s = .next { s with errCode := .badCode, errPhase := s.phase
                                           errCmd := 0x4001, phase := .error }

/-- R101, R102: in a larger tree a bit goes to a child; a leaf emits its symbol and the walk goes
back to ROOT, an internal node becomes CUR. -/
def Obligations.DecodeBitWalksTheTree : Prop :=
  ∀ (s : State) (v : Bool) (n : NodeIdx), s.phase = .ready ∨ s.phase = .decoding →
    s.decCnt ≠ s.total → s.nnodes ≠ 1 →
    n = (if v = false then (s.nodeAt s.cur.toNat).left else (s.nodeAt s.cur.toNat).right) →
    ((s.nodeAt n.toNat).leaf = true →
      exec (.decBit v) s = .next { s with decCnt := s.decCnt + 1, cur := s.root, depth := 0
                                          phase := .decoding
                                          offered := s.offered ++ [.sym (s.nodeAt n.toNat).sym] }) ∧
    ((s.nodeAt n.toNat).leaf = false →
      exec (.decBit v) s = .next { s with cur := n, depth := s.depth + 1, phase := .decoding })

/-- R105: DEC_END ends the job when DECCNT = TOTAL, else raises E_TRUNCATED, and out of phase
E_SEQUENCE. -/
def Obligations.DecEndNeedsEverySymbol : Prop :=
  ∀ s : State, s.phase ≠ .error →
    (s.phase = .ready ∨ s.phase = .decoding → s.decCnt = s.total →
      exec .decEnd s = .next { s with phase := .done }) ∧
    (s.phase = .ready ∨ s.phase = .decoding → s.decCnt ≠ s.total →
      exec .decEnd s = .next { s with errCode := .truncated, errPhase := s.phase
                                      errCmd := 0x4100, phase := .error }) ∧
    (¬ (s.phase = .ready ∨ s.phase = .decoding) →
      exec .decEnd s = .next { s with errCode := .sequence, errPhase := s.phase
                                      errCmd := 0x4100, phase := .error })

/-! ## Serializer -/

/-- R110, R111: SERIALIZE emits, for each entry in insertion order, eight binary digits, a colon, the
decimal count and a space, and changes nothing else. -/
def Obligations.SerializeEmitsTheSideFile : Prop :=
  ∀ s : State, s.phase ≠ .error →
    exec .serialize s = .next { s with offered := s.offered ++
      ((List.range s.nsym.toNat).flatMap fun i =>
        ([7, 6, 5, 4, 3, 2, 1, 0].map fun j =>
            Output.txt (if (s.orderAt i).getLsbD j then 0x31 else 0x30)) ++
          [Output.txt 0x3A] ++
          ((decimal (s.cnt.read (s.orderAt i))).map fun d => Output.txt (BitVec.ofNat 8 (0x30 + d))) ++
          [Output.txt 0x20]) }

/-- R111: `Decimal(c)` is the shortest decimal of c, most significant digit first, 1 to 10 digits. -/
def Obligations.DecimalIsTheShortest : Prop :=
  ∀ c : Count, c ≠ 0 →
    decimalValue (decimal c) = c.toNat ∧ (∀ d, d ∈ decimal c → d < 10) ∧
    1 ≤ (decimal c).length ∧ (decimal c).length ≤ 10 ∧ (decimal c).head? ≠ some 0

/-- R112: a symbol digit, the colon and the first count digit. -/
def Obligations.ParserReadsSymbolAndColon : Prop :=
  ∀ (s : State) (c : Byte), s.phase = .collect → s.src ≠ .scan →
    (∀ k : Fin 8, s.pstate = .symDigit k → c = 0x30 ∨ c = 0x31 →
      exec (.deserChar c) s = .next
        { s with psym := s.psym <<< 1 ||| (if c = 0x31 then 1 else 0), src := .text
                 pstate := if k.val = 7 then .colon else .symDigit (k + 1) }) ∧
    (s.pstate = .colon → c = 0x3A →
      exec (.deserChar c) s = .next { s with pstate := .firstDigit, src := .text }) ∧
    (s.pstate = .firstDigit → 0x30 ≤ c.toNat → c.toNat ≤ 0x39 →
      exec (.deserChar c) s = .next { s with pcnt := BitVec.ofNat 32 (c.toNat - 0x30)
                                             pstate := .moreDigits, src := .text })

/-- R112: a further count digit, and E_COUNT_OVERFLOW for a count above 2^32 - 1. -/
def Obligations.ParserReadsCountDigits : Prop :=
  ∀ (s : State) (c : Byte), s.phase = .collect → s.src ≠ .scan → s.pstate = .moreDigits →
    0x30 ≤ c.toNat → c.toNat ≤ 0x39 →
    (s.pcnt.toNat * 10 + (c.toNat - 0x30) ≤ 2 ^ 32 - 1 →
      ∃ t, exec (.deserChar c) s = .next t ∧
        t.pcnt.toNat = s.pcnt.toNat * 10 + (c.toNat - 0x30) ∧
        t = { s with pcnt := t.pcnt, src := .text }) ∧
    (2 ^ 32 - 1 < s.pcnt.toNat * 10 + (c.toNat - 0x30) →
      exec (.deserChar c) s = .next { s with errCode := .countOverflow, errPhase := .collect
                                             errCmd := encode (.deserChar c), phase := .error })

/-- R112: a character the grammar does not allow at its place raises E_MALFORMED. -/
def Obligations.ParserRejectsOtherCharacters : Prop :=
  ∀ (s : State) (c : Byte), s.phase = .collect → s.src ≠ .scan →
    (match s.pstate with
      | .symDigit _ => c ≠ 0x30 ∧ c ≠ 0x31
      | .colon => c ≠ 0x3A
      | .firstDigit => ¬ (0x30 ≤ c.toNat ∧ c.toNat ≤ 0x39)
      | .moreDigits => ¬ (0x30 ≤ c.toNat ∧ c.toNat ≤ 0x39) ∧ c ≠ 0x20) →
    exec (.deserChar c) s = .next { s with errCode := .malformed, errPhase := .collect
                                           errCmd := encode (.deserChar c), phase := .error }

/-- R113: the record-ending space enters the record, after its three checks in their order. -/
def Obligations.SpaceCommitsTheRecord : Prop :=
  ∀ s : State, s.phase = .collect → s.src ≠ .scan → s.pstate = .moreDigits →
    (s.pcnt = 0 →
      exec (.deserChar 0x20) s = .next { s with errCode := .malformed, errPhase := .collect
                                                errCmd := 0x5120, phase := .error }) ∧
    (s.pcnt ≠ 0 → s.cnt.read s.psym ≠ 0 →
      exec (.deserChar 0x20) s = .next { s with errCode := .duplicate, errPhase := .collect
                                                errCmd := 0x5120, phase := .error }) ∧
    (s.pcnt ≠ 0 → s.cnt.read s.psym = 0 → 2 ^ 32 - 1 < s.total.toNat + s.pcnt.toNat →
      exec (.deserChar 0x20) s = .next { s with errCode := .countOverflow, errPhase := .collect
                                                errCmd := 0x5120, phase := .error }) ∧
    (s.pcnt ≠ 0 → s.cnt.read s.psym = 0 → s.total.toNat + s.pcnt.toNat ≤ 2 ^ 32 - 1 →
      ∃ t, exec (.deserChar 0x20) s = .next t ∧
        (∀ v, t.cnt.read v = if v = s.psym then s.pcnt else s.cnt.read v) ∧
        (∀ i, i < 256 → t.orderAt i = if i = s.nsym.toNat then s.psym else s.orderAt i) ∧
        t.nsym = s.nsym + 1 ∧ t.total.toNat = s.total.toNat + s.pcnt.toNat ∧
        t = { s with cnt := t.cnt, order := t.order, nsym := t.nsym, total := t.total
                     pstate := .symDigit 0, psym := 0, pcnt := 0, src := .text })

/-- R115: the text SERIALIZE emits, read from the reset state, gives the same table back. (For the
empty table the text is empty, no DESER_CHAR runs and SRC stays EMPTY by R18. `execAll` presumes a host
that drains: R144, log entry 19.) -/
def Obligations.SideFileRoundTrip : Prop :=
  ∀ s u : State, s.TableInv → u.toBlock = Block.reset →
    ∃ t, execAll (deserOf (sideFile s.entries)) u = .next t ∧
      t.nsym = s.nsym ∧ t.order = s.order ∧ t.cnt = s.cnt ∧ t.total = s.total ∧
      t.pstate = .symDigit 0 ∧ t.phase = .collect ∧
      t.src = (if s.nsym = 0 then .empty else .text) ∧ sideFile t.entries = sideFile s.entries

/-! ## Whole jobs -/

/-- R99, R106: the empty input encodes to nothing, and the empty files decode to nothing, each job
ending in DONE. (Premise, stated as R144 asks: the host takes every value offered before it presents the
next word. `execAll` presumes it, log entry 19.) -/
def Obligations.EmptyJobsSucceed : Prop :=
  ∀ s : State,
    (∃ t, execAll [.clear, .build, .serialize, .encEnd] s = .next t ∧ t.phase = .done ∧
      t.emittedBits = s.emittedBits ∧ t.emittedTxts = s.emittedTxts) ∧
    (∃ t, execAll [.clear, .build, .decEnd] s = .next t ∧ t.phase = .done ∧
      t.emittedSyms = s.emittedSyms) ∧
    ∀ v : Bool, ∃ t u, execAll [.clear, .build] s = .next t ∧ exec (.decBit v) t = .next u ∧
      u = { t with padCnt := t.padCnt + 1, phase := .decoding }

/-- R107: whatever the input of at most CNT_MAX bytes (R76 counts no more), the encode job ends in DONE
having emitted a side file T and bits E, and the decode job over T and E, with up to 7 further bits of
any value, ends in DONE having emitted the input. (Premise, stated as R144 asks: the host takes every
value offered before it presents the next word. `execAll` presumes it, log entry 19; a host that does not
drain stalls the block, `UndrainedBlockAcceptsNothing`.) -/
def Obligations.JobsRoundTrip : Prop :=
  ∀ (s u : State) (input : List Byte) (pad : BitString),
    input.length ≤ Config.cntMax → pad.length ≤ 7 →
    ∃ (t v : State) (T : List Byte) (E : BitString),
      execAll (encodeJob input) s = .next t ∧ t.phase = .done ∧
      t.emittedTxts = s.emittedTxts ++ T ∧ t.emittedBits = s.emittedBits ++ E ∧
      execAll (decodeJob T (E ++ pad)) u = .next v ∧ v.phase = .done ∧
      v.emittedSyms = u.emittedSyms ++ input

/-! ## Invariants -/

/-- The reset state meets every invariant. -/
def Obligations.ResetMeetsTheInvariants : Prop :=
  State.reset.toBlock.Inv ∧ State.reset.AccountInv

/-- R24: every step keeps the frequency table's invariants. -/
def Obligations.StepKeepsTheTable : Prop :=
  ∀ s t : State, s.TableInv → step s = .next t → t.TableInv

/-- R17 to R20, R25: every step keeps what phases, error fields and parser say of one another. -/
def Obligations.StepKeepsControl : Prop :=
  ∀ s t : State, s.ControlInv → step s = .next t → t.ControlInv

/-- R30, R31, R98: every step keeps the counters' bounds and their account of the job's output.
(Where the job's output begins is the model's `jobMark`, log entry 8.) -/
def Obligations.StepKeepsTheAccount : Prop :=
  ∀ s t : State, s.AccountInv → step s = .next t → t.AccountInv

/-- R27, R29, R31, R102: every step keeps the whole invariant, the tree, the code table and the walk
with it. -/
def Obligations.StepKeepsTheInvariant : Prop :=
  ∀ s t : State, s.toBlock.Inv → step s = .next t → t.toBlock.Inv

/-- R27, R29: while BUILT = 1 the arena and the code table have the properties the rules list, and
while BUILT = 0 every node, LEN and CODE holds its reset value. -/
def Obligations.BuiltStateHasTreeAndCode : Prop :=
  ∀ s : State, s.toBlock.Inv →
    (s.built = true → s.ArenaInv ∧ s.CodeInv) ∧
    (s.built = false → (∀ i, s.nodeAt i = Node.zero) ∧ ∀ v, s.len.read v = 0 ∧ s.code.read v = 0)

end
end

