-- ==== Sys2Proof/Laws/State.lean ====
section
/-! SUPPORT. One lemma per field for each named update of the state, true by `rfl`, so that no proof
unfolds a record update. -/

namespace Sys2Proof.Machine

section
variable (s : State) (code : ErrCode) (w : CmdWord) (b : Block) (out rest : List Output) (v : Bool)
  (x : Byte) (a : RegAddr)

/-! ### The error entry (R119) -/

@[simp] theorem errorEntry_phase : (s.errorEntry code w).phase = .error := rfl
@[simp] theorem errorEntry_errCode : (s.errorEntry code w).errCode = code := rfl
@[simp] theorem errorEntry_errPhase : (s.errorEntry code w).errPhase = s.phase := rfl
@[simp] theorem errorEntry_errCmd : (s.errorEntry code w).errCmd = w := rfl
@[simp] theorem errorEntry_src : (s.errorEntry code w).src = s.src := rfl
@[simp] theorem errorEntry_built : (s.errorEntry code w).built = s.built := rfl
@[simp] theorem errorEntry_cnt : (s.errorEntry code w).cnt = s.cnt := rfl
@[simp] theorem errorEntry_order : (s.errorEntry code w).order = s.order := rfl
@[simp] theorem errorEntry_nsym : (s.errorEntry code w).nsym = s.nsym := rfl
@[simp] theorem errorEntry_total : (s.errorEntry code w).total = s.total := rfl
@[simp] theorem errorEntry_pstate : (s.errorEntry code w).pstate = s.pstate := rfl
@[simp] theorem errorEntry_psym : (s.errorEntry code w).psym = s.psym := rfl
@[simp] theorem errorEntry_pcnt : (s.errorEntry code w).pcnt = s.pcnt := rfl
@[simp] theorem errorEntry_node : (s.errorEntry code w).node = s.node := rfl
@[simp] theorem errorEntry_nnodes : (s.errorEntry code w).nnodes = s.nnodes := rfl
@[simp] theorem errorEntry_root : (s.errorEntry code w).root = s.root := rfl
@[simp] theorem errorEntry_len : (s.errorEntry code w).len = s.len := rfl
@[simp] theorem errorEntry_code : (s.errorEntry code w).code = s.code := rfl
@[simp] theorem errorEntry_encCnt : (s.errorEntry code w).encCnt = s.encCnt := rfl
@[simp] theorem errorEntry_bitCnt : (s.errorEntry code w).bitCnt = s.bitCnt := rfl
@[simp] theorem errorEntry_cur : (s.errorEntry code w).cur = s.cur := rfl
@[simp] theorem errorEntry_depth : (s.errorEntry code w).depth = s.depth := rfl
@[simp] theorem errorEntry_decCnt : (s.errorEntry code w).decCnt = s.decCnt := rfl
@[simp] theorem errorEntry_padCnt : (s.errorEntry code w).padCnt = s.padCnt := rfl
@[simp] theorem errorEntry_inReset : (s.errorEntry code w).inReset = s.inReset := rfl
@[simp] theorem errorEntry_offered : (s.errorEntry code w).offered = s.offered := rfl
@[simp] theorem errorEntry_bitOut : (s.errorEntry code w).bitOut = s.bitOut := rfl
@[simp] theorem errorEntry_symOut : (s.errorEntry code w).symOut = s.symOut := rfl
@[simp] theorem errorEntry_txtOut : (s.errorEntry code w).txtOut = s.txtOut := rfl
@[simp] theorem errorEntry_jobMark : (s.errorEntry code w).jobMark = s.jobMark := rfl
@[simp] theorem errorEntry_reads : (s.errorEntry code w).reads = s.reads := rfl
@[simp] theorem errorEntry_draws : (s.errorEntry code w).draws = s.draws := rfl
@[simp] theorem errorEntry_host : (s.errorEntry code w).host = s.host := rfl
@[simp] theorem errorEntry_emittedBits : (s.errorEntry code w).emittedBits = s.emittedBits := rfl
@[simp] theorem errorEntry_emittedSyms : (s.errorEntry code w).emittedSyms = s.emittedSyms := rfl
@[simp] theorem errorEntry_emittedTxts : (s.errorEntry code w).emittedTxts = s.emittedTxts := rfl

/-! ### A command that completes (R12) -/

@[simp] theorem complete_toBlock : (s.complete b out).toBlock = b := rfl
@[simp] theorem complete_offered : (s.complete b out).offered = s.offered ++ out := rfl
@[simp] theorem complete_inReset : (s.complete b out).inReset = s.inReset := rfl
@[simp] theorem complete_bitOut : (s.complete b out).bitOut = s.bitOut := rfl
@[simp] theorem complete_symOut : (s.complete b out).symOut = s.symOut := rfl
@[simp] theorem complete_txtOut : (s.complete b out).txtOut = s.txtOut := rfl
@[simp] theorem complete_jobMark : (s.complete b out).jobMark = s.jobMark := rfl
@[simp] theorem complete_reads : (s.complete b out).reads = s.reads := rfl
@[simp] theorem complete_draws : (s.complete b out).draws = s.draws := rfl
@[simp] theorem complete_host : (s.complete b out).host = s.host := rfl

/-! ### CLEAR (R117) -/

@[simp] theorem clear_toBlock : s.clear.toBlock = Block.reset := rfl
@[simp] theorem clear_jobMark : s.clear.jobMark = s.markNow := rfl
@[simp] theorem clear_inReset : s.clear.inReset = s.inReset := rfl
@[simp] theorem clear_offered : s.clear.offered = s.offered := rfl
@[simp] theorem clear_bitOut : s.clear.bitOut = s.bitOut := rfl
@[simp] theorem clear_symOut : s.clear.symOut = s.symOut := rfl
@[simp] theorem clear_txtOut : s.clear.txtOut = s.txtOut := rfl
@[simp] theorem clear_reads : s.clear.reads = s.reads := rfl
@[simp] theorem clear_draws : s.clear.draws = s.draws := rfl
@[simp] theorem clear_host : s.clear.host = s.host := rfl
@[simp] theorem clear_emittedBits : s.clear.emittedBits = s.emittedBits := rfl
@[simp] theorem clear_emittedSyms : s.clear.emittedSyms = s.emittedSyms := rfl
@[simp] theorem clear_emittedTxts : s.clear.emittedTxts = s.emittedTxts := rfl

/-! ### The reset edge (R136) -/

@[simp] theorem resetEdge_toBlock : s.resetEdge.toBlock = Block.reset := rfl
@[simp] theorem resetEdge_inReset : s.resetEdge.inReset = true := rfl
@[simp] theorem resetEdge_offered : s.resetEdge.offered = [] := rfl
@[simp] theorem resetEdge_bitOut : s.resetEdge.bitOut = s.bitOut := rfl
@[simp] theorem resetEdge_symOut : s.resetEdge.symOut = s.symOut := rfl
@[simp] theorem resetEdge_txtOut : s.resetEdge.txtOut = s.txtOut := rfl
@[simp] theorem resetEdge_reads : s.resetEdge.reads = s.reads := rfl
@[simp] theorem resetEdge_draws : s.resetEdge.draws = s.draws := rfl
@[simp] theorem resetEdge_host : s.resetEdge.host = s.host := rfl

/-! ### A transfer (R45), a register read (R48) -/

@[simp] theorem transfer_toBlock (o : Output) : (s.transfer o rest).toBlock = s.toBlock := by
  cases o <;> rfl
@[simp] theorem transfer_offered (o : Output) : (s.transfer o rest).offered = rest := by
  cases o <;> rfl
@[simp] theorem transfer_inReset (o : Output) : (s.transfer o rest).inReset = s.inReset := by
  cases o <;> rfl
@[simp] theorem transfer_jobMark (o : Output) : (s.transfer o rest).jobMark = s.jobMark := by
  cases o <;> rfl
@[simp] theorem transfer_host (o : Output) : (s.transfer o rest).host = s.host := by
  cases o <;> rfl
@[simp] theorem transfer_reads (o : Output) : (s.transfer o rest).reads = s.reads := by
  cases o <;> rfl
@[simp] theorem transfer_draws (o : Output) : (s.transfer o rest).draws = s.draws := by
  cases o <;> rfl
@[simp] theorem transfer_bitOut (o : Output) : (s.transfer o rest).bitOut = s.bitOut ++ bitsOf [o] := by
  cases o <;> simp [State.transfer, bitsOf]
@[simp] theorem transfer_symOut (o : Output) : (s.transfer o rest).symOut = s.symOut ++ symsOf [o] := by
  cases o <;> simp [State.transfer, symsOf]
@[simp] theorem transfer_txtOut (o : Output) : (s.transfer o rest).txtOut = s.txtOut ++ txtsOf [o] := by
  cases o <;> simp [State.transfer, txtsOf]

@[simp] theorem recordRead_toBlock : (s.recordRead a).toBlock = s.toBlock := rfl
@[simp] theorem recordRead_inReset : (s.recordRead a).inReset = s.inReset := rfl
@[simp] theorem recordRead_offered : (s.recordRead a).offered = s.offered := rfl
@[simp] theorem recordRead_bitOut : (s.recordRead a).bitOut = s.bitOut := rfl
@[simp] theorem recordRead_symOut : (s.recordRead a).symOut = s.symOut := rfl
@[simp] theorem recordRead_txtOut : (s.recordRead a).txtOut = s.txtOut := rfl
@[simp] theorem recordRead_jobMark : (s.recordRead a).jobMark = s.jobMark := rfl
@[simp] theorem recordRead_host : (s.recordRead a).host = s.host := rfl

/-! ### Emitted values -/

@[simp] theorem bitsOf_nil : bitsOf [] = [] := rfl
@[simp] theorem symsOf_nil : symsOf [] = [] := rfl
@[simp] theorem txtsOf_nil : txtsOf [] = [] := rfl
@[simp] theorem bitsOf_append (l m : List Output) : bitsOf (l ++ m) = bitsOf l ++ bitsOf m := by
  simp [bitsOf]
@[simp] theorem symsOf_append (l m : List Output) : symsOf (l ++ m) = symsOf l ++ symsOf m := by
  simp [symsOf]
@[simp] theorem txtsOf_append (l m : List Output) : txtsOf (l ++ m) = txtsOf l ++ txtsOf m := by
  simp [txtsOf]
@[simp] theorem bitsOf_bits (l : BitString) : bitsOf (l.map Output.bit) = l := by
  induction l <;> simp_all [bitsOf]
@[simp] theorem symsOf_bits (l : BitString) : symsOf (l.map Output.bit) = [] := by
  induction l <;> simp_all [symsOf]
@[simp] theorem txtsOf_bits (l : BitString) : txtsOf (l.map Output.bit) = [] := by
  induction l <;> simp_all [txtsOf]
@[simp] theorem bitsOf_txts (l : List Byte) : bitsOf (l.map Output.txt) = [] := by
  induction l <;> simp_all [bitsOf]
@[simp] theorem symsOf_txts (l : List Byte) : symsOf (l.map Output.txt) = [] := by
  induction l <;> simp_all [symsOf]
@[simp] theorem txtsOf_txts (l : List Byte) : txtsOf (l.map Output.txt) = l := by
  induction l <;> simp_all [txtsOf]
@[simp] theorem bitsOf_sym : bitsOf [Output.sym x] = [] := rfl
@[simp] theorem symsOf_sym : symsOf [Output.sym x] = [x] := rfl
@[simp] theorem txtsOf_sym : txtsOf [Output.sym x] = [] := rfl

@[simp] theorem complete_emittedBits :
    (s.complete b out).emittedBits = s.emittedBits ++ bitsOf out := by
  simp [State.emittedBits]
@[simp] theorem complete_emittedSyms :
    (s.complete b out).emittedSyms = s.emittedSyms ++ symsOf out := by
  simp [State.emittedSyms]
@[simp] theorem complete_emittedTxts :
    (s.complete b out).emittedTxts = s.emittedTxts ++ txtsOf out := by
  simp [State.emittedTxts]

/-- A transfer moves a value from the port to the history: what has been emitted is unchanged. -/
theorem transfer_emitted (o : Output) (h : s.offered = o :: rest) :
    (s.transfer o rest).emittedBits = s.emittedBits ∧ (s.transfer o rest).emittedSyms = s.emittedSyms ∧
      (s.transfer o rest).emittedTxts = s.emittedTxts := by
  have hb : bitsOf (o :: rest) = bitsOf [o] ++ bitsOf rest := bitsOf_append [o] rest
  have hs : symsOf (o :: rest) = symsOf [o] ++ symsOf rest := symsOf_append [o] rest
  have ht : txtsOf (o :: rest) = txtsOf [o] ++ txtsOf rest := txtsOf_append [o] rest
  simp [State.emittedBits, State.emittedSyms, State.emittedTxts, h, hb, hs, ht]

end

end Sys2Proof.Machine
end

