-- ==== Sys2Proof/Laws/Commands.lean ====
section
/-! SUPPORT. What a command and a step can do, said once: the inversion lemmas later proofs cite
instead of unfolding `commandRule`, `exec` and `step`. -/

namespace Sys2Proof.Machine

/-! ## Commands -/

/-- The rule of each command but CLEAR, whose effect is `State.clear`. -/
def ruleOf : Instr → Block → RuleResult
  | .nop => nopRule
  | .clear => fun _ => .ok (Block.reset, [])
  | .count b => countRule b
  | .build => buildRule
  | .encodeByte b => encodeRule b
  | .encEnd => encEndRule
  | .decBit v => decBitRule v
  | .decEnd => decEndRule
  | .serialize => serializeRule
  | .deserChar c => deserCharRule c

/-- Every command but CLEAR is the frame of R72 around its rule. -/
theorem exec_eq_commandRule (i : Instr) (s : State) (h : i ≠ .clear) :
    exec i s = commandRule i s (ruleOf i) := by
  cases i <;> first | rfl | exact absurd rfl h

@[simp] theorem exec_clear (s : State) : exec .clear s = .next s.clear := rfl

/-- What `commandRule` can answer: the word is discarded, the command is out of sequence, its rule
raises an error, or it completes. -/
theorem commandRule_cases {i : Instr} {s t : State} {rule : Block → RuleResult}
    (h : commandRule i s rule = .next t) :
    (s.phase = .error ∧ t = s) ∨
    (s.phase ≠ .error ∧ legal i s.phase s.src = false ∧ t = s.errorEntry .sequence (encode i)) ∨
    (s.phase ≠ .error ∧ legal i s.phase s.src = true ∧
      ((∃ code, rule s.toBlock = .error code ∧ t = s.errorEntry code (encode i)) ∨
       ∃ b out, rule s.toBlock = .ok (b, out) ∧ t = s.complete b out)) := by
  unfold commandRule at h
  split at h
  · rename_i hp
    exact .inl ⟨hp, by injection h with h; exact h.symm⟩
  · rename_i hp
    split at h
    · rename_i hl
      exact .inr (.inl ⟨hp, hl, by injection h with h; exact h.symm⟩)
    · rename_i hl
      refine .inr (.inr ⟨hp, by simpa using hl, ?_⟩)
      split at h
      · rename_i code hr
        exact .inl ⟨code, hr, by injection h with h; exact h.symm⟩
      · rename_i b out hr
        exact .inr ⟨b, out, hr, by injection h with h; exact h.symm⟩

/-- `commandRule` always answers a next state (R7). -/
theorem commandRule_next (i : Instr) (s : State) (rule : Block → RuleResult) :
    ∃ t, commandRule i s rule = .next t := by
  unfold commandRule
  split
  · exact ⟨_, rfl⟩
  · split
    · exact ⟨_, rfl⟩
    · split <;> exact ⟨_, rfl⟩

/-- In ERROR a command is discarded (R121). -/
theorem commandRule_error (i : Instr) (s : State) (rule : Block → RuleResult) (h : s.phase = .error) :
    commandRule i s rule = .next s := by simp [commandRule, h]

/-- A command out of phase (R71). -/
theorem commandRule_illegal (i : Instr) (s : State) (rule : Block → RuleResult)
    (h : s.phase ≠ .error) (hl : legal i s.phase s.src = false) :
    commandRule i s rule = .next (s.errorEntry .sequence (encode i)) := by simp [commandRule, h, hl]

/-- A legal command whose rule raises an error (R119). -/
theorem commandRule_raise (i : Instr) (s : State) (rule : Block → RuleResult) (code : ErrCode)
    (h : s.phase ≠ .error) (hl : legal i s.phase s.src = true) (hr : rule s.toBlock = .error code) :
    commandRule i s rule = .next (s.errorEntry code (encode i)) := by simp [commandRule, h, hl, hr]

/-- A legal command whose rule succeeds (R12). -/
theorem commandRule_complete (i : Instr) (s : State) (rule : Block → RuleResult) (b : Block)
    (out : List Output) (h : s.phase ≠ .error) (hl : legal i s.phase s.src = true)
    (hr : rule s.toBlock = .ok (b, out)) :
    commandRule i s rule = .next (s.complete b out) := by simp [commandRule, h, hl, hr]

/-- What a command can do (R72). -/
theorem exec_cases {i : Instr} {s t : State} (h : exec i s = .next t) :
    (i = .clear ∧ t = s.clear) ∨ (s.phase = .error ∧ t = s) ∨
    (s.phase ≠ .error ∧ legal i s.phase s.src = false ∧ t = s.errorEntry .sequence (encode i)) ∨
    (s.phase ≠ .error ∧ legal i s.phase s.src = true ∧
      ((∃ code, ruleOf i s.toBlock = .error code ∧ t = s.errorEntry code (encode i)) ∨
       ∃ b out, ruleOf i s.toBlock = .ok (b, out) ∧ t = s.complete b out)) := by
  by_cases hi : i = .clear
  · subst hi
    refine .inl ⟨rfl, ?_⟩
    rw [exec_clear] at h
    injection h with h
    exact h.symm
  · rw [exec_eq_commandRule i s hi] at h
    exact .inr (commandRule_cases h)

/-- Every command answers a next state in every state (R7). -/
theorem exec_next (i : Instr) (s : State) : ∃ t, exec i s = .next t := by
  by_cases hi : i = .clear
  · exact ⟨_, by rw [hi]; rfl⟩
  · rw [exec_eq_commandRule i s hi]
    exact commandRule_next i s _

/-- A command neither reads nor writes the read history, the draw count and the host's moves (R8). -/
theorem exec_ports {i : Instr} {s t : State} (reads : List (RegAddr × RegWord)) (draws : Nat)
    (host : List HostMove) (h : exec i s = .next t) :
    exec i { s with reads := reads, draws := draws, host := host } =
      .next { t with reads := reads, draws := draws, host := host } ∧ t.host = s.host := by
  by_cases hc : i = .clear
  · subst hc
    injection h with h
    subst h
    exact ⟨rfl, rfl⟩
  · rw [exec_eq_commandRule _ _ hc] at h ⊢
    unfold commandRule at h ⊢
    split at h
    · rename_i hp
      injection h with h
      subst h
      rw [if_pos hp]
      exact ⟨rfl, rfl⟩
    · rename_i hp
      rw [if_neg hp]
      split at h
      · rename_i hl
        injection h with h
        subst h
        rw [if_pos hl]
        exact ⟨rfl, rfl⟩
      · rename_i hl
        rw [if_neg hl]
        simp only
        split at h <;> injection h with h <;> subst h <;> exact ⟨rfl, rfl⟩

/-- Nor does executing a word (R8, R72). -/
theorem executeWord_ports {w : CmdWord} {s t : State} (reads : List (RegAddr × RegWord)) (draws : Nat)
    (host : List HostMove) (h : executeWord w s = .next t) :
    executeWord w { s with reads := reads, draws := draws, host := host } =
      .next { t with reads := reads, draws := draws, host := host } ∧ t.host = s.host := by
  unfold executeWord at h ⊢
  split at h
  · exact exec_ports reads draws host h
  · unfold illegalWord at h ⊢
    split at h
    · rename_i hp
      injection h with h
      subst h
      rw [if_pos hp]
      exact ⟨rfl, rfl⟩
    · rename_i hp
      injection h with h
      subst h
      rw [if_neg hp]
      exact ⟨rfl, rfl⟩

/-! ## Steps -/

/-- What one step can do: hold the state, run a word, move a value to its history, read a register,
or take an edge of rst_n. Every case gives the whole next state. -/
theorem step_cases {s t : State} (h : step s = .next t) :
    (t = s ∧ (s.host = [] ∨ (s.cmdReady = false ∧ ∃ w rest, s.host = .command w :: rest))) ∨
    (∃ w rest, s.host = .command w :: rest ∧ s.cmdReady = true ∧
      executeWord w { s with host := rest } = .next t) ∨
    (∃ p rest, s.host = .take p :: rest ∧ t = ({ s with host := rest } : State).takeFrom p) ∨
    (∃ a rest, s.host = .readReg a :: rest ∧ t = ({ s with host := rest } : State).recordRead a) ∨
    (∃ rest, s.host = .resetLow :: rest ∧ t = ({ s with host := rest } : State).resetEdge) ∨
    (∃ rest, s.host = .resetHigh :: rest ∧ t = { s with host := rest, inReset := false }) := by
  unfold step at h
  split at h
  · rename_i hh
    exact .inl ⟨by injection h with h; exact h.symm, .inl hh⟩
  · rename_i m rest hh
    cases m with
    | command w =>
      simp only [hostMove] at h
      split at h
      · rename_i hr
        exact .inr (.inl ⟨w, rest, hh, hr, h⟩)
      · rename_i hr
        exact .inl ⟨by injection h with h; exact h.symm, .inr ⟨by simpa using hr, w, rest, hh⟩⟩
    | take p => exact .inr (.inr (.inl ⟨p, rest, hh, by injection h with h; exact h.symm⟩))
    | readReg a => exact .inr (.inr (.inr (.inl ⟨a, rest, hh, by injection h with h; exact h.symm⟩)))
    | resetLow => exact .inr (.inr (.inr (.inr (.inl ⟨rest, hh, by injection h with h; exact h.symm⟩))))
    | resetHigh => exact .inr (.inr (.inr (.inr (.inr ⟨rest, hh, by injection h with h; exact h.symm⟩))))

/-- What running a word can do: a decoded command, or an illegal word discarded or raised. -/
theorem executeWord_cases {w : CmdWord} {s t : State} (h : executeWord w s = .next t) :
    (∃ i, decode w = .ok i ∧ exec i s = .next t) ∨
    (∃ r, decode w = .error r ∧
      ((s.phase = .error ∧ t = s) ∨ (s.phase ≠ .error ∧ t = s.errorEntry .illegal w))) := by
  unfold executeWord at h
  split at h
  · rename_i i hd
    exact .inl ⟨i, hd, h⟩
  · rename_i r hd
    refine .inr ⟨r, hd, ?_⟩
    unfold illegalWord at h
    split at h
    · rename_i hp
      exact .inl ⟨hp, by injection h with h; exact h.symm⟩
    · rename_i hp
      exact .inr ⟨hp, by injection h with h; exact h.symm⟩

/-- What taking a value can do: nothing, or the transfer of the first offered value. -/
theorem takeFrom_cases (s : State) (p : Stream) :
    s.takeFrom p = s ∨
    ∃ o rest, s.inReset = false ∧ s.offered = o :: rest ∧ o.stream = p ∧
      s.takeFrom p = s.transfer o rest := by
  unfold State.takeFrom
  split
  · exact .inl rfl
  · rename_i hr
    split
    · exact .inl rfl
    · rename_i o rest ho
      split
      · rename_i hp
        exact .inr ⟨o, rest, by simpa using hr, ho, hp, rfl⟩
      · exact .inl rfl

/-- A property of the block alone that the reset values have and that every command and every error
entry keeps is kept by every step. -/
theorem step_keeps_block {P : Block → Prop} (hreset : P Block.reset)
    (hraise : ∀ (s : State) code w, code ≠ .none → s.phase ≠ .error → P s.toBlock →
      P (s.errorEntry code w).toBlock)
    (hrule : ∀ (i : Instr) (b b' : Block) out, i ≠ .clear → b.phase ≠ .error →
      legal i b.phase b.src = true → ruleOf i b = .ok (b', out) → P b → P b')
    (hcode : ∀ (i : Instr) (b : Block) code, ruleOf i b = .error code → code ≠ .none)
    {s t : State} (h : step s = .next t) (hs : P s.toBlock) : P t.toBlock := by
  rcases step_cases h with ⟨rfl, -⟩ | ⟨w, rest, -, -, hx⟩ | ⟨p, rest, -, rfl⟩ | ⟨a, rest, -, rfl⟩ |
    ⟨rest, -, rfl⟩ | ⟨rest, -, rfl⟩
  · exact hs
  · rcases executeWord_cases hx with ⟨i, -, hi⟩ | ⟨r, -, ⟨-, rfl⟩ | ⟨hp, rfl⟩⟩
    · rcases exec_cases hi with ⟨-, rfl⟩ | ⟨-, rfl⟩ | ⟨hp, -, rfl⟩ | ⟨hp, hl, ⟨code, hr, rfl⟩ | ⟨b, out, hr, rfl⟩⟩
      · exact hreset
      · exact hs
      · exact hraise _ _ _ (by simp) hp hs
      · exact hraise _ _ _ (hcode i _ _ hr) hp hs
      · by_cases hc : i = .clear
        · subst hc
          simp only [ruleOf] at hr
          injection hr with hr
          injection hr with hb _
          subst hb
          exact hreset
        · exact hrule i _ b out hc hp hl hr hs
    · exact hs
    · exact hraise _ _ _ (by simp) hp hs
  · rcases takeFrom_cases ({ s with host := rest } : State) p with he | ⟨o, more, -, -, -, he⟩
    · rw [he]; exact hs
    · rw [he]; simpa using hs
  · exact hs
  · exact hreset
  · exact hs

end Sys2Proof.Machine
end

