-- ==== Sys2Proof/Laws/Tables.lean ====
section
/-! SUPPORT. The tables: read after write, the insertion order, the entries, the overlay BUILD writes,
and that COUNT's and DESER_CHAR's writes keep the invariants of R24. -/

namespace Sys2Proof.Machine

/-! ## Read after write -/

@[simp] theorem read_write {α : Type} (t : SymTable α) (b v : Byte) (x : α) :
    (t.write b x).read v = if v = b then x else t.read v := by
  unfold SymTable.read SymTable.write
  rw [Vector.getElem_set]
  by_cases h : v = b
  · simp [h]
  · have : b.toNat ≠ v.toNat := fun e => h (BitVec.eq_of_toNat_eq e.symm)
    simp [h, this]

@[simp] theorem read_replicate {α : Type} (x : α) (v : Byte) :
    SymTable.read (Vector.replicate 256 x) v = x := by
  simp [SymTable.read]

/-- Two tables that read the same everywhere are the same. -/
theorem SymTable.ext_read {α : Type} {t u : SymTable α} (h : ∀ v, t.read v = u.read v) : t = u := by
  apply Vector.ext
  intro i hi
  have := h (BitVec.ofNat 8 i)
  unfold SymTable.read at this
  simpa [Nat.mod_eq_of_lt hi] using this

@[simp] theorem orderAt_reset (i : Nat) : Block.reset.orderAt i = 0 := by
  simp only [Block.orderAt, Block.reset, Vector.getElem?_replicate]
  split <;> rfl

@[simp] theorem nodeAt_reset (i : Nat) : Block.reset.nodeAt i = Node.zero := by
  simp only [Block.nodeAt, Block.reset, Vector.getElem?_replicate]
  split <;> rfl

/-- ORDER after a symbol is appended. -/
theorem orderAt_appendOrder (b : Block) (v : Byte) (i : Nat) :
    (b.appendOrder v).orderAt i = if i = b.nsym.toNat ∧ i < 256 then v else b.orderAt i := by
  simp only [Block.orderAt, Block.appendOrder, Vector.getElem?_setIfInBounds]
  by_cases h : b.nsym.toNat = i
  · subst h
    by_cases h2 : b.nsym.toNat < 256
    · simp [h2]
    · simp [h2]
  · have : ¬ i = b.nsym.toNat := fun e => h e.symm
    simp [h, this]

@[simp] theorem nsym_appendOrder (b : Block) (v : Byte) : (b.appendOrder v).nsym = b.nsym + 1 := rfl

/-- An overlay reads as the list where the list has an entry. -/
theorem overlay_getElem? {α : Type} {n : Nat} (t : Vector α n) (xs : List α) (i : Nat) (d : α) :
    (overlay t xs)[i]?.getD d = if i < n then xs[i]?.getD (t[i]?.getD d) else d := by
  unfold overlay
  by_cases h : i < n
  · simp [h]
  · simp [h]

/-! ## Entries -/

theorem entries_length (b : Block) : b.entries.length = b.nsym.toNat := by simp [Block.entries]

theorem entries_getElem? (b : Block) (i : Nat) :
    b.entries[i]? = if i < b.nsym.toNat then some (b.orderAt i, b.cnt.read (b.orderAt i)) else none := by
  simp only [Block.entries, List.getElem?_map]
  split
  · rename_i h; simp [h]
  · rename_i h; simp [h]

/-! ## The sum of the counts -/

theorem countSum_reset : Block.reset.countSum = 0 := by
  have h : ∀ n : Nat, ((List.replicate n (0 : Count)).map BitVec.toNat).sum = 0 := by
    intro n
    induction n with
    | zero => rfl
    | succ n ih => simp
  unfold Block.countSum
  rw [show Block.reset.cnt.toList = List.replicate 256 0 from Vector.toList_replicate]
  exact h 256

theorem sum_set_list (l : List Nat) (i : Nat) (x : Nat) (h : i < l.length) :
    (l.set i x).sum + l[i] = l.sum + x := by
  induction l generalizing i with
  | nil => simp at h
  | cons a l ih =>
    cases i with
    | zero => simp; omega
    | succ i =>
      have h' : i < l.length := by simpa using h
      have := ih i h'
      simp only [List.set_cons_succ, List.sum_cons, List.getElem_cons_succ]
      omega

/-- Writing one count changes the sum by the difference. -/
theorem countSum_write (b : Block) (v : Byte) (x : Count) (b' : Block) (h : b'.cnt = b.cnt.write v x) :
    b'.countSum + (b.cnt.read v).toNat = b.countSum + x.toNat := by
  unfold Block.countSum
  rw [h]
  have hl : v.toNat < (b.cnt.toList.map BitVec.toNat).length := by
    have := v.isLt
    simpa using this
  have := sum_set_list (b.cnt.toList.map BitVec.toNat) v.toNat x.toNat hl
  simp only [SymTable.write, SymTable.read, Vector.toList_set, List.map_set]
  simpa using this

/-- Each count is at most the sum. -/
theorem read_le_countSum (b : Block) (v : Byte) : (b.cnt.read v).toNat ≤ b.countSum := by
  unfold Block.countSum SymTable.read
  apply List.le_sum_of_mem
  simp only [List.mem_map, Vector.mem_toList_iff]
  exact ⟨_, by simp, rfl⟩

/-! ## The invariants of R24 -/

theorem tableInv_reset : Block.reset.TableInv where
  distinct := by intro i j hi; exact absurd hi (by simp [Block.reset])
  present := by intro v; simp [Block.reset]
  total_sum := by rw [countSum_reset]; exact ⟨rfl, Nat.zero_le _⟩
  tail := ⟨by simp [Block.reset], by intro i _; simp⟩
  empty_iff := by simp [Block.reset]

/-- The invariants of R24 speak of CNT, ORDER, NSYM and TOTAL only. -/
theorem Block.TableInv.congr {b b' : Block} (h : b.TableInv) (hc : b'.cnt = b.cnt) (ho : b'.order = b.order)
    (hn : b'.nsym = b.nsym) (ht : b'.total = b.total) : b'.TableInv := by
  have hat : ∀ i, b'.orderAt i = b.orderAt i := fun i => by simp [Block.orderAt, ho]
  have hsum : b'.countSum = b.countSum := by simp [Block.countSum, hc]
  constructor
  · intro i j; rw [hn, hat, hat]; exact h.distinct i j
  · intro v; rw [hc, hn]; simpa [hat] using h.present v
  · rw [ht, hsum]; exact h.total_sum
  · rw [hn]; exact ⟨h.tail.1, fun i hi => by rw [hat]; exact h.tail.2 i hi⟩
  · rw [hn, ht]; exact h.empty_iff

/-- An injective numbering of bytes has at most 256 numbers: a sound table that lacks a symbol is not
full. -/
theorem nsym_lt_of_absent {b : Block} (h : b.TableInv) {v : Byte} (hv : b.cnt.read v = 0) :
    b.nsym.toNat < 256 := by
  by_contra hge
  have hn : b.nsym.toNat = 256 := by have := h.tail.1; omega
  let f : Fin 256 → Byte := fun i => b.orderAt i.val
  have hinj : Function.Injective f := by
    intro i j hij
    exact Fin.ext (h.distinct i.val j.val (by have := i.isLt; omega) (by have := j.isLt; omega) hij)
  let g : Fin 256 → Fin 256 := fun i => ⟨(f i).toNat, (f i).isLt⟩
  have ginj : Function.Injective g := by
    intro i j hij
    apply hinj
    apply BitVec.eq_of_toNat_eq
    exact congrArg Fin.val hij
  obtain ⟨i, hi⟩ := (Finite.injective_iff_surjective.mp ginj) ⟨v.toNat, v.isLt⟩
  have hiv : b.orderAt i.val = v := by
    apply BitVec.eq_of_toNat_eq
    exact congrArg Fin.val hi
  have := (h.present v).mpr ⟨i.val, by have := i.isLt; omega, hiv⟩
  simp [hv] at this

/-- Entering a new symbol with a positive count keeps R24 (R76, R113). -/
theorem tableInv_enter {b b' : Block} (h : b.TableInv) (v : Byte) (x : Count)
    (hv : b.cnt.read v = 0) (hx : x ≠ 0) (hsum : b.total.toNat + x.toNat ≤ Config.cntMax)
    (hc : b'.cnt = b.cnt.write v x) (ho : b'.order = (b.appendOrder v).order)
    (hn : b'.nsym = b.nsym + 1) (ht : b'.total = b.total + x) : b'.TableInv := by
  have hlt := nsym_lt_of_absent h hv
  have hx1 : 1 ≤ x.toNat := by
    rcases Nat.eq_zero_or_pos x.toNat with h0 | h0
    · exact absurd (BitVec.eq_of_toNat_eq (by simpa using h0)) hx
    · exact h0
  have hn' : b'.nsym.toNat = b.nsym.toNat + 1 := by
    rw [hn, BitVec.toNat_add]; simp; omega
  have hmax : Config.cntMax = 4294967295 := by decide
  have ht' : b'.total.toNat = b.total.toNat + x.toNat := by
    rw [ht, BitVec.toNat_add]
    rw [hmax] at hsum
    exact Nat.mod_eq_of_lt (by omega)
  have hat : ∀ i, b'.orderAt i = if i = b.nsym.toNat ∧ i < 256 then v else b.orderAt i := by
    intro i
    rw [← orderAt_appendOrder]
    simp only [Block.orderAt]
    rw [ho]
  have hold : ∀ i, i < b.nsym.toNat → b'.orderAt i = b.orderAt i := by
    intro i hi
    rw [hat, if_neg (by omega)]
  have hnew : b'.orderAt b.nsym.toNat = v := by rw [hat, if_pos ⟨rfl, hlt⟩]
  have habs : ∀ i, i < b.nsym.toNat → b.orderAt i ≠ v := by
    intro i hi e
    have := (h.present v).mpr ⟨i, hi, e⟩
    simp [hv] at this
  have hcs : b'.countSum = b.countSum + x.toNat := by
    have := countSum_write b v x b' hc
    simp only [hv] at this
    simpa using this
  constructor
  · intro i j hi hj hij
    rw [hn'] at hi hj
    rcases Nat.lt_succ_iff_lt_or_eq.mp hi with hi' | rfl
    · rcases Nat.lt_succ_iff_lt_or_eq.mp hj with hj' | rfl
      · rw [hold i hi', hold j hj'] at hij
        exact h.distinct i j hi' hj' hij
      · rw [hold i hi', hnew] at hij
        exact absurd hij (habs i hi')
    · rcases Nat.lt_succ_iff_lt_or_eq.mp hj with hj' | rfl
      · rw [hold j hj', hnew] at hij
        exact absurd hij.symm (habs j hj')
      · rfl
  · intro u
    rw [hc, read_write]
    by_cases hu : u = v
    · subst hu
      simp only [if_true, hx1, true_iff]
      exact ⟨b.nsym.toNat, by omega, hnew⟩
    · rw [if_neg hu, h.present u]
      constructor
      · rintro ⟨i, hi, e⟩
        exact ⟨i, by omega, by rw [hold i hi, e]⟩
      · rintro ⟨i, hi, e⟩
        rcases Nat.lt_succ_iff_lt_or_eq.mp (show i < b.nsym.toNat + 1 by omega) with hi' | rfl
        · exact ⟨i, hi', by rw [← hold i hi', e]⟩
        · rw [hnew] at e
          exact absurd e.symm hu
  · have := h.total_sum
    rw [ht', hcs]
    omega
  · refine ⟨by omega, fun i hi => ?_⟩
    rw [hat, if_neg (by omega)]
    exact h.tail.2 i (by omega)
  · rw [hn', ht']
    omega

/-- One more occurrence of a symbol of the table keeps R24 (R76). -/
theorem tableInv_again {b b' : Block} (h : b.TableInv) (v : Byte) (hv : b.cnt.read v ≠ 0)
    (hsum : b.total.toNat < Config.cntMax)
    (hc : b'.cnt = b.cnt.write v (b.cnt.read v + 1)) (ho : b'.order = b.order)
    (hn : b'.nsym = b.nsym) (ht : b'.total = b.total + 1) : b'.TableInv := by
  have hmax : Config.cntMax = 4294967295 := by decide
  have hle := read_le_countSum b v
  have htot := h.total_sum
  have hinc : (b.cnt.read v + 1).toNat = (b.cnt.read v).toNat + 1 := by
    rw [BitVec.toNat_add]
    exact Nat.mod_eq_of_lt (by simp; omega)
  have ht' : b'.total.toNat = b.total.toNat + 1 := by
    rw [ht, BitVec.toNat_add]
    exact Nat.mod_eq_of_lt (by simp; omega)
  have hcs := countSum_write b v _ b' hc
  have hat : ∀ i, b'.orderAt i = b.orderAt i := fun i => by simp [Block.orderAt, ho]
  have hv1 : 1 ≤ (b.cnt.read v).toNat := by
    rcases Nat.eq_zero_or_pos (b.cnt.read v).toNat with h0 | h0
    · exact absurd (BitVec.eq_of_toNat_eq (by simpa using h0)) hv
    · exact h0
  constructor
  · intro i j; rw [hn, hat, hat]; exact h.distinct i j
  · intro u
    rw [hc, read_write, hn]
    simp only [hat]
    by_cases hu : u = v
    · subst hu
      rw [if_pos rfl, hinc, ← h.present u]
      omega
    · rw [if_neg hu]
      exact h.present u
  · rw [ht']
    omega
  · rw [hn]; exact ⟨h.tail.1, fun i hi => by rw [hat]; exact h.tail.2 i hi⟩
  · rw [hn, h.empty_iff, ht']
    have : b.nsym.toNat ≠ 0 := by
      obtain ⟨i, hi, -⟩ := (h.present v).mp hv1
      omega
    rw [Ne, h.empty_iff] at this
    omega

/-- COUNT keeps R24 (R76). -/
theorem tableInv_countOne {b : Block} (h : b.TableInv) (v : Byte)
    (hsum : b.total.toNat < Config.cntMax) : (b.countOne v).TableInv := by
  by_cases hv : b.cnt.read v = 0
  · apply tableInv_enter h v 1 hv (by decide) (by simpa using hsum)
    · simp [Block.countOne, hv]
    · simp [Block.countOne, hv, Block.appendOrder]
    · simp [Block.countOne, hv, Block.appendOrder]
    · simp [Block.countOne, hv, Block.appendOrder]
  · have e : b.countOne v = { b with cnt := b.cnt.write v (b.cnt.read v + 1), total := b.total + 1, src := .scan } := by
      simp only [Block.countOne]
      rw [if_neg hv]
    exact tableInv_again h v hv hsum (by rw [e]) (by rw [e]) (by rw [e]) (by rw [e])

end Sys2Proof.Machine
end

