-- ==== Sys2Proof/Laws/Tree.lean ====
section
/-! SUPPORT. The tree builder: what ExtractMin returns, an induction principle for MergeAll, the shape
of the arena it leaves, and the code tree that the arena represents. -/

namespace Sys2Proof.Machine

/-! ## ExtractMin -/

/-- `leastOf` returns one of the indices it compares. -/
theorem leastOf_mem (ns : List Node) (m : Nat) (js : List Nat) : leastOf ns m js ∈ m :: js := by
  induction js generalizing m with
  | nil => simp [leastOf]
  | cons j js ih =>
    have h := ih (if precedes ns j m then j else m)
    have he : leastOf ns m (j :: js) = leastOf ns (if precedes ns j m then j else m) js := rfl
    rw [he]
    by_cases hp : precedes ns j m = true
    · rw [if_pos hp] at h ⊢
      exact List.mem_cons_of_mem _ h
    · rw [if_neg hp] at h ⊢
      rcases List.mem_cons.mp h with h | h
      · rw [h]; exact List.mem_cons_self
      · exact List.mem_cons_of_mem _ (List.mem_cons_of_mem _ h)

/-- `precedes` in numbers. -/
theorem precedes_iff (ns : List Node) (i j : Nat) :
    precedes ns i j = true ↔ (freqAt ns i).toNat < (freqAt ns j).toNat ∨
      ((freqAt ns i).toNat = (freqAt ns j).toNat ∧ i < j) := by
  simp [precedes]

theorem not_precedes_trans {ns : List Node} {i j k : Nat} (h1 : ¬ precedes ns i j = true)
    (h2 : ¬ precedes ns j k = true) : ¬ precedes ns i k = true := by
  simp only [precedes_iff] at *
  omega

theorem not_precedes_of_precedes {ns : List Node} {i j : Nat} (h : precedes ns i j = true) :
    ¬ precedes ns j i = true := by
  simp only [precedes_iff] at *
  omega

theorem not_precedes_self (ns : List Node) (i : Nat) : ¬ precedes ns i i = true := by
  simp only [precedes_iff]
  omega

/-- Nothing compared precedes what `leastOf` returns. -/
theorem leastOf_least (ns : List Node) (m : Nat) (js : List Nat) :
    ∀ i ∈ m :: js, ¬ precedes ns i (leastOf ns m js) = true := by
  induction js generalizing m with
  | nil =>
    intro i hi
    simp only [List.mem_singleton] at hi
    subst hi
    exact not_precedes_self ns i
  | cons j js ih =>
    intro i hi
    simp only [leastOf]
    have h := ih (if precedes ns j m then j else m)
    by_cases hp : precedes ns j m = true
    · simp only [hp, if_true] at h ⊢
      rcases List.mem_cons.mp hi with rfl | hi
      · exact not_precedes_trans (not_precedes_of_precedes hp) (h j (by simp))
      · exact h i hi
    · simp only [hp] at h ⊢
      rcases List.mem_cons.mp hi with rfl | hi
      · exact h i (by simp)
      · rcases List.mem_cons.mp hi with rfl | hi
        · exact not_precedes_trans hp (h m (by simp))
        · exact h i (by simp [hi])

/-- ExtractMin returns a live index and removes it. -/
theorem extractMin_mem {ns : List Node} {live rest : List Nat} {m : Nat}
    (h : extractMin ns live = some (m, rest)) : m ∈ live ∧ rest = live.erase m := by
  cases live with
  | nil => simp [extractMin] at h
  | cons i is =>
    simp only [extractMin, Option.some.injEq, Prod.mk.injEq] at h
    obtain ⟨rfl, rfl⟩ := h
    exact ⟨leastOf_mem ns i is, rfl⟩

/-- Every other live index comes after the one ExtractMin returns (R84). -/
theorem extractMin_least {ns : List Node} {live rest : List Nat} {m : Nat}
    (h : extractMin ns live = some (m, rest)) {j : Nat} (hj : j ∈ live) (hne : j ≠ m) :
    precedes ns m j = true := by
  cases live with
  | nil => simp at hj
  | cons i is =>
    simp only [extractMin, Option.some.injEq, Prod.mk.injEq] at h
    obtain ⟨rfl, -⟩ := h
    have := leastOf_least ns i is j hj
    rw [precedes_iff] at this ⊢
    omega

theorem extractMin_eq_none {ns : List Node} {live : List Nat} :
    extractMin ns live = none ↔ live = [] := by
  cases live <;> simp [extractMin]

/-- ExtractMin removes one index. -/
theorem extractMin_length {ns : List Node} {live rest : List Nat} {m : Nat}
    (h : extractMin ns live = some (m, rest)) : rest.length + 1 = live.length := by
  obtain ⟨hm, rfl⟩ := extractMin_mem h
  have := List.length_erase_of_mem hm
  have : 0 < live.length := List.length_pos_of_mem hm
  omega

/-! ## MergeAll -/

/-- A property of the nodes and the live set that each merge keeps holds when one live node is left. -/
theorem mergeAll_induct {P : List Node → List Nat → Prop}
    (hmerge : ∀ ns live a live1 b live2, P ns live → extractMin ns live = some (a, live1) →
      extractMin ns live1 = some (b, live2) → P (ns ++ [Node.merge ns a b]) (live2 ++ [ns.length]))
    (fuel : Nat) (ns : List Node) (live : List Nat) (hfuel : live.length ≤ fuel + 1)
    (hne : live ≠ []) (h : P ns live) : ∃ r, P (mergeAll fuel ns live) [r] := by
  induction fuel generalizing ns live with
  | zero =>
    match live, hne, hfuel with
    | [r], _, _ => exact ⟨r, h⟩
  | succ fuel ih =>
    simp only [mergeAll]
    cases h1 : extractMin ns live with
    | none => exact absurd (extractMin_eq_none.mp h1) hne
    | some am =>
      obtain ⟨a, live1⟩ := am
      have hl1 := extractMin_length h1
      cases h2 : extractMin ns live1 with
      | none =>
        have : live1 = [] := extractMin_eq_none.mp h2
        subst this
        match live, hl1 with
        | [r], _ => exact ⟨r, by simpa [h2] using h⟩
      | some bm =>
        obtain ⟨b, live2⟩ := bm
        have hl2 := extractMin_length h2
        simp only [h2]
        exact ih _ _ (by simp; omega) (by simp) (hmerge ns live a live1 b live2 h h1 h2)

/-- The child of node `p` on a side: LEFT for 0, RIGHT for 1. -/
def childIn (ns : List Node) (p : Nat) (v : Bool) : Nat :=
  (if v = false then (ns[p]?.getD Node.zero).left else (ns[p]?.getD Node.zero).right).toNat

/-- What MergeAll keeps of the nodes and the live set while it merges `k` leaves (R85): the shape of
the internal nodes, and that the live nodes are exactly those without a parent. -/
structure Growing (k : Nat) (leaves ns : List Node) (live : List Nat) : Prop where
  prefix_leaves : ∀ i, i < k → ns[i]? = leaves[i]?
  size : ns.length + live.length = 2 * k
  k_le : k ≤ ns.length
  nodup : live.Nodup
  live_lt : ∀ i ∈ live, i < ns.length
  last : live.length = 1 → live = [ns.length - 1]
  internal : ∀ i nd, k ≤ i → ns[i]? = some nd → nd.valid = true ∧ nd.leaf = false ∧ nd.sym = 0 ∧
    nd.left.toNat < i ∧ nd.right.toNat < i ∧
    nd.freq.toNat = ((freqAt ns nd.left.toNat).toNat + (freqAt ns nd.right.toNat).toNat) % 2 ^ 32
  orphan : ∀ i ∈ live, ∀ q w, k ≤ q → q < ns.length → childIn ns q w ≠ i
  parent : ∀ i, i < ns.length → i ∉ live → ∃ p v, (k ≤ p ∧ p < ns.length ∧ childIn ns p v = i) ∧
    ∀ q w, k ≤ q → q < ns.length → childIn ns q w = i → q = p ∧ w = v

theorem freqAt_append {ns ms : List Node} {i : Nat} (h : i < ns.length) :
    freqAt (ns ++ ms) i = freqAt ns i := by
  simp [freqAt, List.getElem?_append_left h]

theorem childIn_append {ns ms : List Node} {p : Nat} (v : Bool) (h : p < ns.length) :
    childIn (ns ++ ms) p v = childIn ns p v := by
  simp [childIn, List.getElem?_append_left h]

theorem childIn_merge {ns : List Node} {a b : Nat} (ha : a < 512) (hb : b < 512) (v : Bool) :
    childIn (ns ++ [Node.merge ns a b]) ns.length v = if v = false then a else b := by
  have ea : a % 512 = a := Nat.mod_eq_of_lt ha
  have eb : b % 512 = b := Nat.mod_eq_of_lt hb
  cases v <;> simp [childIn, Node.merge, ea, eb]

/-- One merge keeps the shape. -/
theorem Growing.merge {k : Nat} (hk : k ≤ 256) {leaves ns : List Node}
    {live live1 live2 : List Nat} {a b : Nat}
    (h : Growing k leaves ns live) (h1 : extractMin ns live = some (a, live1))
    (h2 : extractMin ns live1 = some (b, live2)) :
    Growing k leaves (ns ++ [Node.merge ns a b]) (live2 ++ [ns.length]) := by
  obtain ⟨ha, e1⟩ := extractMin_mem h1
  obtain ⟨hb1, e2⟩ := extractMin_mem h2
  have hl1 := extractMin_length h1
  have hl2 := extractMin_length h2
  have hsz := h.size
  have hnd1 : live1.Nodup := e1 ▸ h.nodup.erase a
  have hb : b ∈ live := by rw [e1] at hb1; exact List.mem_of_mem_erase hb1
  have hba : b ≠ a := by
    rintro rfl
    rw [e1] at hb1
    exact h.nodup.not_mem_erase hb1
  have halt := h.live_lt a ha
  have hblt := h.live_lt b hb
  have ha512 : a < 512 := by omega
  have hb512 : b < 512 := by omega
  have hsub : ∀ i ∈ live2, i ∈ live ∧ i ≠ a ∧ i ≠ b := by
    intro i hi
    rw [e2] at hi
    have hi1 := List.mem_of_mem_erase hi
    refine ⟨?_, ?_, ?_⟩
    · rw [e1] at hi1; exact List.mem_of_mem_erase hi1
    · rintro rfl
      rw [e1] at hi1
      exact h.nodup.not_mem_erase hi1
    · rintro rfl
      exact hnd1.not_mem_erase hi
  have hsup : ∀ i ∈ live, i ≠ a → i ≠ b → i ∈ live2 := by
    intro i hi hia hib
    rw [e2, List.Nodup.mem_erase_iff hnd1]
    refine ⟨hib, ?_⟩
    rw [e1, List.Nodup.mem_erase_iff h.nodup]
    exact ⟨hia, hi⟩
  have hlen : (ns ++ [Node.merge ns a b]).length = ns.length + 1 := by simp
  have hchild := childIn_merge (ns := ns) ha512 hb512
  constructor
  · intro i hi
    rw [← h.prefix_leaves i hi]
    exact List.getElem?_append_left (by have := h.k_le; omega)
  · simp; omega
  · rw [hlen]; have := h.k_le; omega
  · rw [List.nodup_append]
    refine ⟨e2 ▸ hnd1.erase b, by simp, ?_⟩
    intro i hi j hj
    have hj' : j = ns.length := by simpa using hj
    have := h.live_lt i (hsub i hi).1
    omega
  · intro i hi
    rw [hlen]
    rcases List.mem_append.mp hi with hi | hi
    · have := h.live_lt i (hsub i hi).1; omega
    · have : i = ns.length := by simpa using hi
      omega
  · intro hone
    have : live2 = [] := by
      have : live2.length = 0 := by simpa using hone
      exact List.length_eq_zero_iff.mp this
    subst this
    simp
  · intro i nd hi hnd
    by_cases hin : i < ns.length
    · rw [List.getElem?_append_left hin] at hnd
      obtain ⟨p1, p2, p3, p4, p5, p6⟩ := h.internal i nd hi hnd
      refine ⟨p1, p2, p3, p4, p5, ?_⟩
      rw [freqAt_append (by omega), freqAt_append (by omega)]
      exact p6
    · have hi' : i = ns.length := by
        have : i < (ns ++ [Node.merge ns a b]).length := by
          rw [List.getElem?_eq_some_iff] at hnd
          exact hnd.1
        rw [hlen] at this
        omega
      subst hi'
      have hnd' : nd = Node.merge ns a b := by
        rw [List.getElem?_append_right (Nat.le_refl _)] at hnd
        simpa using hnd.symm
      subst hnd'
      have ea : a % 512 = a := Nat.mod_eq_of_lt ha512
      have eb : b % 512 = b := Nat.mod_eq_of_lt hb512
      have la : (Node.merge ns a b).left.toNat = a := by simp [Node.merge, ea]
      have lb : (Node.merge ns a b).right.toNat = b := by simp [Node.merge, eb]
      refine ⟨rfl, rfl, rfl, by rw [la]; exact halt, by rw [lb]; exact hblt, ?_⟩
      rw [la, lb, freqAt_append halt, freqAt_append hblt]
      simp [Node.merge]
  · intro i hi q w hq hql
    rw [hlen] at hql
    by_cases hqn : q < ns.length
    · rw [childIn_append w hqn]
      rcases List.mem_append.mp hi with hi | hi
      · exact h.orphan i (hsub i hi).1 q w hq hqn
      · have hi' : i = ns.length := by simpa using hi
        have hq' : ns[q]? = some ns[q] := List.getElem?_eq_getElem hqn
        obtain ⟨-, -, -, p4, p5, -⟩ := h.internal q _ hq hq'
        have : childIn ns q w < q := by
          unfold childIn
          rw [hq']
          cases w
          · simpa using p4
          · simpa using p5
        omega
    · have hq' : q = ns.length := by omega
      subst hq'
      rw [hchild]
      rcases List.mem_append.mp hi with hi | hi
      · have := hsub i hi
        split
        · exact fun e => this.2.1 e.symm
        · exact fun e => this.2.2 e.symm
      · have hi' : i = ns.length := by simpa using hi
        split <;> omega
  · intro i hi hnot
    rw [hlen] at hi
    have hne : i ≠ ns.length := by
      rintro rfl
      exact hnot (by simp)
    have hin : i < ns.length := by omega
    have hnot2 : i ∉ live2 := fun hm => hnot (by simp [hm])
    by_cases hlive : i ∈ live
    · -- one of the two merged nodes: its parent is the new node
      have hab : i = a ∨ i = b := by
        by_contra hcon
        have hcon' := not_or.mp hcon
        exact hnot2 (hsup i hlive hcon'.1 hcon'.2)
      refine ⟨ns.length, decide (i = b), ⟨h.k_le, by rw [hlen]; omega, ?_⟩, ?_⟩
      · rw [hchild]
        rcases hab with rfl | rfl
        · simp [hba.symm]
        · simp
      · intro q w hq hql hqc
        rw [hlen] at hql
        by_cases hqn : q < ns.length
        · rw [childIn_append w hqn] at hqc
          exact absurd hqc (h.orphan i hlive q w hq hqn)
        · have hq' : q = ns.length := by omega
          subst hq'
          refine ⟨rfl, ?_⟩
          rw [hchild] at hqc
          cases w
          · have : a = i := by simpa using hqc
            subst this
            simp [hba.symm]
          · have : b = i := by simpa using hqc
            subst this
            simp
    · obtain ⟨p, v, ⟨hp, hpl, hpc⟩, huniq⟩ := h.parent i hin hlive
      refine ⟨p, v, ⟨hp, by rw [hlen]; omega, by rw [childIn_append v hpl]; exact hpc⟩, ?_⟩
      intro q w hq hql hqc
      rw [hlen] at hql
      by_cases hqn : q < ns.length
      · rw [childIn_append w hqn] at hqc
        exact huniq q w hq hqn hqc
      · have hq' : q = ns.length := by omega
        subst hq'
        rw [hchild] at hqc
        have : i = a ∨ i = b := by
          split at hqc
          · exact .inl hqc.symm
          · exact .inr hqc.symm
        rcases this with rfl | rfl
        · exact absurd ha hlive
        · exact absurd hb hlive

/-- The leaves, all live, before the first merge (R83). -/
theorem growing_leaves {k : Nat} (leaves : List Node) (h : leaves.length = k) (hk : 1 ≤ k) :
    Growing k leaves leaves (List.range k) where
  prefix_leaves := fun _ _ => rfl
  size := by simp; omega
  k_le := by omega
  nodup := List.nodup_range
  live_lt := by intro i hi; rw [h]; simpa using hi
  last := by
    intro hone
    have : k = 1 := by simpa using hone
    subst this
    simp [h]
  internal := by
    intro i nd hi hnd
    rw [List.getElem?_eq_some_iff] at hnd
    obtain ⟨hlt, -⟩ := hnd
    omega
  orphan := by intro i _ q w hq hql; omega
  parent := by
    intro i hi hnot
    exact absurd (by simpa [h] using hi) (by simpa using hnot)

/-- The shape BUILD's nodes end with, for a table of `k` entries (R85, R86). -/
theorem growing_buildNodes {entries : List (Byte × Count)} (h1 : 1 ≤ entries.length)
    (h256 : entries.length ≤ 256) :
    Growing entries.length (entries.map Node.ofEntry) (buildNodes entries)
      [(buildNodes entries).length - 1] := by
  have h0 := growing_leaves (entries.map Node.ofEntry) (by simp) h1
  obtain ⟨r, hr⟩ := mergeAll_induct
    (P := Growing entries.length (entries.map Node.ofEntry))
    (fun ns live a live1 b live2 h e1 e2 => h.merge h256 e1 e2)
    entries.length (entries.map Node.ofEntry) (List.range entries.length)
    (by simp) (by rw [Ne, List.range_eq_nil]; omega) h0
  have : [r] = [(buildNodes entries).length - 1] := hr.last rfl
  rw [← this]
  exact hr

/-! ## The order of the merges (R84, R85) -/

theorem precedes_append {ns ms : List Node} {i j : Nat} (hi : i < ns.length) (hj : j < ns.length) :
    precedes (ns ++ ms) i j = precedes ns i j := by
  simp [precedes, freqAt_append hi, freqAt_append hj]

/-- Index `j` is live when node `i` is created: no earlier internal node has it as a child (R85). -/
def Waiting (k : Nat) (ns : List Node) (i j : Nat) : Prop :=
  j < i ∧ ∀ p w, k ≤ p → p < i → childIn ns p w ≠ j

/-- Index `m` is the first of a set of indices under (FREQ, index) (R84). -/
def FirstIn (ns : List Node) (S : Nat → Prop) (m : Nat) : Prop :=
  S m ∧ ∀ j, S j → j ≠ m → precedes ns m j = true

/-- Every internal node has the two first waiting nodes as its children, in that order. -/
def MergeOrder (k : Nat) (ns : List Node) : Prop :=
  ∀ i, k ≤ i → i < ns.length →
    FirstIn ns (Waiting k ns i) (childIn ns i false) ∧
    FirstIn ns (fun j => Waiting k ns i j ∧ j ≠ childIn ns i false) (childIn ns i true)

/-- The live indices are those waiting for the next merge. -/
theorem Growing.mem_live_iff {k : Nat} {leaves ns : List Node} {live : List Nat}
    (h : Growing k leaves ns live) (j : Nat) : j ∈ live ↔ Waiting k ns ns.length j := by
  constructor
  · exact fun hj => ⟨h.live_lt j hj, fun p w hp hpl => h.orphan j hj p w hp hpl⟩
  · rintro ⟨hj, hw⟩
    by_contra hnot
    obtain ⟨p, v, ⟨hp, hpl, hc⟩, -⟩ := h.parent j hj hnot
    exact hw p v hp hpl hc

theorem waiting_append {k : Nat} {ns ms : List Node} {i : Nat} (hi : i ≤ ns.length) (j : Nat) :
    Waiting k (ns ++ ms) i j ↔ Waiting k ns i j := by
  unfold Waiting
  refine and_congr_right fun _ => forall_congr' fun p => forall_congr' fun w =>
    forall_congr' fun _ => forall_congr' fun hp => ?_
  rw [childIn_append w (by omega)]

/-- More nodes leave the first of a set of older ones as it is. -/
theorem FirstIn.append {ns : List Node} (ms : List Node) {S S' : Nat → Prop} {m : Nat}
    (h : FirstIn ns S m) (hS : ∀ j, S' j ↔ S j) (hlt : ∀ j, S j → j < ns.length) :
    FirstIn (ns ++ ms) S' m := by
  refine ⟨(hS m).mpr h.1, fun j hj hne => ?_⟩
  rw [precedes_append (hlt m h.1) (hlt j ((hS j).mp hj))]
  exact h.2 j ((hS j).mp hj) hne

/-- What ExtractMin returns is the first of the live indices. -/
theorem firstIn_extractMin {ns : List Node} {live rest : List Nat} {m : Nat}
    (h : extractMin ns live = some (m, rest)) : FirstIn ns (· ∈ live) m :=
  ⟨(extractMin_mem h).1, fun _ hj hne => extractMin_least h hj hne⟩

/-- One merge keeps the order. -/
theorem MergeOrder.merge {k : Nat} (hk : k ≤ 256) {leaves ns : List Node}
    {live live1 live2 : List Nat} {a b : Nat} (hg : Growing k leaves ns live) (h : MergeOrder k ns)
    (h1 : extractMin ns live = some (a, live1)) (h2 : extractMin ns live1 = some (b, live2)) :
    MergeOrder k (ns ++ [Node.merge ns a b]) := by
  obtain ⟨ha, e1⟩ := extractMin_mem h1
  have hb1 := (extractMin_mem h2).1
  have hmem1 : ∀ j, j ∈ live1 ↔ j ∈ live ∧ j ≠ a := by
    intro j
    rw [e1, List.Nodup.mem_erase_iff hg.nodup, and_comm]
  have halt := hg.live_lt a ha
  have hblt := hg.live_lt b ((hmem1 b).mp hb1).1
  have hsz := hg.size
  have hlpos : 0 < live.length := List.length_pos_of_mem ha
  intro i hi hil
  by_cases hin : i < ns.length
  · rw [childIn_append _ hin, childIn_append _ hin]
    refine ⟨(h i hi hin).1.append _ (waiting_append (by omega)) fun j hj => ?_,
      (h i hi hin).2.append _ (fun j => by rw [waiting_append (by omega)]) fun j hj => ?_⟩
    · have := hj.1
      omega
    · have := hj.1.1
      omega
  · have hi' : i = ns.length := by
      rw [List.length_append, List.length_singleton] at hil
      omega
    subst hi'
    have hw : ∀ j, Waiting k (ns ++ [Node.merge ns a b]) ns.length j ↔ j ∈ live := fun j => by
      rw [waiting_append (Nat.le_refl _), hg.mem_live_iff]
    simp only [childIn_merge (ns := ns) (show a < 512 by omega) (show b < 512 by omega), if_true,
      Bool.true_eq_false, if_false]
    refine ⟨(firstIn_extractMin h1).append _ hw fun j hj => hg.live_lt j hj,
      (firstIn_extractMin h2).append _ (fun j => by rw [hw, hmem1]) fun j hj =>
        hg.live_lt j ((hmem1 j).mp hj).1⟩

/-- BUILD's nodes are merged in the order of R84 and R85. -/
theorem mergeOrder_buildNodes {entries : List (Byte × Count)} (h1 : 1 ≤ entries.length)
    (h256 : entries.length ≤ 256) : MergeOrder entries.length (buildNodes entries) := by
  have h0 := growing_leaves (entries.map Node.ofEntry) (by simp : _ = entries.length) h1
  obtain ⟨-, -, h⟩ := mergeAll_induct
    (P := fun ns live => Growing entries.length (entries.map Node.ofEntry) ns live ∧
      MergeOrder entries.length ns)
    (fun ns live a live1 b live2 h e1 e2 => ⟨h.1.merge h256 e1 e2, h.2.merge h256 h.1 e1 e2⟩)
    entries.length (entries.map Node.ofEntry) (List.range entries.length)
    (by simp) (by rw [Ne, List.range_eq_nil]; omega)
    ⟨h0, fun i hi hil => absurd hil (by rw [List.length_map]; omega)⟩
  exact h

theorem buildNodes_nil : buildNodes [] = [] := rfl

/-- R86: `k ≥ 1` entries give `2k - 1` nodes. -/
theorem buildNodes_length {entries : List (Byte × Count)} (h256 : entries.length ≤ 256) :
    (buildNodes entries).length = 2 * entries.length - 1 := by
  rcases Nat.eq_zero_or_pos entries.length with h | h
  · have : entries = [] := List.length_eq_zero_iff.mp h
    subst this
    rfl
  · have := (growing_buildNodes h h256).size
    simp at this
    omega

/-! ## The code tree -/

/-- A code tree (R13 leaf, internal node). -/
inductive CodeTree where
  | leaf (v : Byte) (c : Count)
  | node (l r : CodeTree)

/-- The entries at the leaves, left to right. -/
def CodeTree.leaves : CodeTree → List (Byte × Count)
  | .leaf v c => [(v, c)]
  | .node l r => l.leaves ++ r.leaves

/-- The sum of the leaves' counts (R88). -/
def CodeTree.weight (T : CodeTree) : Nat := (T.leaves.map fun e => e.2.toNat).sum

/-- The root-to-leaf paths, each with its symbol, after a path (R89). -/
def CodeTree.codes : CodeTree → BitString → List (Byte × BitString)
  | .leaf v _, p => [(v, p)]
  | .node l r, p => l.codes (p ++ [false]) ++ r.codes (p ++ [true])

/-- The number of levels below the root. -/
def CodeTree.height : CodeTree → Nat
  | .leaf _ _ => 0
  | .node l r => max l.height r.height + 1

/-- Node `i` of the arena is the root of the tree `T`. -/
inductive Represents (ns : List Node) : Nat → CodeTree → Prop where
  | leaf {i : Nat} {v : Byte} {c : Count} (h : ns[i]? = some (Node.ofEntry (v, c))) :
      Represents ns i (.leaf v c)
  | node {i : Nat} {nd : Node} {l r : CodeTree} (h : ns[i]? = some nd) (hleaf : nd.leaf = false)
      (hl : nd.left.toNat < i) (hr : nd.right.toNat < i)
      (hfreq : nd.freq.toNat = l.weight + r.weight)
      (rl : Represents ns nd.left.toNat l) (rr : Represents ns nd.right.toNat r) :
      Represents ns i (.node l r)

@[simp] theorem CodeTree.weight_leaf (v : Byte) (c : Count) : (CodeTree.leaf v c).weight = c.toNat := by
  simp [CodeTree.weight, CodeTree.leaves]

@[simp] theorem CodeTree.weight_node (l r : CodeTree) :
    (CodeTree.node l r).weight = l.weight + r.weight := by
  simp [CodeTree.weight, CodeTree.leaves]

theorem Represents.lt {ns : List Node} {i : Nat} {T : CodeTree} (h : Represents ns i T) :
    i < ns.length := by
  cases h with
  | leaf h => exact (List.getElem?_eq_some_iff.mp h).1
  | node h => exact (List.getElem?_eq_some_iff.mp h).1

/-- More nodes leave the represented trees alone. -/
theorem Represents.append {ns : List Node} (ms : List Node) {i : Nat} {T : CodeTree}
    (h : Represents ns i T) : Represents (ns ++ ms) i T := by
  induction h with
  | leaf h =>
    exact .leaf (by rw [List.getElem?_append_left (List.getElem?_eq_some_iff.mp h).1]; exact h)
  | node h hleaf hl hr hfreq _ _ ihl ihr =>
    exact .node (by rw [List.getElem?_append_left (List.getElem?_eq_some_iff.mp h).1]; exact h)
      hleaf hl hr hfreq ihl ihr

/-- A node's FREQ is the weight of its tree (R26, R88). -/
theorem Represents.freq {ns : List Node} {i : Nat} {T : CodeTree} (h : Represents ns i T) :
    (freqAt ns i).toNat = T.weight := by
  cases h with
  | leaf h => simp [freqAt, h, Node.ofEntry]
  | node h _ _ _ hfreq => simp [freqAt, h, hfreq]

/-- What MergeAll keeps of the trees of the live nodes: each represents one, together they have the
table's entries as their leaves, and their weights do not overflow (R88). -/
def Forest (entries : List (Byte × Count)) (ns : List Node) (live : List Nat) : Prop :=
  ∃ T : Nat → CodeTree, (∀ i ∈ live, Represents ns i (T i)) ∧
    (live.flatMap fun i => (T i).leaves).Perm entries

theorem sum_weight_flatMap (live : List Nat) (T : Nat → CodeTree) :
    ((live.flatMap fun i => (T i).leaves).map fun e => e.2.toNat).sum =
      (live.map fun i => (T i).weight).sum := by
  induction live with
  | nil => rfl
  | cons i live ih => simp [ih, CodeTree.weight]

theorem weight_le_of_mem {live : List Nat} {T : Nat → CodeTree} {i j : Nat} (hnd : live.Nodup)
    (hi : i ∈ live) (hj : j ∈ live) (hij : i ≠ j) :
    (T i).weight + (T j).weight ≤ (live.map fun i => (T i).weight).sum := by
  have h1 : live.Perm (i :: live.erase i) := List.perm_cons_erase hi
  have hj' : j ∈ live.erase i := by
    rw [List.Nodup.mem_erase_iff hnd]
    exact ⟨fun e => hij e.symm, hj⟩
  have h2 : (live.erase i).Perm (j :: (live.erase i).erase j) := List.perm_cons_erase hj'
  have h3 := (h1.trans (h2.cons i)).map fun i => (T i).weight
  rw [h3.sum_eq]
  simp only [List.map_cons, List.sum_cons]
  omega

/-- A merge's new node represents the tree over the two merged ones (R85). -/
theorem Represents.merge {ns : List Node} {a b : Nat} {A B : CodeTree} (hA : Represents ns a A)
    (hB : Represents ns b B) (hlen : ns.length ≤ 511) (hw : A.weight + B.weight < 2 ^ 32) :
    Represents (ns ++ [Node.merge ns a b]) ns.length (.node A B) := by
  have halt := hA.lt
  have hblt := hB.lt
  have ea : a % 512 = a := Nat.mod_eq_of_lt (by omega)
  have eb : b % 512 = b := Nat.mod_eq_of_lt (by omega)
  have la : (Node.merge ns a b).left.toNat = a := by simp [Node.merge, ea]
  have lb : (Node.merge ns a b).right.toNat = b := by simp [Node.merge, eb]
  refine .node (nd := Node.merge ns a b) (by simp) rfl (by omega) (by omega) ?_ ?_ ?_
  · have fa := hA.freq
    have fb := hB.freq
    simp only [Node.merge, BitVec.toNat_ofNat, fa, fb]
    exact Nat.mod_eq_of_lt hw
  · rw [la]; exact hA.append _
  · rw [lb]; exact hB.append _

/-- One merge keeps the forest. -/
theorem Forest.merge {entries : List (Byte × Count)} {k : Nat} (hk : k ≤ 256) {leaves : List Node}
    (hsum : (entries.map fun e => e.2.toNat).sum < 2 ^ 32)
    {ns : List Node} {live live1 live2 : List Nat} {a b : Nat} (hg : Growing k leaves ns live)
    (h : Forest entries ns live) (h1 : extractMin ns live = some (a, live1))
    (h2 : extractMin ns live1 = some (b, live2)) :
    Forest entries (ns ++ [Node.merge ns a b]) (live2 ++ [ns.length]) := by
  obtain ⟨T, hT, hperm⟩ := h
  obtain ⟨ha, e1⟩ := extractMin_mem h1
  obtain ⟨hb1, e2⟩ := extractMin_mem h2
  have hb : b ∈ live := by rw [e1] at hb1; exact List.mem_of_mem_erase hb1
  have hba : b ≠ a := by
    rintro rfl
    rw [e1] at hb1
    exact hg.nodup.not_mem_erase hb1
  have hp1 : live.Perm (a :: live1) := by rw [e1]; exact List.perm_cons_erase ha
  have hp2 : live1.Perm (b :: live2) := by rw [e2]; exact List.perm_cons_erase hb1
  have hp := hp1.trans (hp2.cons a)
  have halt := hg.live_lt a ha
  have hblt := hg.live_lt b hb
  have hsz := hg.size
  have hlpos : 0 < live.length := List.length_pos_of_mem ha
  have hw : (T a).weight + (T b).weight < 2 ^ 32 := by
    have hle := weight_le_of_mem (T := T) hg.nodup ha hb hba.symm
    have heq := (hperm.map fun e => e.2.toNat).sum_eq
    rw [sum_weight_flatMap] at heq
    omega
  have hnew : Represents (ns ++ [Node.merge ns a b]) ns.length (.node (T a) (T b)) :=
    Represents.merge (hT a ha) (hT b hb) (by omega) hw
  have hsub : ∀ i ∈ live2, i ∈ live := by
    intro i hi
    exact hp.mem_iff.mpr (by simp [hi])
  refine ⟨fun i => if i = ns.length then .node (T a) (T b) else T i, ?_, ?_⟩
  · intro i hi
    rcases List.mem_append.mp hi with hi | hi
    · have hne : i ≠ ns.length := by have := hg.live_lt i (hsub i hi); omega
      simp only [if_neg hne]
      exact (hT i (hsub i hi)).append _
    · have : i = ns.length := by simpa using hi
      subst this
      simp only [if_true]
      exact hnew
  · have hsame : (live2.flatMap fun i => (if i = ns.length then CodeTree.node (T a) (T b) else T i).leaves) =
        live2.flatMap fun i => (T i).leaves := by
      have : ∀ i ∈ live2, (if i = ns.length then CodeTree.node (T a) (T b) else T i).leaves = (T i).leaves := by
        intro i hi
        have := hg.live_lt i (hsub i hi)
        rw [if_neg (by omega)]
      exact List.flatMap_congr this
    rw [List.flatMap_append, hsame]
    simp only [List.flatMap_cons, List.flatMap_nil, List.append_nil, if_true, CodeTree.leaves]
    refine List.Perm.trans ?_ hperm
    refine List.Perm.trans ?_ (hp.flatMap_right _).symm
    simp only [List.flatMap_cons]
    refine List.perm_append_comm.trans ?_
    rw [List.append_assoc]

theorem flatten_singletons {α : Type} (l : List α) : (l.map fun e => [e]).flatten = l := by
  induction l with
  | nil => rfl
  | cons e l ih => simp only [List.map_cons, List.flatten_cons, ih, List.singleton_append]

/-- The leaves alone are a forest over the table's entries (R83). -/
theorem forest_leaves (entries : List (Byte × Count)) :
    Forest entries (entries.map Node.ofEntry) (List.range entries.length) := by
  refine ⟨fun i => match entries[i]? with | some e => .leaf e.1 e.2 | none => .leaf 0 0, ?_, ?_⟩
  · intro i hi
    have hi' : i < entries.length := by simpa using hi
    simp only [List.getElem?_eq_getElem hi']
    exact .leaf (by simp [hi'])
  · have : ((List.range entries.length).flatMap fun i =>
        (match entries[i]? with | some e => CodeTree.leaf e.1 e.2 | none => CodeTree.leaf 0 0).leaves) =
        entries := by
      rw [List.flatMap_def]
      have hmap : (List.range entries.length).map (fun i =>
          (match entries[i]? with | some e => CodeTree.leaf e.1 e.2 | none => CodeTree.leaf 0 0).leaves) =
          entries.map fun e => [e] := by
        apply List.ext_getElem
        · simp
        · intro i hi hi2
          have hi' : i < entries.length := by simpa using hi
          simp [hi', CodeTree.leaves]
      rw [hmap]
      exact flatten_singletons entries
    rw [this]

/-- BUILD's root represents a tree whose leaves are exactly the table's entries (R85, R92). -/
theorem buildNodes_represents {entries : List (Byte × Count)} (h1 : 1 ≤ entries.length)
    (h256 : entries.length ≤ 256) (hsum : (entries.map fun e => e.2.toNat).sum < 2 ^ 32) :
    ∃ T, Represents (buildNodes entries) ((buildNodes entries).length - 1) T ∧ T.leaves.Perm entries := by
  have hg := growing_leaves (entries.map Node.ofEntry) (by simp : _ = entries.length) h1
  have hf := forest_leaves entries
  obtain ⟨r, hgr, hfr⟩ := mergeAll_induct
    (P := fun ns live => Growing entries.length (entries.map Node.ofEntry) ns live ∧ Forest entries ns live)
    (fun ns live a live1 b live2 h e1 e2 => ⟨h.1.merge h256 e1 e2, h.2.merge h256 hsum h.1 e1 e2⟩)
    entries.length (entries.map Node.ofEntry) (List.range entries.length)
    (by simp) (by rw [Ne, List.range_eq_nil]; omega) ⟨hg, hf⟩
  have hr : r = (buildNodes entries).length - 1 := by
    have : [r] = [(buildNodes entries).length - 1] := hgr.last rfl
    simpa using this
  obtain ⟨T, hT, hperm⟩ := hfr
  refine ⟨T r, ?_, ?_⟩
  · rw [← hr]
    exact hT r (by simp)
  · simpa using hperm

end Sys2Proof.Machine
end

