-- ==== Sys2Proof/Laws/Codes.lean ====
section
/-! SUPPORT. The code table deriver: the walk over a represented tree gives the tree's paths, these are
prefix-free and bounded, and LEN and CODE hold them. -/

namespace Sys2Proof.Machine

/-! ## The walk gives the tree's paths (R89) -/

theorem Represents.height_le {ns : List Node} {i : Nat} {T : CodeTree} (h : Represents ns i T) :
    T.height ≤ i := by
  induction h with
  | leaf _ => exact Nat.zero_le _
  | node _ _ hl hr _ _ _ ihl ihr =>
    simp only [CodeTree.height]
    omega

theorem walkCodes_eq {ns : List Node} {i : Nat} {T : CodeTree} (h : Represents ns i T) (fuel : Nat)
    (hf : T.height < fuel) (p : BitString) : walkCodes fuel ns i p = T.codes p := by
  induction h generalizing fuel p with
  | leaf h =>
    cases fuel with
    | zero => exact absurd hf (Nat.not_lt_zero _)
    | succ fuel => simp [walkCodes, h, Node.ofEntry, CodeTree.codes]
  | node h hleaf _ _ _ _ _ ihl ihr =>
    cases fuel with
    | zero => exact absurd hf (Nat.not_lt_zero _)
    | succ fuel =>
      simp only [CodeTree.height] at hf
      simp only [walkCodes, h, hleaf, CodeTree.codes]
      rw [ihl fuel (by omega), ihr fuel (by omega)]
      simp

/-! ## Paths of a tree -/

/-- Starting from a path puts that path in front of every code. -/
theorem CodeTree.codes_eq_map (T : CodeTree) (p : BitString) :
    T.codes p = (T.codes []).map fun c => (c.1, p ++ c.2) := by
  induction T generalizing p with
  | leaf v c => simp [CodeTree.codes]
  | node l r ihl ihr =>
    simp only [CodeTree.codes, List.nil_append]
    rw [ihl (p ++ [false]), ihr (p ++ [true]), ihl [false], ihr [true]]
    simp [List.map_append, Function.comp_def]

/-- The codes' symbols are the leaves' symbols, in the same order. -/
theorem CodeTree.codes_symbols (T : CodeTree) (p : BitString) :
    (T.codes p).map Prod.fst = T.leaves.map Prod.fst := by
  induction T generalizing p with
  | leaf v c => rfl
  | node l r ihl ihr => simp [CodeTree.codes, CodeTree.leaves, ihl, ihr]

theorem CodeTree.leaves_pos (T : CodeTree) : 1 ≤ T.leaves.length := by
  induction T with
  | leaf v c => simp [CodeTree.leaves]
  | node l r ihl ihr => simp only [CodeTree.leaves, List.length_append]; omega

/-- A code is at most one shorter than the number of leaves (R92 (b)). -/
theorem CodeTree.code_length {T : CodeTree} {v : Byte} {q : BitString} (h : (v, q) ∈ T.codes []) :
    q.length + 1 ≤ T.leaves.length := by
  induction T generalizing v q with
  | leaf u c =>
    simp only [CodeTree.codes, List.mem_singleton, Prod.mk.injEq] at h
    simp [h.2, CodeTree.leaves]
  | node l r ihl ihr =>
    have hl := l.leaves_pos
    have hr := r.leaves_pos
    simp only [CodeTree.codes, List.nil_append] at h
    rw [l.codes_eq_map, r.codes_eq_map] at h
    simp only [List.mem_append, List.mem_map, Prod.mk.injEq] at h
    simp only [CodeTree.leaves, List.length_append]
    rcases h with ⟨c, hc, -, rfl⟩ | ⟨c, hc, -, rfl⟩
    · have := ihl (v := c.1) (q := c.2) hc
      simp; omega
    · have := ihr (v := c.1) (q := c.2) hc
      simp; omega

/-- A code of a tree of two leaves or more is not empty (R92 (a)). -/
theorem CodeTree.code_nonempty {T : CodeTree} (h2 : 2 ≤ T.leaves.length) {v : Byte} {q : BitString}
    (h : (v, q) ∈ T.codes []) : 1 ≤ q.length := by
  cases T with
  | leaf u c => simp [CodeTree.leaves] at h2
  | node l r =>
    simp only [CodeTree.codes, List.nil_append] at h
    rw [l.codes_eq_map, r.codes_eq_map] at h
    simp only [List.mem_append, List.mem_map, Prod.mk.injEq] at h
    rcases h with ⟨c, -, -, rfl⟩ | ⟨c, -, -, rfl⟩ <;> simp

/-- No path is a prefix of another (R92 (a)): two codes of which one is a prefix of the other are the
same code of the same symbol. -/
theorem CodeTree.prefix_free {T : CodeTree} {u v : Byte} {p q : BitString}
    (hp : (u, p) ∈ T.codes []) (hq : (v, q) ∈ T.codes []) (h : p <+: q) : u = v ∧ p = q := by
  induction T generalizing u v p q with
  | leaf w c =>
    simp only [CodeTree.codes, List.mem_singleton, Prod.mk.injEq] at hp hq
    exact ⟨by rw [hp.1, hq.1], by rw [hp.2, hq.2]⟩
  | node l r ihl ihr =>
    simp only [CodeTree.codes, List.nil_append] at hp hq
    rw [l.codes_eq_map, r.codes_eq_map] at hp hq
    simp only [List.mem_append, List.mem_map, Prod.mk.injEq] at hp hq
    rcases hp with ⟨c, hc, rfl, rfl⟩ | ⟨c, hc, rfl, rfl⟩ <;>
      rcases hq with ⟨d, hd, rfl, rfl⟩ | ⟨d, hd, rfl, rfl⟩
    · have h' : c.2 <+: d.2 := by simpa using h
      obtain ⟨e1, e2⟩ := ihl (u := c.1) (v := d.1) (p := c.2) (q := d.2) hc hd h'
      exact ⟨e1, by rw [e2]⟩
    · simp at h
    · simp at h
    · have h' : c.2 <+: d.2 := by simpa using h
      obtain ⟨e1, e2⟩ := ihr (u := c.1) (v := d.1) (p := c.2) (q := d.2) hc hd h'
      exact ⟨e1, by rw [e2]⟩

/-- Every leaf has a code. -/
theorem CodeTree.exists_code {T : CodeTree} {e : Byte × Count} (h : e ∈ T.leaves) :
    ∃ q, (e.1, q) ∈ T.codes [] := by
  have : e.1 ∈ (T.codes []).map Prod.fst := by
    rw [T.codes_symbols]
    exact List.mem_map_of_mem h
  obtain ⟨c, hc, he⟩ := List.mem_map.mp this
  exact ⟨c.2, by rw [← he]; exact hc⟩

/-! ## CODE and LEN hold the paths (R28) -/

theorem codeBits_getLsbD (q : BitString) (j : Nat) :
    (codeBits q).getLsbD j = (decide (j < 255) && q[j]?.getD false) := by
  induction q generalizing j with
  | nil => simp [codeBits]
  | cons v q ih =>
    simp only [codeBits, BitVec.getLsbD_or, BitVec.getLsbD_shiftLeft, ih]
    cases j with
    | zero => cases v <;> simp
    | succ j =>
      by_cases h : j + 1 < 255
      · have h' : j < 255 := by omega
        cases v <;> simp [h, h']
      · simp [h]

/-- The length of the bit-string a symbol's LEN and CODE hold. -/
@[simp] theorem codeString_length (n : BitVec 8) (c : BitVec 255) :
    (codeString n c).length = n.toNat := by simp [codeString]

theorem codeString_codeBits (q : BitString) (h : q.length ≤ 255) :
    codeString (BitVec.ofNat 8 q.length) (codeBits q) = q := by
  have hm : q.length % 2 ^ 8 = q.length := Nat.mod_eq_of_lt (by omega)
  apply List.ext_getElem
  · simp only [codeString_length, BitVec.toNat_ofNat, hm]
  · intro j h1 h2
    have h255 : j < 255 := by omega
    simp only [codeString, List.getElem_map, List.getElem_range, codeBits_getLsbD]
    simp [h255, h2]

theorem writeLens_read_other {codes : List (Byte × BitString)} {t : SymTable (BitVec 8)} {v : Byte}
    (h : ∀ c ∈ codes, c.1 ≠ v) : (writeLens codes t).read v = t.read v := by
  unfold writeLens
  induction codes generalizing t with
  | nil => rfl
  | cons c cs ih =>
    simp only [List.foldl_cons]
    rw [ih (fun d hd => h d (by simp [hd])), read_write, if_neg (fun e => h c (by simp) e.symm)]

theorem writeCodes_read_other {codes : List (Byte × BitString)} {t : SymTable (BitVec 255)} {v : Byte}
    (h : ∀ c ∈ codes, c.1 ≠ v) : (writeCodes codes t).read v = t.read v := by
  unfold writeCodes
  induction codes generalizing t with
  | nil => rfl
  | cons c cs ih =>
    simp only [List.foldl_cons]
    rw [ih (fun d hd => h d (by simp [hd])), read_write, if_neg (fun e => h c (by simp) e.symm)]

theorem writeLens_read {codes : List (Byte × BitString)} {t : SymTable (BitVec 8)} {v : Byte}
    {q : BitString} (hnd : (codes.map Prod.fst).Nodup) (h : (v, q) ∈ codes) :
    (writeLens codes t).read v = BitVec.ofNat 8 q.length := by
  induction codes generalizing t with
  | nil => simp at h
  | cons c cs ih =>
    simp only [List.map_cons, List.nodup_cons] at hnd
    have hstep : writeLens (c :: cs) t = writeLens cs (t.write c.1 (BitVec.ofNat 8 c.2.length)) := rfl
    rw [hstep]
    rcases List.mem_cons.mp h with rfl | h
    · rw [writeLens_read_other]
      · simp
      · intro d hd e
        exact hnd.1 (List.mem_map.mpr ⟨d, hd, e⟩)
    · exact ih hnd.2 h

theorem writeCodes_read {codes : List (Byte × BitString)} {t : SymTable (BitVec 255)} {v : Byte}
    {q : BitString} (hnd : (codes.map Prod.fst).Nodup) (h : (v, q) ∈ codes) :
    (writeCodes codes t).read v = codeBits q := by
  induction codes generalizing t with
  | nil => simp at h
  | cons c cs ih =>
    simp only [List.map_cons, List.nodup_cons] at hnd
    have hstep : writeCodes (c :: cs) t = writeCodes cs (t.write c.1 (codeBits c.2)) := rfl
    rw [hstep]
    rcases List.mem_cons.mp h with rfl | h
    · rw [writeCodes_read_other]
      · simp
      · intro d hd e
        exact hnd.1 (List.mem_map.mpr ⟨d, hd, e⟩)
    · exact ih hnd.2 h

/-! ## A sound table's entries -/

theorem entries_nodup {b : Block} (h : b.TableInv) : (b.entries.map Prod.fst).Nodup := by
  have : b.entries.map Prod.fst = (List.range b.nsym.toNat).map b.orderAt := by
    simp [Block.entries, Function.comp_def]
  rw [this]
  refine List.Nodup.map_on ?_ List.nodup_range
  intro i hi j hj e
  exact h.distinct i j (by simpa using hi) (by simpa using hj) e

theorem mem_entries_iff {b : Block} (h : b.TableInv) (v : Byte) :
    v ∈ b.entries.map Prod.fst ↔ 1 ≤ (b.cnt.read v).toNat := by
  rw [h.present v]
  simp [Block.entries]

/-- An entry pairs a symbol with its count. -/
theorem entry_count {b : Block} {e : Byte × Count} (he : e ∈ b.entries) : e.2 = b.cnt.read e.1 := by
  simp only [Block.entries, List.mem_map] at he
  obtain ⟨i, -, rfl⟩ := he
  rfl

theorem nodup_sum_le (l : List Nat) (is : List Nat) (hnd : is.Nodup) (hlt : ∀ i ∈ is, i < l.length) :
    (is.map fun i => l[i]?.getD 0).sum ≤ l.sum := by
  induction is generalizing l with
  | nil => simp
  | cons i is ih =>
    simp only [List.nodup_cons] at hnd
    have hi := hlt i (by simp)
    have hset := sum_set_list l i 0 hi
    have hrest := ih (l.set i 0) hnd.2 (by intro j hj; simpa using hlt j (by simp [hj]))
    have hsame : (is.map fun j => (l.set i 0)[j]?.getD 0) = is.map fun j => l[j]?.getD 0 := by
      apply List.map_congr_left
      intro j hj
      have : i ≠ j := by rintro rfl; exact hnd.1 hj
      simp [List.getElem?_set_ne this]
    rw [hsame] at hrest
    have hget : l[i]?.getD 0 = l[i] := by simp [hi]
    simp only [List.map_cons, List.sum_cons, hget]
    omega

theorem list_sum_eq_of_support (l : List Nat) (is : List Nat) (hnd : is.Nodup)
    (hlt : ∀ i ∈ is, i < l.length) (hsupp : ∀ i, i ∉ is → l[i]?.getD 0 = 0) :
    (is.map fun i => l[i]?.getD 0).sum = l.sum := by
  induction is generalizing l with
  | nil =>
    have : ∀ x ∈ l, x = 0 := by
      intro x hx
      obtain ⟨i, hi, rfl⟩ := List.mem_iff_getElem.mp hx
      have := hsupp i (by simp)
      simpa [hi] using this
    simp [List.sum_eq_zero this]
  | cons i is ih =>
    simp only [List.nodup_cons] at hnd
    have hi := hlt i (by simp)
    have hset := sum_set_list l i 0 hi
    have hrest := ih (l.set i 0) hnd.2 (by intro j hj; simpa using hlt j (by simp [hj])) (by
      intro j hj
      by_cases hij : i = j
      · subst hij; simp [hi]
      · rw [List.getElem?_set_ne hij]
        exact hsupp j (by simp [hj, Ne.symm hij]))
    have hsame : (is.map fun j => (l.set i 0)[j]?.getD 0) = is.map fun j => l[j]?.getD 0 := by
      apply List.map_congr_left
      intro j hj
      have : i ≠ j := by rintro rfl; exact hnd.1 hj
      simp [List.getElem?_set_ne this]
    rw [hsame] at hrest
    have hget : l[i]?.getD 0 = l[i] := by simp [hi]
    simp only [List.map_cons, List.sum_cons, hget]
    omega

/-- The entries' counts add up to TOTAL (R24 (c)). -/
theorem entries_sum {b : Block} (h : b.TableInv) :
    (b.entries.map fun e => e.2.toNat).sum = b.total.toNat := by
  rw [h.total_sum.1]
  unfold Block.countSum
  have hnd : ((b.entries.map Prod.fst).map BitVec.toNat).Nodup :=
    (entries_nodup h).map (fun x y e => BitVec.eq_of_toNat_eq e)
  have hread : ∀ v : Byte, (b.cnt.toList.map BitVec.toNat)[v.toNat]?.getD 0 = (b.cnt.read v).toNat := by
    intro v
    have hv : v.toNat < 256 := v.isLt
    have hv' : v.toNat < b.cnt.toList.length := by simpa using hv
    rw [List.getElem?_map, List.getElem?_eq_getElem hv']
    simp [SymTable.read]
  rw [← list_sum_eq_of_support (b.cnt.toList.map BitVec.toNat) _ hnd]
  · rw [List.map_map, List.map_map]
    congr 1
    apply List.map_congr_left
    intro e he
    simp only [Function.comp_apply]
    rw [hread, ← entry_count he]
  · intro i hi
    obtain ⟨v, -, rfl⟩ := List.mem_map.mp hi
    have := v.isLt
    simpa using this
  · intro i hi
    by_cases hlt : i < 256
    · have := hread (BitVec.ofNat 8 i)
      simp only [BitVec.toNat_ofNat] at this
      rw [Nat.mod_eq_of_lt hlt] at this
      rw [this]
      by_contra hne
      apply hi
      apply List.mem_map.mpr
      refine ⟨BitVec.ofNat 8 i, (mem_entries_iff h _).mpr (by omega), ?_⟩
      simpa using hlt
    · rw [List.getElem?_eq_none (by simpa using Nat.not_lt.mp hlt)]
      rfl

theorem entries_length_le {b : Block} (h : b.TableInv) : b.entries.length ≤ 256 := by
  rw [entries_length]; exact h.tail.1

/-! ## The codes BUILD derives -/

/-- BUILD's codes for a sound table of k ≥ 1 symbols: they are those of a tree over the entries, but
for k = 1, where the code is "0" (R89, R90). -/
theorem deriveCodes_spec {b : Block} (h : b.TableInv) (h1 : 1 ≤ b.nsym.toNat) :
    ∃ T, Represents (buildNodes b.entries) (rootOf (buildNodes b.entries)) T ∧ T.leaves.Perm b.entries ∧
      deriveCodes b.entries.length (buildNodes b.entries) =
        if b.nsym.toNat = 1 then [(b.orderAt 0, [false])] else T.codes [] := by
  have hl : 1 ≤ b.entries.length := by rw [entries_length]; exact h1
  have hsum : (b.entries.map fun e => e.2.toNat).sum < 2 ^ 32 := by
    rw [entries_sum h]; exact b.total.isLt
  obtain ⟨T, hT, hp⟩ := buildNodes_represents hl (entries_length_le h) hsum
  have hlen := hT.lt
  have hroot : rootOf (buildNodes b.entries) = (buildNodes b.entries).length - 1 := by
    unfold rootOf
    rw [if_neg (by omega)]
  refine ⟨T, by rw [hroot]; exact hT, hp, ?_⟩
  unfold deriveCodes
  rw [if_neg (by omega), entries_length]
  by_cases hk : b.nsym.toNat = 1
  · rw [if_pos hk, if_pos hk]
    have hg := growing_buildNodes hl (entries_length_le h)
    have h0 := hg.prefix_leaves 0 (by omega)
    rw [h0]
    simp [entries_getElem?, hk, Node.ofEntry]
  · rw [if_neg hk, if_neg hk, hroot]
    exact walkCodes_eq hT _ (by have := hT.height_le; omega) []

/-- The symbols with a code are the symbols of the table, each once (R29 (a)). -/
theorem deriveCodes_symbols {b : Block} (h : b.TableInv) :
    ((deriveCodes b.entries.length (buildNodes b.entries)).map Prod.fst).Perm (b.entries.map Prod.fst) := by
  rcases Nat.eq_zero_or_pos b.nsym.toNat with h0 | h1
  · have : b.entries = [] := List.length_eq_zero_iff.mp (by rw [entries_length, h0])
    rw [this]
    exact List.Perm.refl _
  · obtain ⟨T, -, hp, he⟩ := deriveCodes_spec h h1
    rw [he]
    split
    · rename_i hk
      have : b.entries = [(b.orderAt 0, b.cnt.read (b.orderAt 0))] := by
        simp [Block.entries, hk]
      rw [this]
      exact List.Perm.refl _
    · rw [T.codes_symbols]
      exact hp.map _

theorem deriveCodes_nodup {b : Block} (h : b.TableInv) :
    ((deriveCodes b.entries.length (buildNodes b.entries)).map Prod.fst).Nodup :=
  (deriveCodes_symbols h).nodup_iff.mpr (entries_nodup h)

/-- The codes' lengths: 1 to max(1, k - 1) (R29 (c), R92 (b)). -/
theorem deriveCodes_length {b : Block} (h : b.TableInv) {v : Byte} {q : BitString}
    (hq : (v, q) ∈ deriveCodes b.entries.length (buildNodes b.entries)) :
    1 ≤ q.length ∧ q.length ≤ max 1 (b.nsym.toNat - 1) ∧ q.length ≤ 255 := by
  rcases Nat.eq_zero_or_pos b.nsym.toNat with h0 | h1
  · have : b.entries = [] := List.length_eq_zero_iff.mp (by rw [entries_length, h0])
    simp [this, deriveCodes] at hq
  · obtain ⟨T, -, hp, he⟩ := deriveCodes_spec h h1
    have hTl : T.leaves.length = b.nsym.toNat := by rw [hp.length_eq, entries_length]
    have := h.tail.1
    rw [he] at hq
    split at hq
    · simp only [List.mem_singleton, Prod.mk.injEq] at hq
      rw [hq.2]
      simp
    · rename_i hk
      have hc := T.code_length hq
      have hn := T.code_nonempty (by omega) hq
      omega

/-- No code is a prefix of another (R29 (b), R92 (a)). -/
theorem deriveCodes_prefix_free {b : Block} (h : b.TableInv) {u v : Byte} {p q : BitString}
    (hp : (u, p) ∈ deriveCodes b.entries.length (buildNodes b.entries))
    (hq : (v, q) ∈ deriveCodes b.entries.length (buildNodes b.entries)) (hpq : p <+: q) : u = v := by
  rcases Nat.eq_zero_or_pos b.nsym.toNat with h0 | h1
  · have : b.entries = [] := List.length_eq_zero_iff.mp (by rw [entries_length, h0])
    simp [this, deriveCodes] at hp
  · obtain ⟨T, -, -, he⟩ := deriveCodes_spec h h1
    rw [he] at hp hq
    split at hp
    · rename_i hk
      rw [if_pos hk] at hq
      simp only [List.mem_singleton, Prod.mk.injEq] at hp hq
      rw [hp.1, hq.1]
    · rename_i hk
      rw [if_neg hk] at hq
      exact (T.prefix_free hp hq hpq).1

/-- LEN and CODE after BUILD hold the derived codes (R28, R89). -/
theorem written_code {b : Block} (h : b.TableInv) (t : SymTable (BitVec 8)) (u : SymTable (BitVec 255))
    {v : Byte} {q : BitString} (hq : (v, q) ∈ deriveCodes b.entries.length (buildNodes b.entries)) :
    (writeLens (deriveCodes b.entries.length (buildNodes b.entries)) t).read v = BitVec.ofNat 8 q.length ∧
    codeString ((writeLens (deriveCodes b.entries.length (buildNodes b.entries)) t).read v)
      ((writeCodes (deriveCodes b.entries.length (buildNodes b.entries)) u).read v) = q := by
  have h1 := writeLens_read (t := t) (deriveCodes_nodup h) hq
  have h2 := writeCodes_read (t := u) (deriveCodes_nodup h) hq
  exact ⟨h1, by rw [h1, h2]; exact codeString_codeBits q (deriveCodes_length h hq).2.2⟩

end Sys2Proof.Machine
end

