-- ==== Sys2Proof/Laws/Rules.lean ====
section
/-! SUPPORT. What each command's rule can answer, said once per rule with its guards, so that proofs
about all commands cite these lemmas instead of unfolding the rules. -/

namespace Sys2Proof.Machine

/-! ## The parser (R112, R113) -/

/-- What DESER_CHAR does when its rule succeeds: it moves within a record, or commits one. -/
theorem deserCharRule_ok {c : Byte} {b b' : Block} {out : List Output}
    (h : deserCharRule c b = .ok (b', out)) :
    out = [] ∧
    ((∃ pos psym pcnt, pos ≠ .symDigit 0 ∧
        b' = { b with pstate := pos, psym := psym, pcnt := pcnt, src := .text }) ∨
     (c = charSpace ∧ b.pstate = .moreDigits ∧ b.pcnt ≠ 0 ∧ b.cnt.read b.psym = 0 ∧
        b.total.toNat + b.pcnt.toNat ≤ Config.cntMax ∧
        b' = { b.appendOrder b.psym with
                cnt := b.cnt.write b.psym b.pcnt, total := b.total + b.pcnt
                pstate := .symDigit 0, psym := 0, pcnt := 0, src := .text })) := by
  simp only [deserCharRule, symDigitRule, colonRule, firstDigitRule, moreDigitsRule, commitRule] at h
  (repeat' split at h) <;> cases h
  · rename_i k _ _
    refine ⟨rfl, .inl ⟨_, _, _, ?_, rfl⟩⟩
    have : ∀ k : Fin 8, ParsePos.afterDigit k ≠ .symDigit 0 := by decide
    exact this k
  · exact ⟨rfl, .inl ⟨.firstDigit, b.psym, b.pcnt, by simp, rfl⟩⟩
  · exact ⟨rfl, .inl ⟨.moreDigits, b.psym, _, by simp, rfl⟩⟩
  · rename_i hps _ _
    exact ⟨rfl, .inl ⟨.moreDigits, b.psym, _, by simp, by rw [hps]⟩⟩
  · rename_i hps _ hc hp hd ht
    exact ⟨rfl, .inr ⟨hc, hps, hp, Decidable.not_not.mp hd, ht, rfl⟩⟩

/-- The errors DESER_CHAR raises (R112, R113, R118). -/
theorem deserCharRule_error {c : Byte} {b : Block} {code : ErrCode}
    (h : deserCharRule c b = .error code) :
    code = .malformed ∨ code = .duplicate ∨ code = .countOverflow := by
  simp only [deserCharRule, symDigitRule, colonRule, firstDigitRule, moreDigitsRule, commitRule] at h
  (repeat' split at h) <;> cases h <;> simp

/-! ## The decoder (R101 to R104) -/

/-- What DEC_BIT does when its rule succeeds: a trailing bit, a one-symbol tree's bit, or a walk. -/
theorem decBitRule_ok {v : Bool} {b b' : Block} {out : List Output}
    (h : decBitRule v b = .ok (b', out)) :
    (b.decCnt = b.total ∧ b.padCnt.toNat < Config.padMax ∧ out = [] ∧
      b' = { b with padCnt := b.padCnt + 1, phase := .decoding }) ∨
    (b.decCnt ≠ b.total ∧ b.nnodes = 1 ∧ v = false ∧ out = [.sym (b.nodeAt 0).sym] ∧
      b' = { b with decCnt := b.decCnt + 1, phase := .decoding }) ∨
    (b.decCnt ≠ b.total ∧ b.nnodes ≠ 1 ∧ (b.nodeAt (b.childOf v).toNat).leaf = true ∧
      out = [.sym (b.nodeAt (b.childOf v).toNat).sym] ∧
      b' = { b with decCnt := b.decCnt + 1, cur := b.root, depth := 0, phase := .decoding }) ∨
    (b.decCnt ≠ b.total ∧ b.nnodes ≠ 1 ∧ (b.nodeAt (b.childOf v).toNat).leaf = false ∧ out = [] ∧
      b' = { b with cur := b.childOf v, depth := b.depth + 1, phase := .decoding }) := by
  simp only [decBitRule, trailingBitRule, oneSymbolBitRule, walkBitRule] at h
  (repeat' split at h) <;> cases h <;> simp_all

/-- The errors DEC_BIT raises (R103, R104). -/
theorem decBitRule_error {v : Bool} {b : Block} {code : ErrCode} (h : decBitRule v b = .error code) :
    code = .trailing ∨ (code = .badCode ∧ v = true) := by
  simp only [decBitRule, trailingBitRule, oneSymbolBitRule, walkBitRule] at h
  (repeat' split at h) <;> cases h <;> simp_all

/-! ## The encoder (R95) -/

theorem encodeRule_ok {v : Byte} {b b' : Block} {out : List Output}
    (h : encodeRule v b = .ok (b', out)) :
    b.len.read v ≠ 0 ∧ b.encCnt.toNat < b.total.toNat ∧ out = (b.codeOf v).map Output.bit ∧
      b' = { b with bitCnt := b.bitCnt + (b.len.read v).setWidth 64, encCnt := b.encCnt + 1
                    phase := .encoding } := by
  simp only [encodeRule] at h
  (repeat' split at h) <;> cases h
  simp_all

theorem encodeRule_error {v : Byte} {b : Block} {code : ErrCode} (h : encodeRule v b = .error code) :
    code = .noCode ∨ code = .encOverrun := by
  simp only [encodeRule] at h
  (repeat' split at h) <;> cases h
  · exact .inl rfl
  · exact .inr rfl

/-! ## Every rule -/

/-- No rule raises "no error", E_ILLEGAL or E_SEQUENCE: those are the frame's (R118). -/
theorem ruleOf_error {i : Instr} {b : Block} {code : ErrCode} (h : ruleOf i b = .error code) :
    code ≠ .none ∧ code ≠ .illegal ∧ code ≠ .sequence := by
  cases i <;> simp only [ruleOf] at h
  case nop => cases h
  case clear => cases h
  case serialize => cases h
  case count b => unfold countRule at h; split at h <;> cases h; simp
  case build => unfold buildRule at h; split at h <;> cases h; simp
  case encEnd => unfold encEndRule at h; split at h <;> cases h; simp
  case decEnd => unfold decEndRule at h; split at h <;> cases h; simp
  case encodeByte b => rcases encodeRule_error h with rfl | rfl <;> simp
  case decBit v => rcases decBitRule_error h with rfl | ⟨rfl, -⟩ <;> simp
  case deserChar c => rcases deserCharRule_error h with rfl | rfl | rfl <;> simp

/-- PHASE after a command that succeeds in phase `p` (R17, and each command's own rule). -/
def phaseAfter (i : Instr) (p : Phase) : Phase :=
  match i with
  | .nop => p
  | .clear => .collect
  | .count _ => p
  | .build => .ready
  | .encodeByte _ => .encoding
  | .encEnd => .done
  | .decBit _ => .decoding
  | .decEnd => .done
  | .serialize => p
  | .deserChar _ => p

theorem ruleOf_phase {i : Instr} {b b' : Block} {out : List Output}
    (h : ruleOf i b = .ok (b', out)) : b'.phase = phaseAfter i b.phase := by
  cases i <;> simp only [ruleOf] at h
  case nop => cases h; rfl
  case clear => cases h; rfl
  case serialize => cases h; rfl
  case count v =>
    unfold countRule at h; split at h <;> cases h
    simp only [Block.countOne]; split <;> rfl
  case build => unfold buildRule at h; split at h <;> cases h; rfl
  case encEnd => unfold encEndRule at h; split at h <;> cases h; rfl
  case decEnd => unfold decEndRule at h; split at h <;> cases h; rfl
  case encodeByte v => rw [(encodeRule_ok h).2.2.2]; rfl
  case decBit v =>
    rcases decBitRule_ok h with ⟨-, -, -, rfl⟩ | ⟨-, -, -, -, rfl⟩ | ⟨-, -, -, -, rfl⟩ | ⟨-, -, -, -, rfl⟩ <;> rfl
  case deserChar c =>
    rcases deserCharRule_ok h with ⟨-, ⟨_, _, _, -, rfl⟩ | ⟨-, -, -, -, -, rfl⟩⟩ <;> rfl

/-- A command that succeeds does not enter ERROR. -/
theorem ruleOf_phase_ne {i : Instr} {b b' : Block} {out : List Output} (hb : b.phase ≠ .error)
    (h : ruleOf i b = .ok (b', out)) : b'.phase ≠ .error := by
  rw [ruleOf_phase h]
  cases i <;> simp [phaseAfter, hb]

/-- The error fields are written by the error entry alone (R20). -/
theorem ruleOf_errFields {i : Instr} {b b' : Block} {out : List Output} (hi : i ≠ .clear)
    (h : ruleOf i b = .ok (b', out)) :
    b'.errCode = b.errCode ∧ b'.errPhase = b.errPhase ∧ b'.errCmd = b.errCmd := by
  cases i <;> simp only [ruleOf] at h
  case nop => cases h; exact ⟨rfl, rfl, rfl⟩
  case clear => exact absurd rfl hi
  case serialize => cases h; exact ⟨rfl, rfl, rfl⟩
  case count v =>
    unfold countRule at h; split at h <;> cases h
    simp only [Block.countOne]; split <;> exact ⟨rfl, rfl, rfl⟩
  case build => unfold buildRule at h; split at h <;> cases h; exact ⟨rfl, rfl, rfl⟩
  case encEnd => unfold encEndRule at h; split at h <;> cases h; exact ⟨rfl, rfl, rfl⟩
  case decEnd => unfold decEndRule at h; split at h <;> cases h; exact ⟨rfl, rfl, rfl⟩
  case encodeByte v => rw [(encodeRule_ok h).2.2.2]; exact ⟨rfl, rfl, rfl⟩
  case decBit v =>
    rcases decBitRule_ok h with ⟨-, -, -, rfl⟩ | ⟨-, -, -, -, rfl⟩ | ⟨-, -, -, -, rfl⟩ | ⟨-, -, -, -, rfl⟩ <;>
      exact ⟨rfl, rfl, rfl⟩
  case deserChar c =>
    rcases deserCharRule_ok h with ⟨-, ⟨_, _, _, -, rfl⟩ | ⟨-, -, -, -, -, rfl⟩⟩ <;> exact ⟨rfl, rfl, rfl⟩

/-- Which stream a command that succeeds emits on (R43). -/
theorem ruleOf_out {i : Instr} {b b' : Block} {out : List Output} (h : ruleOf i b = .ok (b', out)) :
    (bitsOf out ≠ [] → ∃ v, i = .encodeByte v) ∧ (symsOf out ≠ [] → ∃ v, i = .decBit v) ∧
      (txtsOf out ≠ [] → i = .serialize) := by
  cases i <;> simp only [ruleOf] at h
  case nop => cases h; simp
  case clear => cases h; simp
  case serialize => cases h; simp
  case count v => unfold countRule at h; split at h <;> cases h; simp
  case build => unfold buildRule at h; split at h <;> cases h; simp
  case encEnd => unfold encEndRule at h; split at h <;> cases h; simp
  case decEnd => unfold decEndRule at h; split at h <;> cases h; simp
  case encodeByte v => rw [(encodeRule_ok h).2.2.1]; simp
  case decBit v =>
    rcases decBitRule_ok h with ⟨-, -, rfl, -⟩ | ⟨-, -, -, rfl, -⟩ | ⟨-, -, -, rfl, -⟩ | ⟨-, -, -, rfl, -⟩ <;>
      simp [bitsOf, txtsOf]
  case deserChar c => rw [(deserCharRule_ok h).1]; simp

end Sys2Proof.Machine
end

