-- ==== Sys2Proof/Laws/Invariants.lean ====
section
/-! SUPPORT. What each command's rule does to the invariants of Safety.lean, one lemma per invariant,
and the reset values. -/

namespace Sys2Proof.Machine

/-! ## The frequency table (R24) -/

/-- The commands that write the table keep it sound, and the others leave it alone (R24). -/
theorem ruleOf_table {i : Instr} {b b' : Block} {out : List Output} (h : ruleOf i b = .ok (b', out))
    (hb : b.TableInv) : b'.TableInv := by
  cases i <;> simp only [ruleOf] at h
  case nop => cases h; exact hb
  case clear => cases h; exact tableInv_reset
  case serialize => cases h; exact hb
  case count v =>
    unfold countRule at h; split at h <;> cases h
    exact tableInv_countOne hb v (by assumption)
  case build => unfold buildRule at h; split at h <;> cases h; exact hb.congr rfl rfl rfl rfl
  case encEnd => unfold encEndRule at h; split at h <;> cases h; exact hb.congr rfl rfl rfl rfl
  case decEnd => unfold decEndRule at h; split at h <;> cases h; exact hb.congr rfl rfl rfl rfl
  case encodeByte v => rw [(encodeRule_ok h).2.2.2]; exact hb.congr rfl rfl rfl rfl
  case decBit v =>
    rcases decBitRule_ok h with ⟨-, -, -, rfl⟩ | ⟨-, -, -, -, rfl⟩ | ⟨-, -, -, -, rfl⟩ | ⟨-, -, -, -, rfl⟩ <;>
      exact hb.congr rfl rfl rfl rfl
  case deserChar c =>
    rcases deserCharRule_ok h with ⟨-, ⟨_, _, _, -, rfl⟩ | ⟨-, -, hp, hv, ht, rfl⟩⟩
    · exact hb.congr rfl rfl rfl rfl
    · exact tableInv_enter hb b.psym b.pcnt hv hp ht rfl rfl rfl rfl

/-! ## Control (R17 to R20, R25) -/

theorem controlInv_reset : Block.reset.ControlInv where
  built_iff := by simp [Block.reset, Block.jobPhase]
  err_iff := by simp [Block.reset]
  errPhase_ne := by simp [Block.reset]
  no_error := by simp [Block.reset]
  parser := by simp [Block.reset]
  digits := by simp [Block.reset]
  src_empty := by simp [Block.reset]

/-- The job's phase is not changed by an error (R17, R20). -/
theorem jobPhase_of_ne {b : Block} (h : b.phase ≠ .error) : b.jobPhase = b.phase := by
  simp [Block.jobPhase, h]

theorem controlInv_errorEntry (s : State) (code : ErrCode) (w : CmdWord) (hc : code ≠ .none)
    (hp : s.phase ≠ .error) (hs : s.ControlInv) : (s.errorEntry code w).ControlInv where
  built_iff := by
    have := hs.built_iff
    rw [jobPhase_of_ne hp] at this
    simpa [Block.jobPhase] using this
  err_iff := by simp [hc]
  errPhase_ne := by simpa using hp
  no_error := by simp
  parser := hs.parser
  digits := hs.digits
  src_empty := hs.src_empty

/-- A command that writes neither the parser, SRC nor the table, and keeps BUILT with the phase, keeps
`ControlInv`. -/
theorem Block.ControlInv.congr {b b' : Block} (h : b.ControlInv) (hp : b.phase ≠ .error)
    (hp' : b'.phase ≠ .error) (hph : b'.phase = .collect ↔ b.phase = .collect)
    (h1 : b'.built = b.built) (h2 : b'.errCode = b.errCode) (h3 : b'.errPhase = b.errPhase)
    (h4 : b'.errCmd = b.errCmd) (h5 : b'.pstate = b.pstate) (h6 : b'.psym = b.psym)
    (h7 : b'.pcnt = b.pcnt) (h8 : b'.src = b.src) (h9 : b'.nsym = b.nsym) : b'.ControlInv where
  built_iff := by
    have := h.built_iff
    rw [jobPhase_of_ne hp] at this
    rw [jobPhase_of_ne hp', h1, this, not_iff_not, hph]
  err_iff := by
    have := h.err_iff
    rw [h2]
    simp [hp'] at this ⊢
    exact this.mpr hp
  errPhase_ne := by rw [h3]; exact h.errPhase_ne
  no_error := by rw [h3, h4]; exact fun _ => h.no_error hp
  parser := by rw [h8, h1, h5]; exact h.parser
  digits := by rw [h5, h6, h7]; exact h.digits
  src_empty := by rw [h8, h9]; exact h.src_empty

theorem countOne_fields (b : Block) (v : Byte) :
    (b.countOne v).phase = b.phase ∧ (b.countOne v).built = b.built ∧
    (b.countOne v).errCode = b.errCode ∧ (b.countOne v).errPhase = b.errPhase ∧
    (b.countOne v).errCmd = b.errCmd ∧ (b.countOne v).pstate = b.pstate ∧
    (b.countOne v).psym = b.psym ∧ (b.countOne v).pcnt = b.pcnt ∧ (b.countOne v).src = .scan ∧
    (b.countOne v).node = b.node ∧ (b.countOne v).nnodes = b.nnodes ∧ (b.countOne v).root = b.root ∧
    (b.countOne v).len = b.len ∧ (b.countOne v).code = b.code ∧ (b.countOne v).encCnt = b.encCnt ∧
    (b.countOne v).bitCnt = b.bitCnt ∧ (b.countOne v).cur = b.cur ∧ (b.countOne v).depth = b.depth ∧
    (b.countOne v).decCnt = b.decCnt ∧ (b.countOne v).padCnt = b.padCnt ∧
    (b.countOne v).total = b.total + 1 := by
  simp only [Block.countOne]
  split <;> simp [Block.appendOrder]

/-- What legality says of the phase and source a command runs in (R71). -/
def runsIn (i : Instr) (b : Block) : Prop :=
  match i with
  | .nop => True
  | .clear => True
  | .count _ => b.phase = .collect ∧ b.src ≠ .text
  | .build => b.phase = .collect
  | .encodeByte _ => b.phase = .ready ∨ b.phase = .encoding
  | .encEnd => b.phase = .ready ∨ b.phase = .encoding
  | .decBit _ => b.phase = .ready ∨ b.phase = .decoding
  | .decEnd => b.phase = .ready ∨ b.phase = .decoding
  | .serialize => True
  | .deserChar _ => b.phase = .collect ∧ b.src ≠ .scan

theorem legal_phase {i : Instr} {b : Block} (hl : legal i b.phase b.src = true) : runsIn i b := by
  cases i <;> simp_all [legal, runsIn]

theorem ruleOf_control {i : Instr} {b b' : Block} {out : List Output} (hi : i ≠ .clear)
    (hp : b.phase ≠ .error) (hl : legal i b.phase b.src = true) (h : ruleOf i b = .ok (b', out))
    (hb : b.ControlInv) : b'.ControlInv := by
  have hp' := ruleOf_phase_ne hp h
  have hlp := legal_phase hl
  cases i <;> simp only [ruleOf] at h
  case nop => cases h; exact hb
  case clear => exact absurd rfl hi
  case serialize => cases h; exact hb
  case count v =>
    unfold countRule at h; split at h <;> cases h
    obtain ⟨e1, e2, e3, e4, e5, e6, e7, e8, e9, -⟩ := countOne_fields b v
    have hps : b.pstate = .symDigit 0 := hb.parser (.inl hlp.2)
    have hbt : b.built = false := by
      have := hb.built_iff
      rw [jobPhase_of_ne hp, hlp.1] at this
      simpa using this
    exact
      { built_iff := by rw [jobPhase_of_ne hp', e1, e2, hbt, hlp.1]; simp
        err_iff := by
          have := hb.err_iff
          rw [e3]
          exact ⟨fun _ => hp', fun _ => this.mpr hp⟩
        errPhase_ne := by rw [e4]; exact hb.errPhase_ne
        no_error := by rw [e4, e5]; exact fun _ => hb.no_error hp
        parser := fun _ => by rw [e6, hps]
        digits := fun _ => by rw [e7, e8]; exact hb.digits hps
        src_empty := by rw [e9]; simp }
  case build =>
    unfold buildRule at h; split at h <;> cases h
    rename_i hps
    exact
      { built_iff := by simp [Block.withTree, Block.jobPhase]
        err_iff := by
          have := hb.err_iff
          exact ⟨fun _ => hp', fun _ => this.mpr hp⟩
        errPhase_ne := hb.errPhase_ne
        no_error := fun _ => hb.no_error hp
        parser := fun _ => hps
        digits := hb.digits
        src_empty := hb.src_empty }
  case encEnd =>
    unfold encEndRule at h; split at h <;> cases h
    exact hb.congr hp hp' (by rcases hlp with h | h <;> simp [h]) rfl rfl rfl rfl rfl rfl rfl rfl rfl
  case decEnd =>
    unfold decEndRule at h; split at h <;> cases h
    exact hb.congr hp hp' (by rcases hlp with h | h <;> simp [h]) rfl rfl rfl rfl rfl rfl rfl rfl rfl
  case encodeByte v =>
    obtain ⟨-, -, -, rfl⟩ := encodeRule_ok h
    exact hb.congr hp hp' (by rcases hlp with h | h <;> simp [h]) rfl rfl rfl rfl rfl rfl rfl rfl rfl
  case decBit v =>
    rcases decBitRule_ok h with ⟨-, -, -, rfl⟩ | ⟨-, -, -, -, rfl⟩ | ⟨-, -, -, -, rfl⟩ | ⟨-, -, -, -, rfl⟩ <;>
      exact hb.congr hp hp' (by rcases hlp with h | h <;> simp [h]) rfl rfl rfl rfl rfl rfl rfl rfl rfl
  case deserChar c =>
    have hbt : b.built = false := by
      have := hb.built_iff
      rw [jobPhase_of_ne hp, hlp.1] at this
      simpa using this
    have herr : b.errCode = .none := hb.err_iff.mpr hp
    obtain ⟨hne, hcm⟩ := hb.no_error hp
    rcases deserCharRule_ok h with ⟨-, ⟨pos, psym, pcnt, hpos, rfl⟩ | ⟨-, -, -, -, -, rfl⟩⟩
    · exact
        { built_iff := by simp [Block.jobPhase, hlp.1, hbt]
          err_iff := by simp [herr, hp]
          errPhase_ne := hb.errPhase_ne
          no_error := fun _ => ⟨hne, hcm⟩
          parser := by simp [hbt]
          digits := fun e => absurd e hpos
          src_empty := by simp }
    · exact
        { built_iff := by simp [Block.jobPhase, Block.appendOrder, hlp.1, hbt]
          err_iff := by simp [Block.appendOrder, herr, hp]
          errPhase_ne := hb.errPhase_ne
          no_error := fun _ => ⟨hne, hcm⟩
          parser := fun _ => rfl
          digits := fun _ => ⟨rfl, rfl⟩
          src_empty := by simp }

/-! ## Counters (R30, R31) -/

theorem counterInv_reset : Block.reset.CounterInv where
  enc_le := by simp [Block.reset]
  dec_le := by simp [Block.reset]
  pad := by simp [Block.reset]
  bits_le := by simp [Block.reset]
  start := by simp [Block.reset]
  encoding := by simp [Block.reset]
  decoding := by simp [Block.reset]
  done := by simp [Block.reset]

/-- The counters' invariants speak of the counters, TOTAL and the job's phase only. -/
theorem Block.CounterInv.congr {b b' : Block} (h : b.CounterInv) (h1 : b'.encCnt = b.encCnt)
    (h2 : b'.bitCnt = b.bitCnt) (h3 : b'.decCnt = b.decCnt) (h4 : b'.padCnt = b.padCnt)
    (h5 : b'.total = b.total) (h6 : b'.jobPhase = b.jobPhase) : b'.CounterInv := by
  constructor
  · rw [h1, h5]; exact h.enc_le
  · rw [h3, h5]; exact h.dec_le
  · rw [h4, h3, h5]; exact h.pad
  · rw [h2, h1]; exact h.bits_le
  · rw [h6, h1, h3, h4]; exact h.start
  · rw [h6, h3, h4]; exact h.encoding
  · rw [h6, h1]; exact h.decoding
  · rw [h6, h1, h3, h5]; exact h.done

theorem counterInv_errorEntry (s : State) (code : ErrCode) (w : CmdWord) (hp : s.phase ≠ .error)
    (hs : s.CounterInv) : (s.errorEntry code w).CounterInv :=
  hs.congr rfl rfl rfl rfl rfl (by rw [jobPhase_of_ne hp]; simp [Block.jobPhase])

/-- In COLLECT every counter is 0, whatever the table is. -/
theorem counterInv_collect {b : Block} (hp : b.phase = .collect) (h1 : b.encCnt = 0)
    (h2 : b.bitCnt = 0) (h3 : b.decCnt = 0) (h4 : b.padCnt = 0) : b.CounterInv := by
  have hj : b.jobPhase = .collect := by rw [jobPhase_of_ne (by simp [hp]), hp]
  constructor <;> simp [h1, h2, h3, h4, hj]

theorem bitCnt_zero {b : Block} (hb : b.CounterInv) (h : b.encCnt = 0) : b.bitCnt = 0 := by
  have := hb.bits_le
  rw [h] at this
  apply BitVec.eq_of_toNat_eq
  have hz : (0 : Count).toNat = 0 := rfl
  show b.bitCnt.toNat = 0
  omega

theorem toNat_add_one {n : Nat} {x : BitVec n} (h : x.toNat + 1 < 2 ^ n) : (x + 1).toNat = x.toNat + 1 := by
  have h1 : (1 : BitVec n).toNat = 1 % 2 ^ n := BitVec.toNat_ofNat 1 n
  rw [BitVec.toNat_add, h1, Nat.add_mod_mod, Nat.mod_eq_of_lt h]

theorem ruleOf_counters {i : Instr} {b b' : Block} {out : List Output} (hi : i ≠ .clear)
    (hp : b.phase ≠ .error) (hl : legal i b.phase b.src = true) (h : ruleOf i b = .ok (b', out))
    (hb : b.CounterInv) : b'.CounterInv := by
  have hlp := legal_phase hl
  have hj := jobPhase_of_ne hp
  have hcollect : b.phase = .collect → b.encCnt = 0 ∧ b.bitCnt = 0 ∧ b.decCnt = 0 ∧ b.padCnt = 0 := by
    intro hc
    obtain ⟨h1, h2, h3⟩ := hb.start (.inl (by rw [hj, hc]))
    exact ⟨h1, bitCnt_zero hb h1, h2, h3⟩
  cases i <;> simp only [ruleOf] at h
  case nop => cases h; exact hb
  case clear => exact absurd rfl hi
  case serialize => cases h; exact hb
  case count v =>
    unfold countRule at h; split at h <;> cases h
    obtain ⟨c1, c2, c3, c4⟩ := hcollect hlp.1
    have e := countOne_fields b v
    apply counterInv_collect <;> simp [e, hlp.1, c1, c2, c3, c4]
  case build =>
    unfold buildRule at h; split at h <;> cases h
    constructor <;> simp [Block.withTree, Block.jobPhase]
  case encEnd =>
    unfold encEndRule at h; split at h <;> cases h
    rename_i he
    exact
      { enc_le := hb.enc_le, dec_le := hb.dec_le, pad := hb.pad, bits_le := hb.bits_le
        start := by simp [Block.jobPhase]
        encoding := by simp [Block.jobPhase]
        decoding := by simp [Block.jobPhase]
        done := fun _ => .inl he }
  case decEnd =>
    unfold decEndRule at h; split at h <;> cases h
    rename_i he
    exact
      { enc_le := hb.enc_le, dec_le := hb.dec_le, pad := hb.pad, bits_le := hb.bits_le
        start := by simp [Block.jobPhase]
        encoding := by simp [Block.jobPhase]
        decoding := by simp [Block.jobPhase]
        done := fun _ => .inr he }
  case encodeByte v =>
    obtain ⟨-, hlt, -, rfl⟩ := encodeRule_ok h
    have hz : b.decCnt = 0 ∧ b.padCnt = 0 := by
      rcases hlp with hq | hq
      · exact (hb.start (.inr (by rw [hj, hq]))).2
      · exact hb.encoding (by rw [hj, hq])
    have ht := b.total.isLt
    have hl8 := (b.len.read v).isLt
    have hbl := hb.bits_le
    have he : (b.encCnt + 1).toNat = b.encCnt.toNat + 1 := toNat_add_one (by omega)
    exact
      { enc_le := by show (b.encCnt + 1).toNat ≤ b.total.toNat; omega
        dec_le := hb.dec_le
        pad := hb.pad
        bits_le := by
          show (b.bitCnt + (b.len.read v).setWidth 64).toNat ≤ 255 * (b.encCnt + 1).toNat
          rw [he, BitVec.toNat_add, BitVec.toNat_setWidth, Nat.mod_eq_of_lt (by omega : (b.len.read v).toNat < 2 ^ 64),
            Nat.mod_eq_of_lt (by omega)]
          omega
        start := by simp [Block.jobPhase]
        encoding := fun _ => hz
        decoding := by simp [Block.jobPhase]
        done := by simp [Block.jobPhase] }
  case decBit v =>
    have hz : b.encCnt = 0 := by
      rcases hlp with hq | hq
      · exact (hb.start (.inr (by rw [hj, hq]))).1
      · exact hb.decoding (by rw [hj, hq])
    have hd : b.decCnt ≠ b.total → (b.decCnt + 1).toNat ≤ b.total.toNat ∧ b.padCnt = 0 := by
      intro hne
      have h1 := hb.dec_le
      have h2 : b.decCnt.toNat ≠ b.total.toNat := fun e => hne (BitVec.eq_of_toNat_eq e)
      have ht := b.total.isLt
      have he : (b.decCnt + 1).toNat = b.decCnt.toNat + 1 := toNat_add_one (by omega)
      refine ⟨by omega, ?_⟩
      by_contra hpad
      exact hne (hb.pad.2 hpad)
    rcases decBitRule_ok h with ⟨hdt, hpad, -, rfl⟩ | ⟨hne, -, -, -, rfl⟩ | ⟨hne, -, -, -, rfl⟩ | ⟨hne, -, -, -, rfl⟩
    · have hp4 : (b.padCnt + 1).toNat = b.padCnt.toNat + 1 := by
        apply toNat_add_one
        have : Config.padMax = 7 := rfl
        omega
      exact
        { enc_le := hb.enc_le, dec_le := hb.dec_le
          pad := ⟨by show (b.padCnt + 1).toNat ≤ _; omega, fun _ => hdt⟩
          bits_le := hb.bits_le
          start := by simp [Block.jobPhase]
          encoding := by simp [Block.jobPhase]
          decoding := fun _ => hz
          done := by simp [Block.jobPhase] }
    · exact
        { enc_le := hb.enc_le, dec_le := (hd hne).1
          pad := ⟨hb.pad.1, fun e => absurd (hd hne).2 e⟩
          bits_le := hb.bits_le
          start := by simp [Block.jobPhase]
          encoding := by simp [Block.jobPhase]
          decoding := fun _ => hz
          done := by simp [Block.jobPhase] }
    · exact
        { enc_le := hb.enc_le, dec_le := (hd hne).1
          pad := ⟨hb.pad.1, fun e => absurd (hd hne).2 e⟩
          bits_le := hb.bits_le
          start := by simp [Block.jobPhase]
          encoding := by simp [Block.jobPhase]
          decoding := fun _ => hz
          done := by simp [Block.jobPhase] }
    · exact
        { enc_le := hb.enc_le, dec_le := hb.dec_le
          pad := hb.pad
          bits_le := hb.bits_le
          start := by simp [Block.jobPhase]
          encoding := by simp [Block.jobPhase]
          decoding := fun _ => hz
          done := by simp [Block.jobPhase] }
  case deserChar c =>
    obtain ⟨c1, c2, c3, c4⟩ := hcollect hlp.1
    rcases deserCharRule_ok h with ⟨-, ⟨_, _, _, -, rfl⟩ | ⟨-, -, -, -, -, rfl⟩⟩
    · exact counterInv_collect hlp.1 c1 c2 c3 c4
    · exact counterInv_collect hlp.1 c1 c2 c3 c4

/-! ## The counters and what is emitted (R30, R31) -/

/-- BITCNT does not wrap (R30). -/
theorem bitCnt_add {b : Block} (h : b.CounterInv) (ht : b.encCnt.toNat < b.total.toNat) (v : Byte) :
    (b.bitCnt + (b.len.read v).setWidth 64).toNat = b.bitCnt.toNat + (b.len.read v).toNat := by
  have h0 := h.bits_le
  have h1 := (b.len.read v).isLt
  have h2 := b.total.isLt
  rw [BitVec.toNat_add, BitVec.toNat_setWidth, Nat.mod_eq_of_lt (a := (b.len.read v).toNat) (by omega),
    Nat.mod_eq_of_lt (by omega)]

/-- BITCNT and DECCNT grow by exactly what a command emits (R30, R31). -/
theorem ruleOf_counts {i : Instr} {b b' : Block} {out : List Output} (hi : i ≠ .clear)
    (hp : b.phase ≠ .error) (hl : legal i b.phase b.src = true) (h : ruleOf i b = .ok (b', out))
    (hb : b.CounterInv) :
    b'.bitCnt.toNat = b.bitCnt.toNat + (bitsOf out).length ∧
      b'.decCnt.toNat = b.decCnt.toNat + (symsOf out).length := by
  have hlp := legal_phase hl
  cases i <;> simp only [ruleOf] at h <;> simp only [runsIn] at hlp
  case nop => cases h; exact ⟨rfl, rfl⟩
  case clear => exact absurd rfl hi
  case serialize => cases h; simp
  case count v =>
    unfold countRule at h; split at h <;> cases h
    have e := countOne_fields b v
    simp [e, bitsOf, symsOf]
  case build =>
    unfold buildRule at h; split at h <;> cases h
    have hs := hb.start (.inl (by rw [jobPhase_of_ne hp]; exact hlp))
    have h0 := bitCnt_zero hb hs.1
    simp [Block.withTree, h0, hs, bitsOf, symsOf]
  case encEnd => unfold encEndRule at h; split at h <;> cases h; exact ⟨rfl, rfl⟩
  case decEnd => unfold decEndRule at h; split at h <;> cases h; exact ⟨rfl, rfl⟩
  case encodeByte v =>
    obtain ⟨-, h2, rfl, rfl⟩ := encodeRule_ok h
    refine ⟨?_, by simp⟩
    show (b.bitCnt + (b.len.read v).setWidth 64).toNat = _
    rw [bitCnt_add hb h2, bitsOf_bits]
    simp [Block.codeOf, codeString]
  case decBit v =>
    have hd := hb.dec_le
    have ht := b.total.isLt
    have hinc : b.decCnt ≠ b.total → (b.decCnt + 1).toNat = b.decCnt.toNat + 1 := by
      intro hne
      have : b.decCnt.toNat ≠ b.total.toNat := fun e => hne (BitVec.eq_of_toNat_eq e)
      exact toNat_add_one (by omega)
    rcases decBitRule_ok h with ⟨-, -, rfl, rfl⟩ | ⟨hne, -, -, rfl, rfl⟩ | ⟨hne, -, -, rfl, rfl⟩ |
      ⟨-, -, -, rfl, rfl⟩
    · exact ⟨rfl, rfl⟩
    · exact ⟨rfl, hinc hne⟩
    · exact ⟨rfl, hinc hne⟩
    · exact ⟨rfl, rfl⟩
  case deserChar c =>
    rcases deserCharRule_ok h with ⟨rfl, ⟨_, _, _, -, rfl⟩ | ⟨-, -, -, -, -, rfl⟩⟩ <;> exact ⟨rfl, rfl⟩

/-! ## The end of a job (R135) -/

/-- A job has ended exactly where PHASE is DONE or ERROR; only the result asks for ERRPHASE. -/
theorem jobEnded_iff (s : State) : s.jobEnded = true ↔ s.phase = .done ∨ s.phase = .error := by
  by_cases h : s.phase = .error
  · cases he : s.errPhase <;> simp [State.jobEnded, State.jobSucceeded, State.jobFailed, Block.jobPhase, h, he]
  · simp [State.jobEnded, State.jobSucceeded, State.jobFailed, Block.jobPhase, h]

/-- The result speaks of PHASE and ERRPHASE only. -/
theorem jobResult_congr {s t : State} (h1 : t.phase = s.phase) (h2 : t.errPhase = s.errPhase) :
    t.jobSucceeded = s.jobSucceeded ∧ t.jobFailed = s.jobFailed := by
  simp [State.jobSucceeded, State.jobFailed, Block.jobPhase, h1, h2]

/-- An error in DONE does not change the result (R135). -/
theorem jobResult_errorEntry {s : State} (code : ErrCode) (w : CmdWord) (h : s.phase = .done) :
    (s.errorEntry code w).jobSucceeded = s.jobSucceeded ∧
      (s.errorEntry code w).jobFailed = s.jobFailed := by
  simp [State.jobSucceeded, State.jobFailed, Block.jobPhase, h]

/-- Every command but CLEAR that is legal in DONE leaves PHASE = DONE (R71, R135). -/
theorem phaseAfter_done {i : Instr} {src : Src} (hi : i ≠ .clear) (hl : legal i .done src = true) :
    phaseAfter i .done = .done := by
  cases i <;> simp_all [legal, phaseAfter]

/-- Once a job has ended, every step keeps its result, except one that begins a new job: CLEAR or
hardware reset (R135). -/
theorem step_keepsJobResult {s t : State} (hs : s.jobEnded = true) (h : step s = .next t) :
    t.toBlock = Block.reset ∨ (t.jobSucceeded = s.jobSucceeded ∧ t.jobFailed = s.jobFailed) := by
  have done_of : s.phase ≠ .error → s.phase = .done := ((jobEnded_iff s).mp hs).resolve_right
  rcases step_cases h with ⟨rfl, -⟩ | ⟨w, rest, -, -, hx⟩ | ⟨p, rest, -, rfl⟩ | ⟨a, rest, -, rfl⟩ |
    ⟨rest, -, rfl⟩ | ⟨rest, -, rfl⟩
  · exact .inr ⟨rfl, rfl⟩
  · rcases executeWord_cases hx with ⟨i, -, hi⟩ | ⟨r, -, ⟨-, rfl⟩ | ⟨hp, rfl⟩⟩
    · rcases exec_cases hi with ⟨-, rfl⟩ | ⟨-, rfl⟩ | ⟨hp, -, rfl⟩ | ⟨hp, hl, ⟨code, -, rfl⟩ | ⟨b, out, hr, rfl⟩⟩
      · exact .inl rfl
      · exact .inr ⟨rfl, rfl⟩
      · exact .inr (jobResult_errorEntry _ _ (done_of hp))
      · exact .inr (jobResult_errorEntry _ _ (done_of hp))
      · have hd : s.phase = .done := done_of hp
        by_cases hc : i = .clear
        · subst hc; cases hr; exact .inl rfl
        · refine .inr (jobResult_congr ?_ (ruleOf_errFields hc hr).2.1)
          have hph : b.phase = phaseAfter i s.phase := ruleOf_phase hr
          have hl' : legal i s.phase s.src = true := hl
          rw [hd] at hph hl'
          exact (hph.trans (phaseAfter_done hc hl')).trans hd.symm
    · exact .inr ⟨rfl, rfl⟩
    · exact .inr (jobResult_errorEntry _ _ (done_of hp))
  · rcases takeFrom_cases ({ s with host := rest } : State) p with he | ⟨o, more, -, -, -, he⟩
    · rw [he]; exact .inr ⟨rfl, rfl⟩
    · rw [he]; exact .inr (jobResult_congr (by simp) (by simp))
  · exact .inr ⟨rfl, rfl⟩
  · exact .inl rfl
  · exact .inr ⟨rfl, rfl⟩

/-- A command that succeeds with PHASE = DONE began there, or it is one that enters DONE and emits
nothing (R97, R105). -/
theorem ruleOf_reaches_done {i : Instr} {b b' : Block} {out : List Output}
    (h : ruleOf i b = .ok (b', out)) (hd : b'.phase = .done) : b.phase = .done ∨ out = [] := by
  have hp := ruleOf_phase h
  rw [hd] at hp
  by_cases he : i = .encEnd ∨ i = .decEnd
  · right
    rcases he with rfl | rfl <;> simp only [ruleOf, encEndRule, decEndRule] at h <;>
      split at h <;> cases h <;> rfl
  · left
    cases i <;> first | exact hp.symm | exact absurd (.inl rfl) he | exact absurd (.inr rfl) he | cases hp

/-- The step that ends a job leaves idle = 1: at that point every output value has transferred
(R46, R135). -/
theorem step_endsJob {s t : State} (hs : s.jobEnded = false) (h : step s = .next t)
    (ht : t.jobEnded = true) : t.idle = true := by
  have hne : ¬ (s.phase = .done ∨ s.phase = .error) := by
    rw [← jobEnded_iff, hs]; exact Bool.false_ne_true
  rw [jobEnded_iff] at ht
  rcases step_cases h with ⟨rfl, -⟩ | ⟨w, rest, -, hr, hx⟩ | ⟨p, rest, -, rfl⟩ | ⟨a, rest, -, rfl⟩ |
    ⟨rest, -, rfl⟩ | ⟨rest, -, rfl⟩
  · exact absurd ht hne
  · have hidle : s.idle = true := hr
    rcases executeWord_cases hx with ⟨i, -, hi⟩ | ⟨r, -, ⟨-, rfl⟩ | ⟨hp, rfl⟩⟩
    · rcases exec_cases hi with ⟨-, rfl⟩ | ⟨-, rfl⟩ | ⟨hp, -, rfl⟩ | ⟨hp, -, ⟨code, -, rfl⟩ | ⟨b, out, hr, rfl⟩⟩
      · exact hidle
      · exact hidle
      · exact hidle
      · exact hidle
      · have hbne : b.phase ≠ .error := ruleOf_phase_ne hp hr
        rcases ruleOf_reaches_done hr (ht.resolve_right hbne) with hd | rfl
        · exact absurd (.inl hd) hne
        · simpa [State.idle, State.complete] using hidle
    · exact hidle
    · exact hidle
  · rcases takeFrom_cases ({ s with host := rest } : State) p with he | ⟨o, more, -, -, -, he⟩
    · rw [he] at ht; exact absurd ht hne
    · rw [he] at ht; exact absurd (by simpa using ht) hne
  · exact absurd ht hne
  · simp [State.resetEdge, Block.reset] at ht
  · exact absurd ht hne

end Sys2Proof.Machine
end

