-- ==== Sys2Proof/Laws/Arena.lean ====
section
/-! SUPPORT. The arena and the code table of a block whose tree fields are those BUILD writes for its
table, in the block's own terms, and the walk over that arena. -/

namespace Sys2Proof.Machine

/-- The tree fields are those BUILD writes for the block's own table (R81). -/
structure Block.HasTree (b : Block) : Prop where
  node : b.node = overlay Block.reset.node (buildNodes b.entries)
  nnodes : b.nnodes = BitVec.ofNat 9 (buildNodes b.entries).length
  root : b.root = BitVec.ofNat 9 (rootOf (buildNodes b.entries))

/-- The code table is the one BUILD writes for the block's own table (R81). -/
structure Block.HasCodes (b : Block) : Prop where
  len : b.len = writeLens (deriveCodes b.entries.length (buildNodes b.entries)) Block.reset.len
  code : b.code = writeCodes (deriveCodes b.entries.length (buildNodes b.entries)) Block.reset.code

theorem Block.TreeCurrent.hasTree {b : Block} (h : b.TreeCurrent) (hb : b.built = true) : b.HasTree :=
  ⟨h.built_node hb, h.built_nnodes hb, h.built_root hb⟩

theorem Block.TreeCurrent.hasCodes {b : Block} (h : b.TreeCurrent) (hb : b.built = true) : b.HasCodes :=
  ⟨h.built_len hb, h.built_code hb⟩

/-! ## The arena's nodes -/

theorem buildNodes_length_le {b : Block} (h : b.TableInv) : (buildNodes b.entries).length ≤ 511 := by
  have h1 := entries_length_le h
  rw [buildNodes_length h1]
  omega

/-- The arena reads as the list of the nodes created. -/
theorem nodeAt_hasTree {b : Block} (h : b.TableInv) (ht : b.HasTree) (i : Nat) :
    b.nodeAt i = (buildNodes b.entries)[i]?.getD Node.zero := by
  have hl := buildNodes_length_le h
  have hr : (Block.reset.node)[i]?.getD Node.zero = Node.zero := nodeAt_reset i
  unfold Block.nodeAt
  rw [ht.node, overlay_getElem?, hr]
  split
  · rfl
  · rw [List.getElem?_eq_none (by omega)]
    rfl

theorem nnodes_toNat {b : Block} (h : b.TableInv) (ht : b.HasTree) :
    b.nnodes.toNat = 2 * b.nsym.toNat - 1 := by
  have hl := buildNodes_length_le h
  have he := buildNodes_length (entries_length_le h)
  rw [entries_length] at he
  rw [ht.nnodes, BitVec.toNat_ofNat, Nat.mod_eq_of_lt (by omega), he]

theorem root_toNat {b : Block} (h : b.TableInv) (ht : b.HasTree) :
    b.root.toNat = b.nnodes.toNat - 1 := by
  have hl := buildNodes_length_le h
  rw [ht.root, ht.nnodes, BitVec.toNat_ofNat, BitVec.toNat_ofNat]
  unfold rootOf
  split
  · rename_i h0
    rw [h0]
  · rw [Nat.mod_eq_of_lt (by omega), Nat.mod_eq_of_lt (by omega)]

/-- The leaves, in insertion order (R27 (b)). -/
theorem nodeAt_leaf {b : Block} (h : b.TableInv) (ht : b.HasTree) {i : Nat} (hi : i < b.nsym.toNat) :
    b.nodeAt i = { valid := true, leaf := true, sym := b.orderAt i, freq := b.cnt.read (b.orderAt i)
                   left := 0, right := 0 } := by
  have hl : 1 ≤ b.entries.length := by rw [entries_length]; omega
  have hg := growing_buildNodes hl (entries_length_le h)
  rw [nodeAt_hasTree h ht, hg.prefix_leaves i (by rw [entries_length]; exact hi)]
  simp [entries_getElem?, hi, Node.ofEntry]

theorem freqAt_buildNodes {b : Block} (h : b.TableInv) (ht : b.HasTree) (i : Nat) :
    freqAt (buildNodes b.entries) i = (b.nodeAt i).freq := by
  rw [nodeAt_hasTree h ht]
  rfl

/-- Every node is the root of a tree that weighs at most TOTAL (R88). -/
theorem node_represents {b : Block} (h : b.TableInv) (h1 : 1 ≤ b.nsym.toNat) {i : Nat}
    (hi : i < (buildNodes b.entries).length) :
    ∃ S, Represents (buildNodes b.entries) i S ∧ S.weight ≤ b.total.toNat := by
  have hl : 1 ≤ b.entries.length := by rw [entries_length]; exact h1
  have hsum : (b.entries.map fun e => e.2.toNat).sum < 2 ^ 32 := by
    rw [entries_sum h]; exact b.total.isLt
  have hg := growing_buildNodes hl (entries_length_le h)
  obtain ⟨T, hT, hp⟩ := buildNodes_represents hl (entries_length_le h) hsum
  have hw : T.weight = b.total.toNat := by
    rw [← entries_sum h]
    exact (hp.map _).sum_eq
  obtain ⟨d, hd⟩ : ∃ d, i + d + 1 = (buildNodes b.entries).length :=
    ⟨(buildNodes b.entries).length - 1 - i, by omega⟩
  induction d using Nat.strongRecOn generalizing i with
  | _ d ih =>
    by_cases h0 : d = 0
    · have : i = (buildNodes b.entries).length - 1 := by omega
      subst this
      exact ⟨T, hT, by omega⟩
    · obtain ⟨p, v, ⟨hkp, hpl, hc⟩, -⟩ := hg.parent i (by omega) (by
        simp only [List.mem_singleton]; omega)
      have hpi : i < p := by
        have hsome : (buildNodes b.entries)[p]? = some (buildNodes b.entries)[p] :=
          List.getElem?_eq_getElem hpl
        have hint := hg.internal p _ hkp hsome
        unfold childIn at hc
        rw [hsome] at hc
        simp only [Option.getD_some] at hc
        split at hc <;> omega
      obtain ⟨S, hS, hle⟩ := ih (d - (p - i)) (by omega) hpl (by omega)
      cases hS with
      | leaf hnd =>
        have := hg.internal p _ hkp hnd
        simp [Node.ofEntry] at this
      | @node _ nd l r hnd hleaf hl hr hfreq rl rr =>
        rw [CodeTree.weight_node] at hle
        unfold childIn at hc
        rw [hnd] at hc
        simp only [Option.getD_some] at hc
        split at hc
        · subst hc
          exact ⟨l, rl, by omega⟩
        · subst hc
          exact ⟨r, rr, by omega⟩

/-- No FREQ is above TOTAL (R88). -/
theorem freq_le_total {b : Block} (h : b.TableInv) (ht : b.HasTree) (i : Nat) :
    (b.nodeAt i).freq.toNat ≤ b.total.toNat := by
  rw [← freqAt_buildNodes h ht]
  by_cases hi : i < (buildNodes b.entries).length
  · have h1 : 1 ≤ b.nsym.toNat := by
      by_contra h0
      have : b.entries = [] := List.length_eq_zero_iff.mp (by rw [entries_length]; omega)
      rw [this, buildNodes_nil] at hi
      simp at hi
    obtain ⟨S, hS, hle⟩ := node_represents h h1 hi
    rw [hS.freq]
    exact hle
  · rw [freqAt, List.getElem?_eq_none (by omega)]
    simp [Node.zero]

/-- The internal nodes: smaller children, and the sum of their frequencies (R27 (c)). -/
theorem nodeAt_internal {b : Block} (h : b.TableInv) (ht : b.HasTree) {i : Nat}
    (hi : b.nsym.toNat ≤ i) (hi2 : i < b.nnodes.toNat) :
    (b.nodeAt i).valid = true ∧ (b.nodeAt i).leaf = false ∧ (b.nodeAt i).sym = 0 ∧
    (b.nodeAt i).left.toNat < i ∧ (b.nodeAt i).right.toNat < i ∧
    (b.nodeAt i).freq.toNat =
      (b.nodeAt (b.nodeAt i).left.toNat).freq.toNat + (b.nodeAt (b.nodeAt i).right.toNat).freq.toNat := by
  have hn := nnodes_toNat h ht
  have hlen := buildNodes_length (entries_length_le h)
  rw [entries_length] at hlen
  have hl : 1 ≤ b.entries.length := by rw [entries_length]; omega
  have hg := growing_buildNodes hl (entries_length_le h)
  have hsome : (buildNodes b.entries)[i]? = some ((buildNodes b.entries)[i]'(by omega)) :=
    List.getElem?_eq_getElem (by omega)
  have := hg.internal i _ (by rw [entries_length]; exact hi) hsome
  have hfreq : ((b.nodeAt i).freq).toNat =
      (freqAt (buildNodes b.entries) (b.nodeAt i).left.toNat).toNat +
        (freqAt (buildNodes b.entries) (b.nodeAt i).right.toNat).toNat := by
    obtain ⟨S, hS, -⟩ := node_represents h (by omega) (show i < (buildNodes b.entries).length by omega)
    rw [nodeAt_hasTree h ht i, hsome]
    cases hS with
    | leaf hnd =>
      rw [hsome] at hnd
      injection hnd with hnd
      have hl := this.2.1
      rw [hnd] at hl
      simp [Node.ofEntry] at hl
    | node hnd _ _ _ hf rl rr =>
      rw [hsome] at hnd
      injection hnd with hnd
      subst hnd
      rw [Option.getD_some, hf, rl.freq, rr.freq]
  rw [freqAt_buildNodes h ht, freqAt_buildNodes h ht] at hfreq
  refine ⟨?_, ?_, ?_, ?_, ?_, hfreq⟩ <;> rw [nodeAt_hasTree h ht i, hsome]
  · exact this.1
  · exact this.2.1
  · exact this.2.2.1
  · exact this.2.2.2.1
  · exact this.2.2.2.2.1

/-- The children of the internal nodes are taken in the order of R84 and R85 (R27 (c)). -/
theorem arena_order {b : Block} (h : b.TableInv) (ht : b.HasTree) {i : Nat}
    (hi : b.nsym.toNat ≤ i) (hi2 : i < b.nnodes.toNat) :
    b.FirstOf (b.WaitingAt i) (b.nodeAt i).left.toNat ∧
    b.FirstOf (fun j => b.WaitingAt i j ∧ j ≠ (b.nodeAt i).left.toNat) (b.nodeAt i).right.toNat := by
  have hn := nnodes_toNat h ht
  have hlen := buildNodes_length (entries_length_le h)
  have hel := entries_length b
  have hl : 1 ≤ b.entries.length := by omega
  have hc : ∀ p v, childIn (buildNodes b.entries) p v =
      (if v = false then (b.nodeAt p).left else (b.nodeAt p).right).toNat := by
    intro p v
    rw [nodeAt_hasTree h ht]
    rfl
  have hw : Waiting b.entries.length (buildNodes b.entries) i = b.WaitingAt i := by
    funext j
    simp only [Waiting, Block.WaitingAt, hc, hel, Bool.forall_bool, forall_and, if_true,
      Bool.true_eq_false, if_false]
  have hf : ∀ S m, FirstIn (buildNodes b.entries) S m ↔ b.FirstOf S m := by
    intro S m
    simp only [FirstIn, Block.FirstOf, precedes_iff, freqAt_buildNodes h ht]
  have := mergeOrder_buildNodes hl (entries_length_le h) i (by omega) (by omega)
  simpa only [hf, hw, hc, if_true, Bool.true_eq_false, if_false] using this

/-- A node of the arena is a leaf exactly below index NSYM (R27 (b), (c)). -/
theorem leaf_iff {b : Block} (h : b.TableInv) (ht : b.HasTree) {i : Nat} (hi : i < b.nnodes.toNat) :
    (b.nodeAt i).leaf = true ↔ i < b.nsym.toNat := by
  constructor
  · intro hleaf
    by_contra hge
    have := (nodeAt_internal h ht (by omega) hi).2.1
    simp [hleaf] at this
  · intro hlt
    rw [nodeAt_leaf h ht hlt]

/-! ## The walk (R102) -/

/-- The child a bit leads to. -/
def Block.childFrom (b : Block) (n : NodeIdx) (v : Bool) : NodeIdx :=
  if v = false then (b.nodeAt n.toNat).left else (b.nodeAt n.toNat).right

theorem descend_append (b : Block) (n : NodeIdx) (p q : BitString) :
    b.descend n (p ++ q) = b.descend (b.descend n p) q := by
  induction p generalizing n with
  | nil => rfl
  | cons v p ih => exact ih _

/-- A child of an internal node has a smaller index (R27 (c)). -/
theorem child_lt {b : Block} (h : b.TableInv) (ht : b.HasTree) {n : NodeIdx} (v : Bool)
    (hn : b.nsym.toNat ≤ n.toNat) (hn2 : n.toNat < b.nnodes.toNat) :
    (b.childFrom n v).toNat < n.toNat := by
  have := nodeAt_internal h ht hn hn2
  unfold Block.childFrom
  split
  · exact this.2.2.2.1
  · exact this.2.2.2.2.1

/-- From a leaf a walk stays on leaves, since a leaf's child fields are 0. -/
theorem descend_leaf {b : Block} (h : b.TableInv) (ht : b.HasTree) (n : NodeIdx) (p : BitString)
    (hn : n.toNat < b.nsym.toNat) : (b.descend n p).toNat < b.nsym.toNat := by
  induction p generalizing n with
  | nil => exact hn
  | cons v p ih =>
    have hc : (if v = false then (b.nodeAt n.toNat).left else (b.nodeAt n.toNat).right) = 0 := by
      rw [nodeAt_leaf h ht hn]
      split <;> rfl
    show (b.descend (if v = false then (b.nodeAt n.toNat).left else (b.nodeAt n.toNat).right) p).toNat < _
    rw [hc]
    exact ih 0 (by show 0 < _; omega)

/-- A walk that ends on an internal node went down by at least its length (R102). -/
theorem descend_length {b : Block} (h : b.TableInv) (ht : b.HasTree) (n : NodeIdx) (p : BitString)
    (hn2 : n.toNat < b.nnodes.toNat) (hm : b.nsym.toNat ≤ (b.descend n p).toNat) :
    (b.descend n p).toNat + p.length ≤ n.toNat := by
  induction p generalizing n with
  | nil => exact Nat.le_refl _
  | cons v p ih =>
    have hge : b.nsym.toNat ≤ n.toNat := by
      by_contra hlt
      have := descend_leaf h ht n (v :: p) (by omega)
      omega
    have hc := child_lt h ht v hge hn2
    have := ih (b.childFrom n v) (by omega) hm
    show (b.descend (b.childFrom n v) p).toNat + (p.length + 1) ≤ n.toNat
    omega

/-- The path of a represented tree's leaf leads to a leaf with its symbol (R89, R102). -/
theorem descend_code {b : Block} (h : b.TableInv) (ht : b.HasTree) {i : Nat} {T : CodeTree}
    (hT : Represents (buildNodes b.entries) i T) {v : Byte} {q : BitString} (hq : (v, q) ∈ T.codes []) :
    (b.nodeAt (b.descend (BitVec.ofNat 9 i) q).toNat).leaf = true ∧
      (b.nodeAt (b.descend (BitVec.ofNat 9 i) q).toNat).sym = v := by
  have hlen := buildNodes_length_le h
  induction hT generalizing v q with
  | @leaf i u c hnd =>
    simp only [CodeTree.codes, List.mem_singleton, Prod.mk.injEq] at hq
    obtain ⟨rfl, rfl⟩ := hq
    have hi := (List.getElem?_eq_some_iff.mp hnd).1
    have hm : (BitVec.ofNat 9 i).toNat = i := by
      rw [BitVec.toNat_ofNat, Nat.mod_eq_of_lt (by omega)]
    simp only [Block.descend, hm]
    rw [nodeAt_hasTree h ht, hnd]
    exact ⟨rfl, rfl⟩
  | @node i nd l r hnd hleaf hl hr hfreq rl rr ihl ihr =>
    have hi := (List.getElem?_eq_some_iff.mp hnd).1
    have hm : (BitVec.ofNat 9 i).toNat = i := by
      rw [BitVec.toNat_ofNat, Nat.mod_eq_of_lt (by omega)]
    simp only [CodeTree.codes, List.nil_append] at hq
    rw [l.codes_eq_map, r.codes_eq_map] at hq
    simp only [List.mem_append, List.mem_map, Prod.mk.injEq] at hq
    rcases hq with ⟨c, hc, rfl, rfl⟩ | ⟨c, hc, rfl, rfl⟩
    · have := ihl (v := c.1) (q := c.2) hc
      simp only [List.cons_append, List.nil_append, Block.descend, hm]
      rw [nodeAt_hasTree h ht i, hnd]
      simpa using this
    · have := ihr (v := c.1) (q := c.2) hc
      simp only [List.cons_append, List.nil_append, Block.descend, hm]
      rw [nodeAt_hasTree h ht i, hnd]
      simpa using this

/-! ## What the tree's invariants speak of -/

/-- A walk depends on the arena alone. -/
theorem descend_congr {b b' : Block} (hn : b'.node = b.node) (n : NodeIdx) (p : BitString) :
    b'.descend n p = b.descend n p := by
  induction p generalizing n with
  | nil => rfl
  | cons v p ih =>
    simp only [Block.descend, Block.nodeAt, hn]
    exact ih _

theorem Block.WalkInv.congr {b b' : Block} (h : b.WalkInv) (hn : b'.node = b.node)
    (h1 : b'.nnodes = b.nnodes) (h2 : b'.cur = b.cur) (h3 : b'.root = b.root)
    (h4 : b'.depth = b.depth) (h5 : b'.nsym = b.nsym) : b'.WalkInv := by
  constructor
  · rw [h1, h2, h3, h4]; exact h.few
  · rw [h1, h2, h3, h4, h5]
    simp only [descend_congr hn]
    exact h.path

theorem treeCurrent_reset : Block.reset.TreeCurrent := by
  constructor <;> simp [Block.reset]

/-- The tree stays current while its fields stay and, once it is built, the table stays. -/
theorem Block.TreeCurrent.congr {b b' : Block} (h : b.TreeCurrent) (h1 : b'.built = b.built)
    (he : b.built = true → b'.entries = b.entries) (h2 : b'.node = b.node)
    (h3 : b'.nnodes = b.nnodes) (h4 : b'.root = b.root) (h5 : b'.len = b.len)
    (h6 : b'.code = b.code) : b'.TreeCurrent := by
  constructor <;> rw [h1] <;> intro hb
  · rw [h2, he hb]; exact h.built_node hb
  · rw [h3, he hb]; exact h.built_nnodes hb
  · rw [h4, he hb]; exact h.built_root hb
  · rw [h5, he hb]; exact h.built_len hb
  · rw [h6, he hb]; exact h.built_code hb
  · rw [h2, h3, h4, h5, h6]; exact h.unbuilt hb

/-- BUILD on a block whose tree fields hold their reset values leaves its own table's tree (R81). -/
theorem withTree_hasTree {b : Block} (hn : b.node = Block.reset.node) : b.withTree.HasTree := by
  have he : b.withTree.entries = b.entries := rfl
  refine ⟨?_, rfl, rfl⟩
  rw [he, ← hn]
  rfl

theorem withTree_hasCodes {b : Block} (h1 : b.len = Block.reset.len) (h2 : b.code = Block.reset.code) :
    b.withTree.HasCodes := by
  have he : b.withTree.entries = b.entries := rfl
  refine ⟨?_, ?_⟩
  · rw [he, ← h1]; rfl
  · rw [he, ← h2]; rfl

end Sys2Proof.Machine
end

