-- ==== Sys2Proof/Laws/Encoding.lean ====
section
/-! SUPPORT. The decoder in terms of the two fields of a word (spec/30_encoding.md R66, R69, R70). -/

namespace Sys2Proof

/-- The word of two fields as a number. -/
theorem append_toNat (a b : Byte) : (a ++ b : CmdWord).toNat = 256 * a.toNat + b.toNat := by
  rw [BitVec.toNat_append, ← Nat.shiftLeft_add_eq_or_of_lt b.isLt, Nat.shiftLeft_eq]
  omega

/-- OPC as a number: the word's upper byte (R66). -/
theorem opcOf_toNat (w : CmdWord) : (opcOf w).toNat = w.toNat / 256 := by
  simp only [opcOf, BitVec.extractLsb'_toNat, Nat.shiftRight_eq_div_pow]
  have := w.isLt
  omega

/-- ARG as a number: the word's lower byte (R66). -/
theorem argOf_toNat (w : CmdWord) : (argOf w).toNat = w.toNat % 256 := by
  simp [argOf, BitVec.extractLsb'_toNat]

@[simp] theorem opcOf_append (a b : Byte) : opcOf (a ++ b) = a := by
  apply BitVec.eq_of_toNat_eq
  rw [opcOf_toNat, append_toNat]
  have := b.isLt
  omega

@[simp] theorem argOf_append (a b : Byte) : argOf (a ++ b) = b := by
  apply BitVec.eq_of_toNat_eq
  rw [argOf_toNat, append_toNat]
  have := b.isLt
  omega

/-- A word is its two fields side by side (R66). -/
theorem word_eq_fields (w : CmdWord) : w = opcOf w ++ argOf w := by
  apply BitVec.eq_of_toNat_eq
  rw [append_toNat, opcOf_toNat, argOf_toNat]
  omega

/-- The fields of a command's word are the ones the opcode map gives it (R68). -/
@[simp] theorem opcOf_encode (i : Instr) : opcOf (encode i) = opcodeOf i := opcOf_append _ _
@[simp] theorem argOf_encode (i : Instr) : argOf (encode i) = argumentOf i := argOf_append _ _

/-- Form V allows exactly the two values of one bit (R67). -/
theorem formV_iff (arg : Byte) :
    arg.extractLsb' 1 7 = 0 ↔ arg = (BitVec.ofBool (arg.getLsbD 0)).setWidth 8 := by
  revert arg; decide +kernel

/-- What decoding a word to a command says of its two fields. -/
theorem decode_fields {w : CmdWord} {i : Instr} (h : decode w = .ok i) :
    opcOf w = opcodeOf i ∧ argOf w = argumentOf i := by
  simp only [decode, decodeFormN, decodeFormB, decodeFormV] at h
  (repeat' split at h) <;> cases h <;> refine ⟨by assumption, ?_⟩ <;>
    first
      | rfl
      | assumption
      | exact (formV_iff _).mp (by assumption)

/-- The decoder accepts a word exactly when its fields are well formed (R70). -/
theorem decode_isOk_iff_wellFormed (w : CmdWord) :
    (decode w).isOk = (CmdFields.ofWord w).wellFormed := by
  have ho : (CmdFields.ofWord w).opc = opcOf w := rfl
  have ha : (CmdFields.ofWord w).arg = argOf w := rfl
  simp only [CmdFields.wellFormed, ho, ha]
  generalize hx : opcOf w = x
  have hform : ∀ x : Byte, formOfOpc x =
      if x = 0x00 ∨ x = 0x01 ∨ x = 0x20 ∨ x = 0x31 ∨ x = 0x41 ∨ x = 0x50 then some .N
      else if x = 0x10 ∨ x = 0x30 ∨ x = 0x51 then some .B
      else if x = 0x40 then some .V else none := by intro x; simp [formOfOpc]
  rw [hform]
  simp only [decode, decodeFormN, decodeFormB, decodeFormV, hx]
  by_cases h0 : x = 0x00
  · subst h0; by_cases h : argOf w = 0#8 <;> simp [h, Form.argOk, Except.isOk, Except.toBool]
  by_cases h1 : x = 0x01
  · subst h1; by_cases h : argOf w = 0#8 <;> simp [h, Form.argOk, Except.isOk, Except.toBool]
  by_cases h2 : x = 0x10
  · subst h2; simp [Form.argOk, Except.isOk, Except.toBool]
  by_cases h3 : x = 0x20
  · subst h3; by_cases h : argOf w = 0#8 <;> simp [h, Form.argOk, Except.isOk, Except.toBool]
  by_cases h4 : x = 0x30
  · subst h4; simp [Form.argOk, Except.isOk, Except.toBool]
  by_cases h5 : x = 0x31
  · subst h5; by_cases h : argOf w = 0#8 <;> simp [h, Form.argOk, Except.isOk, Except.toBool]
  by_cases h6 : x = 0x40
  · subst h6
    by_cases h : (argOf w).extractLsb' 1 7 = 0#7 <;> simp [h, Form.argOk, Except.isOk, Except.toBool]
  by_cases h7 : x = 0x41
  · subst h7; by_cases h : argOf w = 0#8 <;> simp [h, Form.argOk, Except.isOk, Except.toBool]
  by_cases h8 : x = 0x50
  · subst h8; by_cases h : argOf w = 0#8 <;> simp [h, Form.argOk, Except.isOk, Except.toBool]
  by_cases h9 : x = 0x51
  · subst h9; simp [Form.argOk, Except.isOk, Except.toBool]
  simp_all [Except.isOk, Except.toBool]

end Sys2Proof
end

