-- ==== Sys2Proof/Laws/Runs.lean ====
section
/-! SUPPORT. Sequences of commands, and what a sound table is determined by. -/

namespace Sys2Proof.Machine

/-- The machine with the block's fields replaced and all else left alone. -/
def State.withBlock (s : State) (b : Block) : State := { s with toBlock := b }

@[simp] theorem withBlock_toBlock (s : State) (b : Block) : (s.withBlock b).toBlock = b := rfl
@[simp] theorem withBlock_offered (s : State) (b : Block) : (s.withBlock b).offered = s.offered := rfl
@[simp] theorem withBlock_withBlock (s : State) (b c : Block) :
    (s.withBlock b).withBlock c = s.withBlock c := rfl
@[simp] theorem withBlock_self (s : State) : s.withBlock s.toBlock = s := rfl

@[simp] theorem execAll_nil (s : State) : execAll [] s = .next s := rfl

theorem execAll_cons {i : Instr} {is : List Instr} {s t : State} (h : exec i s = .next t) :
    execAll (i :: is) s = execAll is t := by
  simp [execAll, h]

/-- Commands run one after another (R60). -/
theorem execAll_append {is js : List Instr} {s t : State} (h : execAll is s = .next t) :
    execAll (is ++ js) s = execAll js t := by
  induction is generalizing s with
  | nil =>
    simp only [execAll_nil] at h
    injection h with h
    rw [h, List.nil_append]
  | cons i is ih =>
    simp only [List.cons_append, execAll] at h ⊢
    cases hx : exec i s with
    | next u => rw [hx] at h; exact ih h
    | fault r => rw [hx] at h; cases h
    | refused r => rw [hx] at h; cases h

/-! ## A host that drains (R144; log entry 19) -/

section
variable (s : State)

@[simp] theorem drained_toBlock : s.drained.toBlock = s.toBlock := rfl
@[simp] theorem drained_offered : s.drained.offered = [] := rfl
@[simp] theorem drained_inReset : s.drained.inReset = s.inReset := rfl
@[simp] theorem drained_host : s.drained.host = s.host := rfl
@[simp] theorem drained_emittedBits : s.drained.emittedBits = s.emittedBits := by
  simp [State.drained, State.emittedBits]
@[simp] theorem drained_emittedSyms : s.drained.emittedSyms = s.emittedSyms := by
  simp [State.drained, State.emittedSyms]
@[simp] theorem drained_emittedTxts : s.drained.emittedTxts = s.emittedTxts := by
  simp [State.drained, State.emittedTxts]
@[simp] theorem drained_markNow : s.drained.markNow = s.markNow := by simp [State.markNow]
@[simp] theorem drained_drained : s.drained.drained = s.drained := by
  simp [State.drained, State.emittedBits, State.emittedSyms, State.emittedTxts]

end

/-- Draining commutes with the error entry, CLEAR and completion, up to what is still offered. -/
theorem drained_errorEntry (s : State) (code : ErrCode) (w : CmdWord) :
    (s.drained.errorEntry code w).drained = (s.errorEntry code w).drained := by
  simp [State.drained, State.errorEntry, State.emittedBits, State.emittedSyms, State.emittedTxts]

theorem drained_clear (s : State) : s.drained.clear.drained = s.clear.drained := by
  simp [State.drained, State.clear, State.markNow, State.emittedBits, State.emittedSyms,
    State.emittedTxts]

theorem drained_complete (s : State) (b : Block) (out : List Output) :
    (s.drained.complete b out).drained = (s.complete b out).drained := by
  simp [State.drained, State.complete, State.emittedBits, State.emittedSyms, State.emittedTxts]

/-- Whether earlier values have transferred makes no difference to a command (R50). -/
theorem exec_drained {i : Instr} {s t : State} (h : exec i s = .next t) :
    ∃ u, exec i s.drained = .next u ∧ u.drained = t.drained := by
  rcases exec_cases h with ⟨rfl, rfl⟩ | ⟨hp, rfl⟩ | ⟨hp, hl, rfl⟩ | ⟨hp, hl, ⟨code, hr, rfl⟩ | ⟨b, out, hr, rfl⟩⟩
  · exact ⟨_, rfl, drained_clear s⟩
  · by_cases hi : i = .clear
    · subst hi
      rw [exec_clear] at h
      injection h with h
      exact ⟨_, rfl, by rw [drained_clear, h]⟩
    · exact ⟨_, by rw [exec_eq_commandRule _ _ hi]; exact commandRule_error _ _ _ hp,
        drained_drained t⟩
  · have hi : i ≠ .clear := by
      rintro rfl
      simp [legal] at hl
    exact ⟨_, by rw [exec_eq_commandRule _ _ hi]; exact commandRule_illegal _ _ _ hp hl,
      drained_errorEntry _ _ _⟩
  · have hi : i ≠ .clear := by
      rintro rfl
      cases hr
    exact ⟨_, by rw [exec_eq_commandRule _ _ hi]; exact commandRule_raise _ _ _ _ hp hl hr,
      drained_errorEntry _ _ _⟩
  · by_cases hi : i = .clear
    · subst hi
      rw [exec_clear] at h
      injection h with h
      exact ⟨_, rfl, by rw [drained_clear, h]⟩
    · exact ⟨_, by rw [exec_eq_commandRule _ _ hi]; exact commandRule_complete _ _ _ _ _ hp hl hr,
        drained_complete _ _ _⟩

/-- What `execAll` says of a sequence of commands holds with a host that drains (R144): the same state,
with every value transferred. -/
theorem execDraining_of_execAll {is : List Instr} {s t : State} (h : execAll is s = .next t) :
    execDraining is s.drained = .next t.drained := by
  induction is generalizing s with
  | nil =>
    rw [execAll_nil] at h
    injection h with h
    rw [h, execDraining]
  | cons i is ih =>
    obtain ⟨u, hu⟩ := exec_next i s
    rw [execAll_cons hu] at h
    obtain ⟨v, hv, he⟩ := exec_drained hu
    simp only [execDraining, hv, he]
    exact ih h

/-! ## One command -/

/-- A command whose rule succeeds and emits nothing changes the block alone. -/
theorem exec_silent {i : Instr} {s : State} {b : Block} (hi : i ≠ .clear) (hp : s.phase ≠ .error)
    (hl : legal i s.phase s.src = true) (hr : ruleOf i s.toBlock = .ok (b, [])) :
    exec i s = .next (s.withBlock b) := by
  rw [exec_eq_commandRule i s hi, commandRule_complete i s _ b [] hp hl hr]
  simp [State.complete, State.withBlock]

/-- A command whose rule succeeds. -/
theorem exec_emits {i : Instr} {s : State} {b : Block} {out : List Output} (hi : i ≠ .clear)
    (hp : s.phase ≠ .error) (hl : legal i s.phase s.src = true)
    (hr : ruleOf i s.toBlock = .ok (b, out)) :
    exec i s = .next { s with toBlock := b, offered := s.offered ++ out } := by
  rw [exec_eq_commandRule i s hi, commandRule_complete i s _ b out hp hl hr]
  rfl

/-- A command whose rule raises an error (R119). -/
theorem exec_raises {i : Instr} {s : State} {code : ErrCode} (hi : i ≠ .clear) (hp : s.phase ≠ .error)
    (hl : legal i s.phase s.src = true) (hr : ruleOf i s.toBlock = .error code) :
    exec i s = .next { s with errCode := code, errPhase := s.phase, errCmd := encode i, phase := .error } := by
  rw [exec_eq_commandRule i s hi, commandRule_raise i s _ code hp hl hr]
  rfl

/-- A command out of phase (R71, R119). -/
theorem exec_outOfPhase {i : Instr} {s : State} (hp : s.phase ≠ .error)
    (hl : legal i s.phase s.src = false) :
    exec i s = .next { s with errCode := .sequence, errPhase := s.phase, errCmd := encode i
                              phase := .error } := by
  have hi : i ≠ .clear := by
    rintro rfl
    simp [legal] at hl
  rw [exec_eq_commandRule i s hi, commandRule_illegal i s _ hp hl]
  rfl

/-! ## A sound table is determined by its entries (R92 (e)) -/

theorem table_ext {b b' : Block} (h : b.TableInv) (h' : b'.TableInv) (he : b'.entries = b.entries) :
    b'.nsym = b.nsym ∧ b'.order = b.order ∧ b'.cnt = b.cnt ∧ b'.total = b.total := by
  have hn : b'.nsym.toNat = b.nsym.toNat := by
    rw [← entries_length, ← entries_length, he]
  have hat : ∀ i, b'.orderAt i = b.orderAt i := by
    intro i
    by_cases hi : i < b.nsym.toNat
    · have := congrArg (fun l => l[i]?) he
      simp only [entries_getElem?, hn, if_pos hi, Option.some.injEq, Prod.mk.injEq] at this
      exact this.1
    · rw [h.tail.2 i (by omega), h'.tail.2 i (by omega)]
  refine ⟨BitVec.eq_of_toNat_eq hn, ?_, ?_, ?_⟩
  · apply Vector.ext
    intro i hi
    have := hat i
    simpa [Block.orderAt, hi] using this
  · apply SymTable.ext_read
    intro v
    by_cases hv : v ∈ b.entries.map Prod.fst
    · obtain ⟨e, hem, rfl⟩ := List.mem_map.mp hv
      rw [← entry_count hem, ← entry_count (he ▸ hem : e ∈ b'.entries)]
    · have h0 : ∀ {c : Block}, c.TableInv → v ∉ c.entries.map Prod.fst → c.cnt.read v = 0 := by
        intro c hc hm
        rw [mem_entries_iff hc] at hm
        apply BitVec.eq_of_toNat_eq
        simpa using hm
      rw [h0 h hv, h0 h' (he ▸ hv)]
  · apply BitVec.eq_of_toNat_eq
    rw [← entries_sum h, ← entries_sum h', he]

/-- Entering a new symbol appends its entry (R76, R113). -/
theorem entries_enter {b b' : Block} (h : b.TableInv) (v : Byte) (x : Count) (hv : b.cnt.read v = 0)
    (hc : b'.cnt = b.cnt.write v x) (ho : b'.order = (b.appendOrder v).order)
    (hn : b'.nsym = b.nsym + 1) : b'.entries = b.entries ++ [(v, x)] := by
  have hlt := nsym_lt_of_absent h hv
  have hn' : b'.nsym.toNat = b.nsym.toNat + 1 := by
    rw [hn, BitVec.toNat_add]; simp; omega
  have hat : ∀ i, b'.orderAt i = if i = b.nsym.toNat ∧ i < 256 then v else b.orderAt i := by
    intro i
    rw [← orderAt_appendOrder]
    simp only [Block.orderAt]
    rw [ho]
  unfold Block.entries
  rw [hn', List.range_succ, List.map_append]
  congr 1
  · apply List.map_congr_left
    intro i hi
    have hi' : i < b.nsym.toNat := by simpa using hi
    have hne : b.orderAt i ≠ v := by
      intro e
      have := (h.present v).mpr ⟨i, hi', e⟩
      simp [hv] at this
    rw [hat, if_neg (by omega), hc, read_write, if_neg hne]
  · simp [hat, hlt, hc]

end Sys2Proof.Machine
end

