-- ==== Sys2Proof/Laws/Parser.lean ====
section
/-! SUPPORT. The side file: the decimal digits, one record read by DESER_CHAR, and a whole side file
read back into a table. -/

namespace Sys2Proof.Machine

/-! ## Decimal (R111) -/

/-- The value of some digits read after a number. -/
def valueFrom (n : Nat) (ds : List Nat) : Nat := ds.foldl (fun n d => 10 * n + d) n

theorem valueFrom_append (n : Nat) (ds es : List Nat) :
    valueFrom n (ds ++ es) = valueFrom (valueFrom n ds) es := by simp [valueFrom]

theorem le_valueFrom (n : Nat) (ds : List Nat) : n ≤ valueFrom n ds := by
  induction ds generalizing n with
  | nil => exact Nat.le_refl _
  | cons d ds ih =>
    have : valueFrom n (d :: ds) = valueFrom (10 * n + d) ds := rfl
    rw [this]
    have := ih (10 * n + d)
    omega

/-- Enough fuel gives digits below ten that write the number, at least one of them. -/
theorem decimalDigits_spec (fuel c : Nat) (h : c < 10 ^ fuel) (hf : 1 ≤ fuel) :
    valueFrom 0 (decimalDigits fuel c) = c ∧ (∀ d ∈ decimalDigits fuel c, d < 10) ∧
      1 ≤ (decimalDigits fuel c).length := by
  induction fuel generalizing c with
  | zero => omega
  | succ fuel ih =>
    unfold decimalDigits
    split
    · rename_i hc
      refine ⟨by simp [valueFrom], by simpa using hc, by simp⟩
    · rename_i hc
      have hfuel : 1 ≤ fuel := by
        rcases Nat.eq_zero_or_pos fuel with h0 | h0
        · subst h0; simp at h; omega
        · exact h0
      have hdiv : c / 10 < 10 ^ fuel := by
        rw [Nat.pow_succ] at h
        omega
      obtain ⟨h1, h2, h3⟩ := ih (c / 10) hdiv hfuel
      refine ⟨?_, ?_, by simp⟩
      · rw [valueFrom_append, h1]
        simp only [valueFrom, List.foldl_cons, List.foldl_nil]
        omega
      · intro d hd
        rcases List.mem_append.mp hd with hd | hd
        · exact h2 d hd
        · have : d = c % 10 := by simpa using hd
          omega

/-! ## One record (R112, R113) -/

/-- A DESER_CHAR that its rule accepts. -/
theorem exec_deserChar {s : State} {c : Byte} {b : Block} (hp : s.phase = .collect)
    (hsrc : s.src ≠ .scan) (hr : deserCharRule c s.toBlock = .ok (b, [])) :
    exec (.deserChar c) s = .next (s.withBlock b) := by
  refine exec_silent (i := .deserChar c) (by simp) (by simp [hp]) ?_ hr
  simp [legal, hp, hsrc]

/-- The block after some of a symbol's digits, or after a character of the count. -/
def Block.parsing (b : Block) (pos : ParsePos) (psym : Byte) (pcnt : Count) : Block :=
  { b with pstate := pos, psym := psym, pcnt := pcnt, src := .text }

theorem digitChar_decimal {d : Nat} (h : d < 10) :
    isDecimalDigit (digitChar d) = true ∧ digitValue (digitChar d) = d := by
  have : (digitChar d).toNat = 0x30 + d := by
    simp only [digitChar, BitVec.toNat_ofNat]
    exact Nat.mod_eq_of_lt (by omega)
  simp [isDecimalDigit, digitValue, this]
  omega

/-- The eight digits of a symbol, from the start of a record. -/
theorem run_symbolText (s : State) (v : Byte) (hp : s.phase = .collect) (hsrc : s.src ≠ .scan)
    (hps : s.pstate = .symDigit 0) (hpsym : s.psym = 0) :
    execAll (deserOf (symbolText v)) s =
      .next (s.withBlock (s.toBlock.parsing .colon v s.pcnt)) := by
  have hbit : ∀ x : Bool, isBinaryDigit (digitChar x.toNat) = true := by decide
  have step : ∀ (u : State) (k : Fin 8) (x : Bool), u.phase = .collect → u.src ≠ .scan →
      u.pstate = .symDigit k →
      exec (.deserChar (digitChar x.toNat)) u =
        .next (u.withBlock (u.toBlock.parsing (ParsePos.afterDigit k)
          (shiftInDigit u.psym (digitChar x.toNat)) u.pcnt)) := by
    intro u k x h1 h2 h3
    apply exec_deserChar h1 h2
    simp [deserCharRule, h3, symDigitRule, hbit, Block.parsing]
  have hval : ∀ v : Byte,
      shiftInDigit (shiftInDigit (shiftInDigit (shiftInDigit (shiftInDigit (shiftInDigit (shiftInDigit
        (shiftInDigit 0 (digitChar (v.getLsbD 7).toNat)) (digitChar (v.getLsbD 6).toNat))
        (digitChar (v.getLsbD 5).toNat)) (digitChar (v.getLsbD 4).toNat))
        (digitChar (v.getLsbD 3).toNat)) (digitChar (v.getLsbD 2).toNat))
        (digitChar (v.getLsbD 1).toNat)) (digitChar (v.getLsbD 0).toNat) = v := by decide +kernel
  simp only [symbolText, deserOf, List.map_cons, List.map_nil]
  rw [execAll_cons (step s 0 _ hp hsrc hps), execAll_cons (step _ 1 _ ?_ ?_ ?_),
    execAll_cons (step _ 2 _ ?_ ?_ ?_), execAll_cons (step _ 3 _ ?_ ?_ ?_),
    execAll_cons (step _ 4 _ ?_ ?_ ?_), execAll_cons (step _ 5 _ ?_ ?_ ?_),
    execAll_cons (step _ 6 _ ?_ ?_ ?_), execAll_cons (step _ 7 _ ?_ ?_ ?_)]
  · simp only [execAll_nil, withBlock_withBlock, withBlock_toBlock, Block.parsing, hpsym, hval v]
    rfl
  all_goals first
    | exact hp
    | rfl
    | simp [Block.parsing]

/-- Further digits of a count, while their value fits (R112). -/
theorem run_moreDigits (ds : List Nat) (hds : ∀ d ∈ ds, d < 10) (s : State) (hp : s.phase = .collect)
    (hsrc : s.src = .text) (hps : s.pstate = .moreDigits)
    (hmax : valueFrom s.pcnt.toNat ds ≤ Config.cntMax) :
    execAll (deserOf (ds.map digitChar)) s =
      .next (s.withBlock { s.toBlock with pcnt := BitVec.ofNat 32 (valueFrom s.pcnt.toNat ds) }) := by
  have hcm : Config.cntMax = 4294967295 := by decide
  induction ds generalizing s with
  | nil =>
    simp only [List.map_nil, deserOf, execAll_nil, valueFrom, List.foldl_nil, BitVec.ofNat_toNat,
      BitVec.setWidth_eq]
    rfl
  | cons d ds ih =>
    have hd := digitChar_decimal (hds d (by simp))
    have hval : valueFrom s.pcnt.toNat (d :: ds) = valueFrom (10 * s.pcnt.toNat + d) ds := rfl
    have hle := le_valueFrom (10 * s.pcnt.toNat + d) ds
    rw [hval] at hmax ⊢
    have hstep : exec (.deserChar (digitChar d)) s =
        .next (s.withBlock { s.toBlock with pcnt := BitVec.ofNat 32 (s.pcnt.toNat * 10 + d) }) := by
      have hr : deserCharRule (digitChar d) s.toBlock =
          .ok ({ s.toBlock with pcnt := BitVec.ofNat 32 (s.pcnt.toNat * 10 + d), src := .text }, []) := by
        have hfit : s.pcnt.toNat * 10 + d ≤ Config.cntMax := by omega
        simp [deserCharRule, hps, moreDigitsRule, hd.1, hd.2, hfit]
      rw [exec_deserChar hp (by simp [hsrc]) hr, ← hsrc]
    have hn : (BitVec.ofNat 32 (s.pcnt.toNat * 10 + d)).toNat = 10 * s.pcnt.toNat + d := by
      rw [BitVec.toNat_ofNat, Nat.mod_eq_of_lt (by omega)]
      omega
    simp only [deserOf, List.map_cons]
    rw [execAll_cons hstep]
    have := ih (fun e he => hds e (by simp [he]))
      (s.withBlock { s.toBlock with pcnt := BitVec.ofNat 32 (s.pcnt.toNat * 10 + d) }) hp hsrc hps
      (by simp only [withBlock_toBlock, hn]; exact hmax)
    simp only [withBlock_toBlock, withBlock_withBlock, hn] at this
    exact this

/-- The block after a record is committed (R113). -/
def Block.committed (b : Block) (v : Byte) (c : Count) : Block :=
  { b.appendOrder v with
    cnt := b.cnt.write v c, total := b.total + c
    pstate := .symDigit 0, psym := 0, pcnt := 0, src := .text }

/-- A whole record, read from the start of a record, enters its symbol (R112, R113). -/
theorem run_recordText (s : State) (v : Byte) (c : Count) (hp : s.phase = .collect)
    (hsrc : s.src ≠ .scan) (hps : s.pstate = .symDigit 0) (hpsym : s.psym = 0)
    (hv : s.cnt.read v = 0) (hc : c ≠ 0) (hsum : s.total.toNat + c.toNat ≤ Config.cntMax) :
    execAll (deserOf (recordText (v, c))) s = .next (s.withBlock (s.toBlock.committed v c)) := by
  have hcm : Config.cntMax = 4294967295 := by decide
  obtain ⟨hval, hlt, hlen⟩ := decimalDigits_spec 10 c.toNat (by have := c.isLt; omega) (by omega)
  obtain ⟨d, ds, hdd⟩ : ∃ d ds, decimal c = d :: ds := by
    cases hdd : decimal c with
    | nil => unfold decimal at hdd; rw [hdd] at hlen; simp at hlen
    | cons d ds => exact ⟨d, ds, rfl⟩
  have hdd' : decimalDigits 10 c.toNat = d :: ds := hdd
  rw [hdd'] at hval hlt
  have hd10 := hlt d (by simp)
  have hd := digitChar_decimal hd10
  have hval' : valueFrom d ds = c.toNat := by simpa [valueFrom] using hval
  unfold recordText countText
  rw [hdd]
  simp only [deserOf, List.map_append, List.map_cons, List.append_assoc]
  have h1 := run_symbolText s v hp hsrc hps hpsym
  simp only [deserOf] at h1
  rw [execAll_append h1]
  simp only [List.cons_append, List.map_nil, List.nil_append]
  have hcolon : exec (.deserChar charColon) (s.withBlock (s.toBlock.parsing .colon v s.pcnt)) =
      .next (s.withBlock (s.toBlock.parsing .firstDigit v s.pcnt)) :=
    exec_deserChar (s := s.withBlock (s.toBlock.parsing .colon v s.pcnt)) hp (by simp [Block.parsing])
      (by simp [deserCharRule, Block.parsing, colonRule])
  have hfirst : exec (.deserChar (digitChar d)) (s.withBlock (s.toBlock.parsing .firstDigit v s.pcnt)) =
      .next (s.withBlock (s.toBlock.parsing .moreDigits v (BitVec.ofNat 32 d))) :=
    exec_deserChar (s := s.withBlock (s.toBlock.parsing .firstDigit v s.pcnt)) hp
      (by simp [Block.parsing]) (by simp [deserCharRule, Block.parsing, firstDigitRule, hd.1, hd.2])
  rw [execAll_cons hcolon, execAll_cons hfirst]
  -- the other digits
  have hdn : (BitVec.ofNat 32 d).toNat = d := by
    rw [BitVec.toNat_ofNat, Nat.mod_eq_of_lt (by omega)]
  have h2 := run_moreDigits ds (fun e he => hlt e (by simp [he]))
    (s.withBlock (s.toBlock.parsing .moreDigits v (BitVec.ofNat 32 d))) hp rfl rfl
    (by
      show valueFrom (BitVec.ofNat 32 d).toNat ds ≤ _
      rw [hdn, hval']
      have := c.isLt
      omega)
  simp only [deserOf] at h2
  have hblock : BitVec.ofNat 32 (valueFrom (BitVec.ofNat 32 d).toNat ds) = c := by
    rw [hdn, hval', BitVec.ofNat_toNat, BitVec.setWidth_eq]
  have h3 : execAll (List.map Instr.deserChar (List.map digitChar ds))
      (s.withBlock (s.toBlock.parsing .moreDigits v (BitVec.ofNat 32 d))) =
      .next (s.withBlock (s.toBlock.parsing .moreDigits v c)) := by
    rw [h2]
    show Host.Outcome.next (s.withBlock
      (s.toBlock.parsing .moreDigits v (BitVec.ofNat 32 (valueFrom (BitVec.ofNat 32 d).toNat ds)))) = _
    rw [hblock]
  rw [execAll_append h3]
  -- the space
  have hnd : isDecimalDigit charSpace = false := by decide
  have hc' : ¬ c = 0#32 := hc
  have hv' : s.cnt.read v = 0#32 := hv
  have hspace : exec (.deserChar charSpace) (s.withBlock (s.toBlock.parsing .moreDigits v c)) =
      .next (s.withBlock (s.toBlock.committed v c)) :=
    exec_deserChar (s := s.withBlock (s.toBlock.parsing .moreDigits v c)) hp (by simp [Block.parsing])
      (by simp [deserCharRule, moreDigitsRule, hnd, commitRule, hc', hv', hsum, Block.parsing,
            Block.committed, Block.appendOrder])
  rw [execAll_cons hspace]
  rfl

theorem tableInv_committed {b : Block} (h : b.TableInv) {v : Byte} {c : Count} (hv : b.cnt.read v = 0)
    (hc : c ≠ 0) (hsum : b.total.toNat + c.toNat ≤ Config.cntMax) : (b.committed v c).TableInv :=
  tableInv_enter h v c hv hc hsum rfl rfl rfl rfl

theorem entries_committed {b : Block} (h : b.TableInv) {v : Byte} {c : Count}
    (hv : b.cnt.read v = 0) : (b.committed v c).entries = b.entries ++ [(v, c)] :=
  entries_enter h v c hv rfl rfl rfl

/-- A side file, read between records, enters its records in order: it leaves a sound table with
those entries after the ones before, and touches nothing but the table and the parser (R113, R115). -/
theorem run_sideFile (es : List (Byte × Count)) (s : State) (hinv : s.TableInv)
    (hp : s.phase = .collect) (hsrc : s.src ≠ .scan) (hps : s.pstate = .symDigit 0)
    (hpsym : s.psym = 0) (hpcnt : s.pcnt = 0)
    (hnd : ((s.entries ++ es).map Prod.fst).Nodup) (hpos : ∀ e ∈ es, e.2 ≠ 0)
    (hsum : s.total.toNat + (es.map fun e => e.2.toNat).sum ≤ Config.cntMax) :
    ∃ b, execAll (deserOf (sideFile es)) s = .next (s.withBlock b) ∧
      b.TableInv ∧ b.entries = s.entries ++ es ∧ b.pstate = .symDigit 0 ∧ b.psym = 0 ∧ b.pcnt = 0 ∧
      b.src = (if es = [] then s.src else .text) ∧
      b = { s.toBlock with cnt := b.cnt, order := b.order, nsym := b.nsym, total := b.total, src := b.src } := by
  induction es generalizing s with
  | nil =>
    refine ⟨s.toBlock, rfl, hinv, by simp, hps, hpsym, hpcnt, by simp, rfl⟩
  | cons e es ih =>
    obtain ⟨v, c⟩ := e
    have hcm : Config.cntMax = 4294967295 := by decide
    have hv : s.cnt.read v = 0 := by
      have hnot : v ∉ s.entries.map Prod.fst := by
        intro hm
        rw [List.map_append, List.nodup_append] at hnd
        exact hnd.2.2 v hm v (by simp) rfl
      rw [mem_entries_iff hinv] at hnot
      apply BitVec.eq_of_toNat_eq
      simpa using hnot
    have hc : c ≠ 0 := hpos (v, c) (by simp)
    have hle : s.total.toNat + c.toNat ≤ Config.cntMax := by
      simp only [List.map_cons, List.sum_cons] at hsum
      omega
    have hrec := run_recordText s v c hp hsrc hps hpsym hv hc hle
    have hinv' := tableInv_committed hinv hv hc hle
    have hent := entries_committed (c := c) hinv hv
    have htot : (s.toBlock.committed v c).total.toNat = s.total.toNat + c.toNat := by
      show (s.total + c).toNat = _
      rw [BitVec.toNat_add]
      exact Nat.mod_eq_of_lt (by omega)
    obtain ⟨b, hb, hbi, hbe, h1, h2, h3, h4, h5⟩ :=
      ih (s.withBlock (s.toBlock.committed v c)) hinv' hp (by simp [Block.committed])
        rfl rfl rfl (by simpa [hent] using hnd) (fun e he => hpos e (by simp [he]))
        (by
          simp only [List.map_cons, List.sum_cons] at hsum
          show (s.toBlock.committed v c).total.toNat + _ ≤ _
          omega)
    refine ⟨b, ?_, hbi, ?_, h1, h2, h3, ?_, ?_⟩
    · have : deserOf (sideFile ((v, c) :: es)) =
          deserOf (recordText (v, c)) ++ deserOf (sideFile es) := by
        simp [deserOf, sideFile]
      rw [this, execAll_append hrec]
      exact hb
    · rw [hbe]
      simp [hent]
    · rw [h4]
      simp [Block.committed]
    · rw [h5]
      simp [Block.committed, Block.appendOrder, hps, hpsym, hpcnt]

end Sys2Proof.Machine
end

