-- ==== Sys2Proof/Laws/Jobs.lean ====
section
/-! SUPPORT. Whole sequences of commands: counting an input, encoding it, and walking the tree over
the bits of codes. -/

namespace Sys2Proof.Machine

/-! ## Counting an input (R75, R77) -/

/-- The first occurrences in an input with one more symbol. -/
theorem eraseDups_snoc (p : List Byte) (v : Byte) :
    (p ++ [v]).eraseDups = if v ∈ p then p.eraseDups else p.eraseDups ++ [v] := by
  rw [List.eraseDups_append]
  by_cases h : v ∈ p <;> simp [List.removeAll, h, List.eraseDups_cons]

/-- The entries after one more occurrence of a symbol the table has (R76). -/
theorem entries_again {b b' : Block} (v : Byte) (x : Count) (hc : b'.cnt = b.cnt.write v x)
    (ho : b'.order = b.order) (hn : b'.nsym = b.nsym) :
    b'.entries = b.entries.map fun e => if e.1 = v then (v, x) else e := by
  have hat : ∀ i, b'.orderAt i = b.orderAt i := fun i => by simp [Block.orderAt, ho]
  unfold Block.entries
  rw [hn, List.map_map]
  apply List.map_congr_left
  intro i _
  simp only [hat, hc, read_write, Function.comp_apply]
  split
  · rename_i h; rw [h]
  · rfl

/-- Counting an input from the reset fields (R75 to R77): a sound table with its symbols in
first-occurrence order and their counts, and nothing but the table touched. -/
theorem run_counts (s : State) (hb : s.toBlock = Block.reset) (input : List Byte)
    (hlen : input.length ≤ Config.cntMax) :
    ∃ b, execAll (countsOf input) s = .next (s.withBlock b) ∧ b.TableInv ∧
      b.entries = tableOf input ∧ b.total.toNat = input.length ∧
      (∀ v, (b.cnt.read v).toNat = input.count v) ∧
      b = { Block.reset with cnt := b.cnt, order := b.order, nsym := b.nsym, total := b.total, src := b.src } ∧
      b.src ≠ .text := by
  have hcm : Config.cntMax = 4294967295 := by decide
  induction input using List.reverseRecOn with
  | nil =>
    refine ⟨s.toBlock, rfl, hb ▸ tableInv_reset, ?_, ?_, ?_, ?_, ?_⟩ <;> rw [hb]
    · rfl
    · rfl
    · intro v; simp [Block.reset]
    · simp [Block.reset]
  | append_singleton p v ih =>
    simp only [List.length_append, List.length_singleton] at hlen
    obtain ⟨b, hx, hT, he, ht, hc, hf, hs⟩ := ih (by omega)
    have hp : b.phase = .collect := by rw [hf]; rfl
    have hfit : b.total.toNat < Config.cntMax := by omega
    have hstep : exec (.count v) (s.withBlock b) = .next (s.withBlock (b.countOne v)) := by
      have := exec_silent (i := .count v) (s := s.withBlock b) (b := b.countOne v) (by simp)
        (by simp [hp]) (by simp [legal, hp, hs]) (by simp [ruleOf, countRule, hfit])
      simpa using this
    have hcnt : (b.countOne v).cnt = b.cnt.write v (b.cnt.read v + 1) := by
      simp only [Block.countOne]
    have hle := read_le_countSum b v
    have htot := hT.total_sum
    have hinc : (b.cnt.read v + 1).toNat = (b.cnt.read v).toNat + 1 := by
      rw [BitVec.toNat_add]
      exact Nat.mod_eq_of_lt (by simp; omega)
    have hcp : ∀ u, (p ++ [v]).count u = p.count u + if u = v then 1 else 0 := by
      intro u
      rw [List.count_append, List.count_singleton]
      by_cases h : u = v
      · simp [h]
      · simp [h, Ne.symm h]
    have hent : (b.countOne v).entries = tableOf (p ++ [v]) := by
      have hxv : b.cnt.read v + 1 = BitVec.ofNat 32 ((p ++ [v]).count v) := by
        apply BitVec.eq_of_toNat_eq
        have := List.count_le_length (a := v) (l := p)
        rw [hinc, hc, BitVec.toNat_ofNat, hcp, if_pos rfl, Nat.mod_eq_of_lt (by omega)]
      unfold tableOf
      rw [eraseDups_snoc]
      by_cases hv : b.cnt.read v = 0
      · have hvp : v ∉ p := by
          have := hc v
          rw [hv] at this
          exact List.count_eq_zero.mp (by simpa using this.symm)
        rw [if_neg hvp, List.map_append, entries_enter hT v _ hv hcnt (by simp [Block.countOne, hv])
          (by simp [Block.countOne, hv, Block.appendOrder]), he]
        congr 1
        · apply List.map_congr_left
          intro u hu
          have : u ≠ v := by
            rintro rfl
            exact hvp (List.mem_eraseDups.mp hu)
          rw [hcp, if_neg this, Nat.add_zero]
        · rw [hxv]; rfl
      · have hvp : v ∈ p := by
          by_contra h
          have h0 := hc v
          rw [List.count_eq_zero.mpr h] at h0
          exact hv (BitVec.eq_of_toNat_eq (by simpa using h0))
        rw [if_pos hvp, entries_again v _ hcnt (by simp only [Block.countOne]; rw [if_neg hv])
          (by simp only [Block.countOne]; rw [if_neg hv]), he]
        unfold tableOf
        rw [List.map_map]
        apply List.map_congr_left
        intro u _
        simp only [Function.comp_apply]
        split
        · rename_i h; rw [h, hxv]
        · rename_i h
          rw [hcp, if_neg h, Nat.add_zero]
    refine ⟨b.countOne v, ?_, tableInv_countOne hT v hfit, hent, ?_, ?_, ?_, ?_⟩
    · have : countsOf (p ++ [v]) = countsOf p ++ [.count v] := by simp [countsOf]
      rw [this, execAll_append hx, execAll_cons hstep, execAll_nil]
    · show (b.total + 1).toNat = _
      rw [BitVec.toNat_add, List.length_append, Nat.mod_eq_of_lt (by simp; omega)]
      simp [ht]
    · intro u
      rw [hcnt, read_write, hcp]
      split
      · rename_i h; rw [hinc, hc, h]
      · rw [hc, Nat.add_zero]
    · rw [hf]
      simp only [Block.countOne]
      split <;> simp [Block.appendOrder]
    · simp only [Block.countOne]
      simp

/-! ## Encoding an input (R94, R95) -/

/-- What ENCODE of a symbol with a code leaves: its code emitted, and it counted (R95). -/
def State.byteDone (s : State) (v : Byte) : State :=
  { s with bitCnt := s.bitCnt + (s.len.read v).setWidth 64, encCnt := s.encCnt + 1
           phase := .encoding, offered := s.offered ++ (s.codeOf v).map Output.bit }

/-- One byte encoded. -/
theorem exec_encode {s : State} {v : Byte} (hp : s.phase = .ready ∨ s.phase = .encoding)
    (hl : s.len.read v ≠ 0) (hfit : s.encCnt.toNat < s.total.toNat) :
    exec (.encodeByte v) s = .next (s.byteDone v) := by
  have h1 : s.phase ≠ .error := by rcases hp with h | h <;> simp [h]
  have h2 : legal (.encodeByte v) s.phase s.src = true := by rcases hp with h | h <;> simp [legal, h]
  refine (exec_emits (i := .encodeByte v) (by simp) h1 h2 ?_).trans rfl
  simp only [ruleOf, encodeRule]
  rw [if_neg hl, if_pos hfit]

/-- An input encoded byte by byte: the codes of its bytes in order, and nothing but the encoder's
counters and PHASE touched. -/
theorem run_encodes (input : List Byte) (s : State) (hp : s.phase = .ready ∨ s.phase = .encoding)
    (hl : ∀ v ∈ input, s.len.read v ≠ 0) (hfit : s.encCnt.toNat + input.length ≤ s.total.toNat) :
    ∃ t, execAll (encodesOf input) s = .next t ∧ (t.phase = .ready ∨ t.phase = .encoding) ∧
      t.encCnt.toNat = s.encCnt.toNat + input.length ∧
      t.offered = s.offered ++ (input.flatMap s.codeOf).map Output.bit ∧
      t = { s with bitCnt := t.bitCnt, encCnt := t.encCnt, phase := t.phase, offered := t.offered } := by
  induction input generalizing s with
  | nil => exact ⟨s, rfl, hp, rfl, by simp, rfl⟩
  | cons v input ih =>
    simp only [List.length_cons] at hfit
    have ht := s.total.isLt
    have hinc : (s.byteDone v).encCnt.toNat = s.encCnt.toNat + 1 :=
      toNat_add_one (x := s.encCnt) (by omega)
    obtain ⟨t, hx, h1, h2, h3, h4⟩ := ih (s.byteDone v) (.inr rfl) (fun u hu => hl u (by simp [hu]))
      (by
        rw [hinc]
        show _ ≤ s.total.toNat
        omega)
    refine ⟨t, ?_, h1, ?_, ?_, h4⟩
    · simp only [encodesOf, List.map_cons]
      rw [execAll_cons (exec_encode hp (hl v (by simp)) (by omega))]
      exact hx
    · rw [h2, hinc, List.length_cons]
      omega
    · have hc : (s.byteDone v).toBlock.codeOf = s.codeOf := rfl
      have ho : (s.byteDone v).offered = s.offered ++ (s.codeOf v).map Output.bit := rfl
      rw [h3, hc, ho, List.flatMap_cons, List.map_append, List.append_assoc]

/-! ## Decoding a code (R101 to R103) -/

/-- What the walk over a symbol's code leaves: the symbol emitted, and the walk back at ROOT. -/
def State.symbolDone (s : State) (v : Byte) : State :=
  { s with decCnt := s.decCnt + 1, cur := s.root, depth := 0, phase := .decoding
           offered := s.offered ++ [.sym v] }

/-- The walk from a node of the arena over the code of a symbol below it. -/
theorem run_code {i : Nat} {T : CodeTree} (s : State) (hinv : s.TableInv) (ht : s.HasTree)
    (hT : Represents (buildNodes s.entries) i T) (hp : s.phase = .ready ∨ s.phase = .decoding)
    (hn : s.nnodes ≠ 1) (hd : s.decCnt ≠ s.total) (hcur : s.cur = BitVec.ofNat 9 i) {v : Byte}
    {x : Bool} {q : BitString} (hq : (v, x :: q) ∈ T.codes []) :
    execAll (decBitsOf (x :: q)) s = .next (s.symbolDone v) := by
  generalize hes : buildNodes s.entries = ns at hT
  have hlen : ns.length ≤ 511 := by rw [← hes]; exact buildNodes_length_le hinv
  induction hT generalizing s x q with
  | leaf _ => simp [CodeTree.codes] at hq
  | @node i nd l r hnd hleaf hl hr hfreq rl rr ihl ihr =>
    have hi := (List.getElem?_eq_some_iff.mp hnd).1
    have hat : s.nodeAt s.cur.toNat = nd := by
      rw [hcur, BitVec.toNat_ofNat, Nat.mod_eq_of_lt (by omega), nodeAt_hasTree hinv ht, hes, hnd]
      rfl
    simp only [CodeTree.codes, List.nil_append] at hq
    rw [l.codes_eq_map, r.codes_eq_map] at hq
    simp only [List.mem_append, List.mem_map, Prod.mk.injEq, List.cons_append, List.nil_append,
      List.cons.injEq] at hq
    have hphase : s.phase ≠ .error := by rcases hp with h | h <;> simp [h]
    have hlegal : legal (.decBit x) s.phase s.src = true := by rcases hp with h | h <;> simp [legal, h]
    -- the child, whichever side the bit names
    have key : ∀ (c : CodeTree) (n : NodeIdx), s.toBlock.childOf x = n → Represents ns n.toNat c →
        (v, q) ∈ c.codes [] →
        (∀ (u : State), u.TableInv → u.HasTree → u.phase = .ready ∨ u.phase = .decoding → u.nnodes ≠ 1 →
          u.decCnt ≠ u.total → u.cur = BitVec.ofNat 9 n.toNat → ∀ {y : Bool} {p : BitString},
          (v, y :: p) ∈ c.codes [] → buildNodes u.entries = ns →
          execAll (decBitsOf (y :: p)) u = .next (u.symbolDone v)) →
        execAll (decBitsOf (x :: q)) s = .next (s.symbolDone v) := by
      intro c n hc hrep hqc hih
      have hnode : s.nodeAt n.toNat = ns[n.toNat]?.getD Node.zero := by
        rw [nodeAt_hasTree hinv ht, hes]
      simp only [decBitsOf, List.map_cons]
      cases hrep with
      | @leaf _ u k hleafn =>
        simp only [CodeTree.codes, List.mem_singleton, Prod.mk.injEq] at hqc
        obtain ⟨rfl, rfl⟩ := hqc
        have hlf : s.nodeAt n.toNat = Node.ofEntry (v, k) := by rw [hnode, hleafn]; rfl
        refine (execAll_cons (exec_emits (i := .decBit x) (by simp) hphase hlegal ?_)).trans rfl
        simp only [ruleOf, decBitRule, walkBitRule]
        rw [if_neg hd, if_neg hn, hc, hlf]
        rfl
      | @node _ nd' l' r' hnd' hleaf' hl' hr' hfreq' rl' rr' =>
        have hlf : (s.nodeAt n.toNat).leaf = false := by rw [hnode, hnd']; exact hleaf'
        have hstep : exec (.decBit x) s = .next
            (s.withBlock { s.toBlock with cur := n, depth := s.depth + 1, phase := .decoding }) := by
          refine exec_silent (i := .decBit x) (by simp) hphase hlegal ?_
          simp only [ruleOf, decBitRule, walkBitRule]
          rw [if_neg hd, if_neg hn, hc, if_neg (by simp [hlf])]
        obtain ⟨y, p, rfl⟩ : ∃ y p, q = y :: p := by
          cases q with
          | cons y p => exact ⟨y, p, rfl⟩
          | nil =>
            simp only [CodeTree.codes, List.nil_append] at hqc
            rw [l'.codes_eq_map, r'.codes_eq_map] at hqc
            simp at hqc
        rw [execAll_cons hstep]
        exact hih (s.withBlock { s.toBlock with cur := n, depth := s.depth + 1, phase := .decoding })
          (hinv.congr rfl rfl rfl rfl) ⟨ht.node, ht.nnodes, ht.root⟩ (.inr rfl) hn hd (by simp) hqc hes
    rcases hq with ⟨c, hc, rfl, rfl, rfl⟩ | ⟨c, hc, rfl, rfl, rfl⟩
    · exact key l nd.left (by simp [Block.childOf, hat]) rl hc
        (fun u h1 h2 h3 h4 h5 h6 y p h7 h8 => ihl u h1 h2 h3 h4 h5 h6 h7 h8)
    · exact key r nd.right (by simp [Block.childOf, hat]) rr hc
        (fun u h1 h2 h3 h4 h5 h6 y p h7 h8 => ihr u h1 h2 h3 h4 h5 h6 h7 h8)

/-- The code of a symbol of a built table, as the tree gives it (R89, R90). -/
theorem codeOf_derived {b : Block} (h : b.TableInv) (hc : b.HasCodes) {v : Byte}
    (hv : 1 ≤ (b.cnt.read v).toNat) :
    (v, b.codeOf v) ∈ deriveCodes b.entries.length (buildNodes b.entries) := by
  obtain ⟨c, hm, rfl⟩ := List.mem_map.mp
    ((deriveCodes_symbols h).mem_iff.mpr ((mem_entries_iff h v).mpr hv))
  have := (written_code h Block.reset.len Block.reset.code (v := c.1) (q := c.2) hm).2
  rw [← hc.len, ← hc.code] at this
  have : b.codeOf c.1 = c.2 := this
  rw [this]
  exact hm

/-- LEN of a symbol of a built table is the length of its code, and not 0 (R28, R29 (a)). -/
theorem len_derived {b : Block} (h : b.TableInv) (hc : b.HasCodes) {v : Byte}
    (hv : 1 ≤ (b.cnt.read v).toNat) : b.len.read v ≠ 0 := by
  have hm := codeOf_derived h hc hv
  have h1 := (deriveCodes_length h hm).1
  have h2 : (b.codeOf v).length = (b.len.read v).toNat := by simp [Block.codeOf]
  intro h0
  rw [h2, h0] at h1
  simp at h1

/-- A symbol's code decodes to the symbol, whatever the size of the tree (R101 to R103). -/
theorem run_symbol (s : State) (hinv : s.TableInv) (ht : s.HasTree) (hc : s.HasCodes)
    (hp : s.phase = .ready ∨ s.phase = .decoding) (hcur : s.cur = s.root) (hdepth : s.depth = 0)
    (hd : s.decCnt ≠ s.total) {v : Byte} (hv : 1 ≤ (s.cnt.read v).toNat) :
    execAll (decBitsOf (s.codeOf v)) s = .next (s.symbolDone v) := by
  have hphase : s.phase ≠ .error := by rcases hp with h | h <;> simp [h]
  have h1 : 1 ≤ s.nsym.toNat := by
    obtain ⟨i, hi, -⟩ := (hinv.present v).mp hv
    omega
  have hnn := nnodes_toNat hinv ht
  obtain ⟨T, hT, -, he⟩ := deriveCodes_spec hinv h1
  have hm := codeOf_derived hinv hc hv
  have hlen := deriveCodes_length hinv hm
  rw [he] at hm
  by_cases hk : s.nsym.toNat = 1
  · rw [if_pos hk] at hm
    simp only [List.mem_singleton, Prod.mk.injEq] at hm
    have hn1 : s.nnodes = 1 := BitVec.eq_of_toNat_eq (by rw [hnn, hk]; rfl)
    have hleaf := nodeAt_leaf hinv ht (i := 0) (by omega)
    rw [hm.2]
    have hstep : exec (.decBit false) s = .next (s.symbolDone v) := by
      have hlegal : legal (.decBit false) s.phase s.src = true := by
        rcases hp with h | h <;> simp [legal, h]
      refine (exec_emits (i := .decBit false) (by simp) hphase hlegal
        (b := { s.toBlock with decCnt := s.decCnt + 1, phase := .decoding }) (out := [.sym v]) ?_).trans ?_
      · simp only [ruleOf, decBitRule, oneSymbolBitRule]
        rw [if_neg hd, if_pos hn1, hleaf, hm.1]
        rfl
      · simp only [State.symbolDone, ← hcur, ← hdepth]
    simp only [decBitsOf, List.map_cons, List.map_nil]
    rw [execAll_cons hstep, execAll_nil]
  · rw [if_neg hk] at hm
    have hn1 : s.nnodes ≠ 1 := by
      intro h
      rw [h] at hnn
      have : (1 : BitVec 9).toNat = 1 := rfl
      omega
    cases hq : s.codeOf v with
    | nil => rw [hq] at hlen; simp at hlen
    | cons x q =>
      rw [hq] at hm
      exact run_code s hinv ht hT hp hn1 hd (hcur.trans ht.root) hm

/-- The codes of an input decode to the input, one symbol after another. -/
theorem run_decodes (input : List Byte) (s : State) (hinv : s.TableInv) (ht : s.HasTree)
    (hc : s.HasCodes) (hp : s.phase = .ready ∨ s.phase = .decoding) (hcur : s.cur = s.root)
    (hdepth : s.depth = 0) (hv : ∀ v ∈ input, 1 ≤ (s.cnt.read v).toNat)
    (hfit : s.decCnt.toNat + input.length ≤ s.total.toNat) :
    ∃ t, execAll (decBitsOf (input.flatMap s.codeOf)) s = .next t ∧
      (t.phase = .ready ∨ t.phase = .decoding) ∧ t.decCnt.toNat = s.decCnt.toNat + input.length ∧
      t.offered = s.offered ++ input.map Output.sym ∧
      t = { s with decCnt := t.decCnt, phase := t.phase, offered := t.offered } := by
  induction input generalizing s with
  | nil => exact ⟨s, rfl, hp, rfl, by simp, rfl⟩
  | cons v input ih =>
    simp only [List.length_cons] at hfit
    have htot := s.total.isLt
    have hd : s.decCnt ≠ s.total := by
      intro h
      rw [h] at hfit
      omega
    have hinc : (s.symbolDone v).decCnt.toNat = s.decCnt.toNat + 1 :=
      toNat_add_one (x := s.decCnt) (by omega)
    obtain ⟨t, hx, h1, h2, h3, h4⟩ := ih (s.symbolDone v) (hinv.congr rfl rfl rfl rfl)
      ⟨ht.node, ht.nnodes, ht.root⟩ ⟨hc.len, hc.code⟩ (.inr rfl) rfl rfl
      (fun u hu => hv u (by simp [hu]))
      (by
        rw [hinc]
        show _ ≤ s.total.toNat
        omega)
    refine ⟨t, ?_, h1, ?_, ?_, ?_⟩
    · have : decBitsOf ((v :: input).flatMap s.codeOf) =
          decBitsOf (s.codeOf v) ++ decBitsOf (input.flatMap s.codeOf) := by simp [decBitsOf]
      rw [this, execAll_append (run_symbol s hinv ht hc hp hcur hdepth hd (hv v (by simp)))]
      exact hx
    · rw [h2, hinc, List.length_cons]
      omega
    · have ho : (s.symbolDone v).offered = s.offered ++ [.sym v] := rfl
      rw [h3, ho, List.map_cons, List.append_assoc]
      rfl
    · rw [h4]
      simp only [State.symbolDone, ← hcur, ← hdepth]

/-- Bits after the last symbol, up to PAD_MAX of them, are counted and emit nothing (R104). -/
theorem run_trailing (pad : BitString) (s : State) (hp : s.phase = .ready ∨ s.phase = .decoding)
    (hd : s.decCnt = s.total) (hfit : s.padCnt.toNat + pad.length ≤ Config.padMax) :
    ∃ t, execAll (decBitsOf pad) s = .next t ∧ (t.phase = .ready ∨ t.phase = .decoding) ∧
      t = { s with padCnt := t.padCnt, phase := t.phase } := by
  have hpm : Config.padMax = 7 := by decide
  induction pad generalizing s with
  | nil => exact ⟨s, rfl, hp, rfl⟩
  | cons x pad ih =>
    simp only [List.length_cons] at hfit
    have hphase : s.phase ≠ .error := by rcases hp with h | h <;> simp [h]
    have hlegal : legal (.decBit x) s.phase s.src = true := by rcases hp with h | h <;> simp [legal, h]
    have hstep : exec (.decBit x) s = .next
        (s.withBlock { s.toBlock with padCnt := s.padCnt + 1, phase := .decoding }) := by
      refine exec_silent (i := .decBit x) (by simp) hphase hlegal ?_
      simp only [ruleOf, decBitRule, trailingBitRule]
      rw [if_pos hd, if_pos (by omega)]
    have hinc : (s.padCnt + 1).toNat = s.padCnt.toNat + 1 := toNat_add_one (by omega)
    obtain ⟨t, hx, h1, h2⟩ :=
      ih (s.withBlock { s.toBlock with padCnt := s.padCnt + 1, phase := .decoding }) (.inr rfl) hd
        (by
          show (s.padCnt + 1).toNat + _ ≤ _
          omega)
    refine ⟨t, ?_, h1, ?_⟩
    · simp only [decBitsOf, List.map_cons]
      rw [execAll_cons hstep]
      exact hx
    · rw [h2]
      rfl

end Sys2Proof.Machine
end

