-- ==== Sys2Proof/Laws/Optimal.lean ====
section
/-! SUPPORT. Why the greedy merge is optimal (spec/41_tree_builder.md R80, R92 (c)): Kraft's inequality
for prefix-free codes, the exchange argument for code lengths, and what MergeAll keeps of it. -/

namespace Sys2Proof.Machine

/-! ## Kraft's inequality -/

/-- The strings of a list that begin with a bit, without it. -/
def tailsAfter (v : Bool) (qs : List BitString) : List BitString :=
  qs.filterMap fun q => match q with
    | [] => none
    | x :: p => if x = v then some p else none

theorem mem_tailsAfter {v : Bool} {qs : List BitString} {p : BitString} :
    p ∈ tailsAfter v qs ↔ v :: p ∈ qs := by
  simp only [tailsAfter, List.mem_filterMap]
  constructor
  · rintro ⟨q, hq, h⟩
    cases q with
    | nil => cases h
    | cons x q =>
      simp only at h
      split at h
      · rename_i hx
        injection h with h
        rw [← hx, ← h]
        exact hq
      · cases h
  · intro h
    exact ⟨v :: p, h, by simp⟩

/-- Two strings neither of which is a prefix of the other. -/
def Apart (p q : BitString) : Prop := ¬ p <+: q ∧ ¬ q <+: p

theorem pairwise_tailsAfter {v : Bool} {qs : List BitString} (h : qs.Pairwise Apart) :
    (tailsAfter v qs).Pairwise Apart := by
  refine List.Pairwise.filterMap _ ?_ h
  intro p q hpq p' hp' q' hq'
  have key : ∀ {r r' : BitString}, (match r with
      | [] => none
      | x :: p => if x = v then some p else none) = some r' → r = v :: r' := by
    intro r r' hr
    cases r with
    | nil => cases hr
    | cons x r =>
      simp only at hr
      split at hr
      · rename_i hx
        injection hr with hr
        rw [hx, hr]
      · cases hr
  rw [key hp', key hq'] at hpq
  exact ⟨fun h => hpq.1 (List.prefix_cons_inj v |>.mpr h), fun h => hpq.2 (List.prefix_cons_inj v |>.mpr h)⟩

/-- Kraft's inequality, in units of `2 ^ -L`. -/
theorem kraft (L : Nat) (qs : List BitString) (h : qs.Pairwise Apart) (hl : ∀ q ∈ qs, q.length ≤ L) :
    (qs.map fun q => 2 ^ (L - q.length)).sum ≤ 2 ^ L := by
  by_cases hnil : [] ∈ qs
  · have hone : qs = [[]] := by
      cases qs with
      | nil => simp at hnil
      | cons q qs =>
        have hap := List.pairwise_cons.mp h
        rcases List.mem_cons.mp hnil with rfl | hm
        · cases qs with
          | nil => rfl
          | cons r qs => exact absurd List.nil_prefix (hap.1 r (by simp)).1
        · exact absurd List.nil_prefix (hap.1 [] hm).2
    simp [hone]
  · induction L generalizing qs with
    | zero =>
      cases qs with
      | nil => simp
      | cons q qs =>
        have := hl q (by simp)
        have : q = [] := List.length_eq_zero_iff.mp (by omega)
        simp [this] at hnil
    | succ L ih =>
      have hsplit : ∀ qs : List BitString, [] ∉ qs →
          (qs.map fun q => 2 ^ (L + 1 - q.length)).sum =
            ((tailsAfter false qs).map fun q => 2 ^ (L - q.length)).sum +
            ((tailsAfter true qs).map fun q => 2 ^ (L - q.length)).sum := by
        intro qs hq
        induction qs with
        | nil => rfl
        | cons q qs ihq =>
          have := ihq (fun h => hq (by simp [h]))
          cases q with
          | nil => simp at hq
          | cons x q =>
            cases x <;> simp [tailsAfter] at this ⊢ <;> omega
      rw [hsplit qs hnil]
      have half : ∀ v, ((tailsAfter v qs).map fun q => 2 ^ (L - q.length)).sum ≤ 2 ^ L := by
        intro v
        have hp := pairwise_tailsAfter (v := v) h
        have hlen : ∀ q ∈ tailsAfter v qs, q.length ≤ L := by
          intro q hq
          have := hl _ (mem_tailsAfter.mp hq)
          simp at this
          omega
        by_cases hn : [] ∈ tailsAfter v qs
        · have hone : tailsAfter v qs = [[]] := by
            revert hn hp
            generalize tailsAfter v qs = rs
            intro hp hn
            cases rs with
            | nil => simp at hn
            | cons q rs =>
              have hap := List.pairwise_cons.mp hp
              rcases List.mem_cons.mp hn with rfl | hm
              · cases rs with
                | nil => rfl
                | cons r rs => exact absurd List.nil_prefix (hap.1 r (by simp)).1
              · exact absurd List.nil_prefix (hap.1 [] hm).2
          simp [hone]
        · exact ih _ hp hlen hn
      have h0 := half false
      have h1 := half true
      rw [Nat.pow_succ]
      omega

/-! ## Code lengths -/

/-- Code lengths `l` for the nodes of `S` that Kraft's inequality allows, none above `L`. -/
def Allowed (S : Finset Nat) (l : Nat → Nat) (L : Nat) : Prop :=
  (∀ i ∈ S, l i ≤ L) ∧ ∑ i ∈ S, 2 ^ (L - l i) ≤ 2 ^ L

/-- A bound on the lengths can be lowered to any that still bounds them. -/
theorem Allowed.tighten {S : Finset Nat} {l : Nat → Nat} {L M : Nat} (h : Allowed S l L)
    (hM : ∀ i ∈ S, l i ≤ M) (hML : M ≤ L) : Allowed S l M := by
  refine ⟨hM, ?_⟩
  have hsum : ∑ i ∈ S, 2 ^ (L - l i) = 2 ^ (L - M) * ∑ i ∈ S, 2 ^ (M - l i) := by
    rw [Finset.mul_sum]
    apply Finset.sum_congr rfl
    intro i hi
    rw [← Nat.pow_add]
    congr 1
    have := hM i hi
    omega
  have hL : 2 ^ L = 2 ^ (L - M) * 2 ^ M := by
    rw [← Nat.pow_add]
    congr 1
    omega
  have := h.2
  rw [hsum, hL] at this
  exact Nat.le_of_mul_le_mul_left this (by positivity)

/-- A sum over a set that holds two points, with the two apart. -/
theorem sum_two {S : Finset Nat} {x y : Nat} (hx : x ∈ S) (hy : y ∈ S) (hxy : x ≠ y) (f : Nat → Nat) :
    ∑ i ∈ S, f i = f x + f y + ∑ i ∈ (S.erase x).erase y, f i := by
  rw [← Finset.add_sum_erase S f hx,
    ← Finset.add_sum_erase (S.erase x) f (Finset.mem_erase.mpr ⟨hxy.symm, hy⟩)]
  omega

/-- Exchanging the lengths of a light and a heavy node, where the heavy one's is longer, costs nothing. -/
theorem exchange {S : Finset Nat} {w l : Nat → Nat} {L x y : Nat} (h : Allowed S l L) (hx : x ∈ S)
    (hy : y ∈ S) (hw : w x ≤ w y) (hl : l x ≤ l y) :
    Allowed S (fun i => if i = x then l y else if i = y then l x else l i) L ∧
    ∑ i ∈ S, w i * (if i = x then l y else if i = y then l x else l i) ≤ ∑ i ∈ S, w i * l i := by
  by_cases hxy : x = y
  · subst hxy
    have : (fun i => if i = x then l x else if i = x then l x else l i) = l := by
      funext i
      split
      · rename_i h; rw [h]
      · rfl
    rw [this]
    refine ⟨h, ?_⟩
    apply Finset.sum_le_sum
    intro i _
    split
    · rename_i h; rw [h]
    · exact Nat.le_refl _
  · have hrest : ∀ f : Nat → Nat → Nat, ∑ i ∈ (S.erase x).erase y,
        f i (if i = x then l y else if i = y then l x else l i) = ∑ i ∈ (S.erase x).erase y, f i (l i) := by
      intro f
      apply Finset.sum_congr rfl
      intro i hi
      have h1 := Finset.ne_of_mem_erase hi
      have h2 := Finset.ne_of_mem_erase (Finset.mem_of_mem_erase hi)
      rw [if_neg h2, if_neg h1]
    refine ⟨⟨?_, ?_⟩, ?_⟩
    · intro i hi
      simp only
      split
      · exact h.1 y hy
      · split
        · exact h.1 x hx
        · exact h.1 i hi
    · have hs := h.2
      rw [sum_two hx hy hxy] at hs ⊢
      rw [hrest (fun _ n => 2 ^ (L - n))]
      simp only [if_true, if_neg (Ne.symm hxy)]
      omega
    · rw [sum_two hx hy hxy, sum_two hx hy hxy (fun i => w i * l i), hrest (fun i n => w i * n)]
      simp only [if_true, if_neg (Ne.symm hxy)]
      have : w x * l y + w y * l x ≤ w x * l x + w y * l y := by nlinarith
      omega

/-- Lengths as good as any give the two lightest nodes one and the same length, the greatest. -/
theorem exists_deepest {S : Finset Nat} {w : Nat → Nat} {a b : Nat} (ha : a ∈ S) (hb : b ∈ S)
    (hab : a ≠ b) (hwa : ∀ i ∈ S, w a ≤ w i) (hwb : ∀ i ∈ S, i ≠ a → w b ≤ w i) (N : Nat) (l : Nat → Nat)
    (L : Nat) (hN : ∑ i ∈ S, l i ≤ N) (h : Allowed S l L) :
    ∃ l' M, 1 ≤ M ∧ l' a = M ∧ l' b = M ∧ Allowed S l' M ∧
      ∑ i ∈ S, w i * l' i ≤ ∑ i ∈ S, w i * l i := by
  induction N using Nat.strong_induction_on generalizing l L with
  | _ N ih =>
    obtain ⟨m, hm, hmax⟩ := Finset.exists_max_image S l ⟨a, ha⟩
    have hA := h.tighten hmax (h.1 m hm)
    have hM1 : 1 ≤ l m := by
      by_contra h0
      have hz : ∀ i ∈ S, l i = 0 := fun i hi => by have := hmax i hi; omega
      have hs := hA.2
      rw [sum_two ha hb hab, hz a ha, hz b hb] at hs
      have : l m = 0 := by omega
      rw [this] at hs
      simp at hs
      omega
    by_cases h2 : ∃ j ∈ S, j ≠ m ∧ l j = l m
    · obtain ⟨j, hj, hjm, hjl⟩ := h2
      -- the lightest node takes the place of `m`
      obtain ⟨e1, e2⟩ := exchange (w := w) hA ha hm (hwa m hm) (hmax a ha)
      generalize hl1 : (fun i => if i = a then l m else if i = m then l a else l i) = l1 at e1
      have hl1' : ∀ i, l1 i = if i = a then l m else if i = m then l a else l i := fun i => by rw [← hl1]
      have hc1 : ∑ i ∈ S, w i * l1 i ≤ ∑ i ∈ S, w i * l i := by simpa only [hl1'] using e2
      have h1a : l1 a = l m := by rw [hl1', if_pos rfl]
      -- another node of the greatest length is left for the second lightest
      obtain ⟨k, hk, hka, hkl⟩ : ∃ k ∈ S, k ≠ a ∧ l1 k = l m := by
        by_cases hja : j = a
        · refine ⟨m, hm, fun e => hjm (hja.trans e.symm), ?_⟩
          rw [hl1']
          split
          · rfl
          · rw [if_pos rfl, ← hja, hjl]
        · refine ⟨j, hj, hja, ?_⟩
          rw [hl1', if_neg hja, if_neg hjm, hjl]
      obtain ⟨f1, f2⟩ := exchange (w := w) e1 hb hk (hwb k hk hka) (by rw [hkl]; exact e1.1 b hb)
      refine ⟨_, l m, hM1, ?_, ?_, f1, f2.trans hc1⟩
      · simp only [if_neg hab, if_neg (Ne.symm hka)]
        exact h1a
      · simp only [if_true]
        exact hkl
    · -- one node alone has the greatest length: it can be one shorter
      have hlt : ∀ j ∈ S, j ≠ m → l j < l m := by
        intro j hj hjm
        have := hmax j hj
        by_contra hcon
        exact h2 ⟨j, hj, hjm, by omega⟩
      generalize hl1 : (fun i => if i = m then l m - 1 else l i) = l1
      have hl1m : l1 m = l m - 1 := by rw [← hl1]; simp
      have hl1o : ∀ i, i ≠ m → l1 i = l i := fun i hi => by rw [← hl1]; simp [hi]
      have hrest : ∀ f : Nat → Nat → Nat,
          ∑ i ∈ S.erase m, f i (l1 i) = ∑ i ∈ S.erase m, f i (l i) := by
        intro f
        apply Finset.sum_congr rfl
        intro i hi
        rw [hl1o i (Finset.ne_of_mem_erase hi)]
      have hs := hA.2
      rw [← Finset.add_sum_erase S _ hm, Nat.sub_self, Nat.pow_zero] at hs
      obtain ⟨c, hc⟩ : 2 ∣ ∑ i ∈ S.erase m, 2 ^ (l m - l i) := by
        apply Finset.dvd_sum
        intro i hi
        have := hlt i (Finset.mem_of_mem_erase hi) (Finset.ne_of_mem_erase hi)
        exact dvd_pow_self 2 (by omega)
      obtain ⟨d, hd⟩ : 2 ∣ 2 ^ l m := dvd_pow_self 2 (by omega)
      have hA1 : Allowed S l1 (l m) := by
        refine ⟨?_, ?_⟩
        · intro i hi
          by_cases him : i = m
          · rw [him, hl1m]; omega
          · rw [hl1o i him]; exact hmax i hi
        · rw [← Finset.add_sum_erase S _ hm, hrest (fun _ n => 2 ^ (l m - n)), hl1m]
          have : l m - (l m - 1) = 1 := by omega
          rw [this]
          omega
      have hsum : ∑ i ∈ S, l1 i < ∑ i ∈ S, l i := by
        rw [← Finset.add_sum_erase S _ hm, ← Finset.add_sum_erase S l hm, hrest (fun _ n => n), hl1m]
        omega
      obtain ⟨l', M, r1, r2, r3, r4, r5⟩ := ih _ (lt_of_lt_of_le hsum hN) l1 (l m) (Nat.le_refl _) hA1
      refine ⟨l', M, r1, r2, r3, r4, r5.trans ?_⟩
      rw [← Finset.add_sum_erase S _ hm, ← Finset.add_sum_erase S (fun i => w i * l i) hm,
        hrest (fun i n => w i * n), hl1m]
      have : w m * (l m - 1) ≤ w m * l m := Nat.mul_le_mul_left _ (by omega)
      omega

/-- No allowed code lengths for the nodes of `S` cost less than `n`. -/
def LowerBound (S : Finset Nat) (w : Nat → Nat) (n : Nat) : Prop :=
  ∀ l L, Allowed S l L → n ≤ ∑ i ∈ S, w i * l i

/-- Merging the two lightest nodes: a bound for the merged set gives one for the set (R84, R85). -/
theorem LowerBound.unmerge {S : Finset Nat} {w : Nat → Nat} {a b c n : Nat} (ha : a ∈ S) (hb : b ∈ S)
    (hab : a ≠ b) (hc : c ∉ S) (hwc : w c = w a + w b) (hwa : ∀ i ∈ S, w a ≤ w i)
    (hwb : ∀ i ∈ S, i ≠ a → w b ≤ w i) (h : LowerBound (insert c ((S.erase a).erase b)) w n) :
    LowerBound S w (n + (w a + w b)) := by
  intro l L hA
  obtain ⟨l', M, h1, h2, h3, h4, h5⟩ := exists_deepest ha hb hab hwa hwb _ l L (Nat.le_refl _) hA
  refine le_trans ?_ h5
  have hcn : c ∉ (S.erase a).erase b := fun hm => hc (Finset.mem_of_mem_erase (Finset.mem_of_mem_erase hm))
  have hrest : ∀ f : Nat → Nat → Nat, ∑ i ∈ (S.erase a).erase b,
      f i (if i = c then M - 1 else l' i) = ∑ i ∈ (S.erase a).erase b, f i (l' i) := by
    intro f
    apply Finset.sum_congr rfl
    intro i hi
    rw [if_neg]
    intro e
    rw [e] at hi
    exact hcn hi
  have hs := h4.2
  rw [sum_two ha hb hab, h2, h3, Nat.sub_self, Nat.pow_zero] at hs
  have hb2 := h (fun i => if i = c then M - 1 else l' i) M ⟨?_, ?_⟩
  · rw [Finset.sum_insert hcn, if_pos rfl, hrest (fun i n => w i * n), hwc] at hb2
    rw [sum_two ha hb hab, h2, h3]
    obtain ⟨m, rfl⟩ : ∃ m, M = m + 1 := ⟨M - 1, by omega⟩
    simp only [Nat.add_sub_cancel] at hb2
    have e : (w a + w b) * m + (w a + w b) = w a * (m + 1) + w b * (m + 1) := by ring
    omega
  · intro i hi
    simp only
    split
    · omega
    · rename_i hne
      rcases Finset.mem_insert.mp hi with hi | hi
      · exact absurd hi hne
      · exact h4.1 i (Finset.mem_of_mem_erase (Finset.mem_of_mem_erase hi))
  · rw [Finset.sum_insert hcn, hrest (fun _ n => 2 ^ (M - n))]
    simp only [if_true]
    have : M - (M - 1) = 1 := by omega
    rw [this]
    omega

/-! ## The tree MergeAll makes -/

/-- The sum of the weights of a tree's internal nodes, which is its weighted path length (R13). -/
def CodeTree.cost : CodeTree → Nat
  | .leaf _ _ => 0
  | .node l r => l.cost + r.cost + (l.weight + r.weight)

/-- The weighted path length of a tree, from the lengths of its codes. -/
theorem CodeTree.cost_eq (T : CodeTree) (p : BitString) (len : Byte → Nat)
    (h : ∀ c ∈ T.codes p, len c.1 = c.2.length) :
    (T.leaves.map fun e => e.2.toNat * len e.1).sum = T.cost + T.weight * p.length := by
  induction T generalizing p with
  | leaf v c =>
    have := h (v, p) (by simp [CodeTree.codes])
    simp [CodeTree.leaves, CodeTree.cost, this]
  | node l r ihl ihr =>
    simp only [CodeTree.codes, List.mem_append] at h
    have h1 := ihl (p ++ [false]) fun c hc => h c (.inl hc)
    have h2 := ihr (p ++ [true]) fun c hc => h c (.inr hc)
    simp only [CodeTree.leaves, List.map_append, List.sum_append, h1, h2, CodeTree.cost,
      CodeTree.weight_node, List.length_append, List.length_singleton]
    ring

/-- A node represents at most one tree. -/
theorem Represents.unique {ns : List Node} {i : Nat} {A B : CodeTree} (hA : Represents ns i A)
    (hB : Represents ns i B) : A = B := by
  induction hA generalizing B with
  | @leaf i v c h =>
    cases hB with
    | @leaf _ v' c' h' =>
      rw [h] at h'
      injection h' with h'
      simp only [Node.ofEntry, Node.mk.injEq] at h'
      rw [h'.2.2.1, h'.2.2.2.1]
    | node h' hleaf =>
      rw [h] at h'
      injection h' with h'
      rw [← h'] at hleaf
      cases hleaf
  | @node i nd l r h hleaf _ _ _ _ _ ihl ihr =>
    cases hB with
    | leaf h' =>
      rw [h] at h'
      injection h' with h'
      rw [h'] at hleaf
      cases hleaf
    | @node _ nd' l' r' h' _ _ _ _ rl' rr' =>
      rw [h] at h'
      injection h' with h'
      subst h'
      rw [ihl rl', ihr rr']

/-- What MergeAll keeps of optimality: a lower bound for the live nodes, with what the trees below
them cost, is one for the leaves. -/
def Greedy (k : Nat) (leaves ns : List Node) (live : List Nat) : Prop :=
  ∀ T : Nat → CodeTree, (∀ i ∈ live, Represents ns i (T i)) →
    ∀ n, LowerBound live.toFinset (fun i => (freqAt ns i).toNat) n →
      LowerBound (Finset.range k) (fun i => (freqAt leaves i).toNat)
        (n + (live.map fun i => (T i).cost).sum)

/-- One merge keeps it (R84, R85). -/
theorem Greedy.merge {k : Nat} (hk : k ≤ 256) {leaves ns : List Node} {entries : List (Byte × Count)}
    (hsum : (entries.map fun e => e.2.toNat).sum < 2 ^ 32) {live live1 live2 : List Nat} {a b : Nat}
    (hg : Growing k leaves ns live) (hf : Forest entries ns live) (h : Greedy k leaves ns live)
    (h1 : extractMin ns live = some (a, live1)) (h2 : extractMin ns live1 = some (b, live2)) :
    Greedy k leaves (ns ++ [Node.merge ns a b]) (live2 ++ [ns.length]) := by
  obtain ⟨T, hT, hperm⟩ := hf
  obtain ⟨ha, e1⟩ := extractMin_mem h1
  obtain ⟨hb1, e2⟩ := extractMin_mem h2
  have hb : b ∈ live := by rw [e1] at hb1; exact List.mem_of_mem_erase hb1
  have hba : b ≠ a := by
    rintro rfl
    rw [e1] at hb1
    exact hg.nodup.not_mem_erase hb1
  have hp : live.Perm (a :: b :: live2) := by
    refine (List.perm_cons_erase ha).trans ?_
    rw [← e1]
    refine List.Perm.cons a ?_
    rw [e2]
    exact List.perm_cons_erase hb1
  have hsz := hg.size
  have hlpos : 0 < live.length := List.length_pos_of_mem ha
  have hw : (T a).weight + (T b).weight < 2 ^ 32 := by
    have hle := weight_le_of_mem (T := T) hg.nodup ha hb hba.symm
    have heq := (hperm.map fun e => e.2.toNat).sum_eq
    rw [sum_weight_flatMap] at heq
    omega
  have hnew := Represents.merge (hT a ha) (hT b hb) (by omega) hw
  have hold : ∀ i ∈ live, freqAt (ns ++ [Node.merge ns a b]) i = freqAt ns i :=
    fun i hi => freqAt_append (hg.live_lt i hi)
  have hfr := hnew.freq
  rw [CodeTree.weight_node] at hfr
  have hwa := (hT a ha).freq
  have hwb := (hT b hb).freq
  -- the two are the lightest
  have least : ∀ {ls rest : List Nat} {m : Nat}, extractMin ns ls = some (m, rest) → ∀ i ∈ ls,
      (freqAt ns m).toNat ≤ (freqAt ns i).toNat := by
    intro ls rest m hm i hi
    by_cases he : i = m
    · rw [he]
    · have := extractMin_least hm hi he
      rw [precedes_iff] at this
      omega
  have hset : (live2 ++ [ns.length]).toFinset =
      insert ns.length ((live.toFinset.erase a).erase b) := by
    have hnd2 : live1.Nodup := by rw [e1]; exact hg.nodup.erase a
    ext i
    simp only [List.toFinset_append, List.toFinset_cons, List.toFinset_nil, Finset.mem_union,
      List.mem_toFinset, Finset.mem_insert, Finset.mem_erase, e2, hnd2.mem_erase_iff]
    rw [e1, hg.nodup.mem_erase_iff]
    simp
    tauto
  intro T' hT' n hn
  have hsub : ∀ i ∈ live2, i ∈ live := fun i hi => hp.mem_iff.mpr (by simp [hi])
  have hsame : ∀ i ∈ live2, T' i = T i := fun i hi =>
    (hT' i (by simp [hi])).unique ((hT i (hsub i hi)).append _)
  have hroot : T' ns.length = .node (T a) (T b) := (hT' ns.length (by simp)).unique hnew
  rw [hset] at hn
  have hlb := LowerBound.unmerge (S := live.toFinset) (a := a) (b := b) (by simpa using ha)
    (by simpa using hb) hba.symm (by
      intro hm
      have := hg.live_lt _ (List.mem_toFinset.mp hm)
      omega)
    (by simp only [hold a ha, hold b hb, hfr, hwa, hwb])
    (by
      intro i hi
      have hi := List.mem_toFinset.mp hi
      simp only [hold a ha, hold i hi]
      exact least h1 i hi)
    (by
      intro i hi hia
      have hi := List.mem_toFinset.mp hi
      simp only [hold b hb, hold i hi]
      refine least h2 i ?_
      rw [e1]
      exact (hg.nodup.mem_erase_iff).mpr ⟨hia, hi⟩) hn
  have hlb' : LowerBound live.toFinset (fun i => (freqAt ns i).toNat)
      (n + ((T a).weight + (T b).weight)) := by
    intro l L hA
    have := hlb l L hA
    simp only [hold a ha, hold b hb, hwa, hwb] at this
    refine this.trans (le_of_eq ?_)
    apply Finset.sum_congr rfl
    intro i hi
    rw [hold i (List.mem_toFinset.mp hi)]
  have hfin := h T hT _ hlb'
  have hcost : ((live2 ++ [ns.length]).map fun i => (T' i).cost).sum =
      (live.map fun i => (T i).cost).sum + ((T a).weight + (T b).weight) := by
    have hm : (live2.map fun i => (T' i).cost) = live2.map fun i => (T i).cost :=
      List.map_congr_left fun i hi => by rw [hsame i hi]
    have hps := (hp.map fun i => (T i).cost).sum_eq
    simp only [List.map_cons, List.sum_cons] at hps
    simp only [List.map_append, List.sum_append, hm, List.map_cons, List.map_nil, List.sum_cons,
      List.sum_nil, hroot, CodeTree.cost, hps]
    omega
  rw [hcost]
  have : n + ((live.map fun i => (T i).cost).sum + ((T a).weight + (T b).weight)) =
      n + ((T a).weight + (T b).weight) + (live.map fun i => (T i).cost).sum := by omega
  rw [this]
  exact hfin

/-- BUILD's tree costs no more than any code lengths Kraft's inequality allows (R80, R92 (c)). -/
theorem buildNodes_optimal {entries : List (Byte × Count)} (h1 : 1 ≤ entries.length)
    (h256 : entries.length ≤ 256) (hsum : (entries.map fun e => e.2.toNat).sum < 2 ^ 32) {T : CodeTree}
    (hT : Represents (buildNodes entries) ((buildNodes entries).length - 1) T) :
    LowerBound (Finset.range entries.length)
      (fun i => (freqAt (entries.map Node.ofEntry) i).toNat) T.cost := by
  have h0 : Greedy entries.length (entries.map Node.ofEntry) (entries.map Node.ofEntry)
      (List.range entries.length) := by
    intro T hT n hn
    have hz : ((List.range entries.length).map fun i => (T i).cost).sum = 0 := by
      apply List.sum_eq_zero
      intro x hx
      obtain ⟨i, hi, rfl⟩ := List.mem_map.mp hx
      have hi' : i < entries.length := by simpa using hi
      have := (hT i hi).unique (.leaf (v := entries[i].1) (c := entries[i].2) (by simp [hi']))
      rw [this]
      rfl
    have hr : (List.range entries.length).toFinset = Finset.range entries.length := by
      ext i
      simp
    rw [hz, ← hr]
    exact hn
  obtain ⟨r, hgr, -, hgreedy⟩ := mergeAll_induct
    (P := fun ns live => Growing entries.length (entries.map Node.ofEntry) ns live ∧
      Forest entries ns live ∧ Greedy entries.length (entries.map Node.ofEntry) ns live)
    (fun ns live a live1 b live2 h e1 e2 => ⟨h.1.merge h256 e1 e2, h.2.1.merge h256 hsum h.1 e1 e2,
      h.2.2.merge h256 hsum h.1 h.2.1 e1 e2⟩)
    entries.length (entries.map Node.ofEntry) (List.range entries.length)
    (by simp) (by rw [Ne, List.range_eq_nil]; omega)
    ⟨growing_leaves (entries.map Node.ofEntry) (by simp) h1, forest_leaves entries, h0⟩
  have hr : r = (buildNodes entries).length - 1 := by
    have : [r] = [(buildNodes entries).length - 1] := hgr.last rfl
    simpa using this
  have := hgreedy (fun _ => T) (by
    intro i hi
    have : i = (buildNodes entries).length - 1 := by simpa [hr] using hi
    rw [this]
    exact hT) 0 (fun _ _ _ => Nat.zero_le _)
  simpa using this

end Sys2Proof.Machine
end

