-- ==== Sys2Proof/Laws/PerInstr.lean ====
section
/-! SUPPORT. Statements about every instruction as syntax, one lemma per constructor. -/

namespace Sys2Proof.Laws

/-- The word of an instruction has the form the opcode map gives its OPC, an ARG that form allows, and
so is one of the 776 legal words (R67, R68, R70). -/
def WordWellFormed.Statement (i : Instr) : Prop :=
  formOfOpc (opcodeOf i) = some i.form ∧ i.form.argOk (argumentOf i) = true ∧
    (CmdFields.ofWord (encode i)).wellFormed = true

/-- The statement follows from the fields alone. -/
theorem WordWellFormed.of_fields {i : Instr} (h1 : formOfOpc (opcodeOf i) = some i.form)
    (h2 : i.form.argOk (argumentOf i) = true) : WordWellFormed.Statement i := by
  refine ⟨h1, h2, ?_⟩
  have ho : (CmdFields.ofWord (encode i)).opc = opcodeOf i := opcOf_encode i
  have ha : (CmdFields.ofWord (encode i)).arg = argumentOf i := argOf_encode i
  simp only [CmdFields.wellFormed, ho, ha, h1]
  exact h2

theorem WordWellFormed.nop : WordWellFormed.Statement .nop := of_fields (by decide) (by decide)
theorem WordWellFormed.clear : WordWellFormed.Statement .clear := of_fields (by decide) (by decide)
theorem WordWellFormed.count (b : Byte) : WordWellFormed.Statement (.count b) := of_fields (by simp [opcodeOf, formOfOpc, Instr.form]) rfl
theorem WordWellFormed.build : WordWellFormed.Statement .build := of_fields (by decide) (by decide)
theorem WordWellFormed.encodeByte (b : Byte) : WordWellFormed.Statement (.encodeByte b) := of_fields (by simp [opcodeOf, formOfOpc, Instr.form]) rfl
theorem WordWellFormed.encEnd : WordWellFormed.Statement .encEnd := of_fields (by decide) (by decide)
theorem WordWellFormed.decBit (v : Bool) : WordWellFormed.Statement (.decBit v) := by
  cases v <;> exact of_fields (by decide) (by decide)
theorem WordWellFormed.decEnd : WordWellFormed.Statement .decEnd := of_fields (by decide) (by decide)
theorem WordWellFormed.serialize : WordWellFormed.Statement .serialize := of_fields (by decide) (by decide)
theorem WordWellFormed.deserChar (c : Byte) : WordWellFormed.Statement (.deserChar c) := of_fields (by simp [opcodeOf, formOfOpc, Instr.form]) rfl

end Sys2Proof.Laws
end

