-- ==== Sys2Proof/Machine/Assembler.lean ====
section
/-! DEFINITION. The assembler syntax of spec/30_encoding.md R73 and the pseudo-instructions of R74,
one line of ASCII bytes at a time (what R73 and R74 leave open of a line's form: log entry 16). It is notation for command words and no part of the block. -/

namespace Sys2Proof.Machine

/-- The ASCII bytes of a text (R73, R109). -/
def ascii (text : String) : List Byte := text.toList.map fun c => BitVec.ofNat 8 c.toNat

/-- What a line is made of: bare words, character literals, quoted texts and commas. -/
inductive Token where
  | word (cs : List Byte)
  | chr (c : Byte)
  | str (cs : List Byte)
  | comma
deriving DecidableEq, Repr

/-- Where the reader of a line stands. -/
inductive LexMode where
  /-- Between tokens, or inside the bare word read so far. -/
  | plain (word : List Byte)
  /-- After the quote that opens a character literal. -/
  | charBody
  /-- After the character of a character literal. -/
  | charClose (c : Byte)
  /-- Inside a quoted text. -/
  | text (cs : List Byte)
deriving DecidableEq, Repr

/-- The bare word read so far, if any. -/
def endWord (word : List Byte) : List Token := if word.isEmpty then [] else [.word word]

/-- The tokens of a line. `;` starts a comment that runs to the end of the line (R73), except inside a
character literal or a quoted text, where it is a character. R73 does not say which of the two a quoted
`;` is: DESIGN CHOICE, log entry 16, as are what separates words and that an unclosed quote rejects the
line. -/
def lexLine : LexMode → List Byte → Option (List Token)
  | .plain word, [] => some (endWord word)
  | .charBody, [] => none
  | .charClose _, [] => none
  | .text _, [] => none
  | .plain word, c :: rest =>
    if c = 0x3B then some (endWord word)
    else if c = 0x20 ∨ c = 0x09 then (lexLine (.plain []) rest).map (endWord word ++ ·)
    else if c = 0x2C then (lexLine (.plain []) rest).map (endWord word ++ [.comma] ++ ·)
    else if c = 0x27 then (lexLine .charBody rest).map (endWord word ++ ·)
    else if c = 0x22 then (lexLine (.text []) rest).map (endWord word ++ ·)
    else lexLine (.plain (word ++ [c])) rest
  | .charBody, c :: rest => lexLine (.charClose c) rest
  | .charClose x, c :: rest =>
    if c = 0x27 then (lexLine (.plain []) rest).map (Token.chr x :: ·) else none
  | .text cs, c :: rest =>
    if c = 0x22 then (lexLine (.plain []) rest).map (Token.str cs :: ·)
    else lexLine (.text (cs ++ [c])) rest

/-- The value of a hexadecimal digit, in either letter case (DESIGN CHOICE, log entry 16). -/
def hexDigit (c : Byte) : Option Nat :=
  if isDecimalDigit c then some (digitValue c)
  else if 0x41 ≤ c.toNat ∧ c.toNat ≤ 0x46 then some (c.toNat - 0x41 + 10)
  else if 0x61 ≤ c.toNat ∧ c.toNat ≤ 0x66 then some (c.toNat - 0x61 + 10)
  else none

/-- The value of a decimal digit. -/
def decDigit (c : Byte) : Option Nat := if isDecimalDigit c then some (digitValue c) else none

/-- The number a digit string writes in a base. -/
def numberIn (base : Nat) (digit : Byte → Option Nat) : Nat → List Byte → Option Nat
  | n, [] => some n
  | n, c :: rest => (digit c).bind fun d => numberIn base digit (base * n + d) rest

/-- A number: `0x` and hexadecimal digits, or decimal digits (R10, R73). R73's `0xNN` fixes neither how
many digits there may be nor their letter case, and nothing is said of leading zeros: any positive number
of digits is taken (DESIGN CHOICE, log entry 16). -/
def numberOf (cs : List Byte) : Option Nat :=
  match cs with
  | [] => none
  | [c] => decDigit c
  | c :: x :: rest =>
    if c = 0x30 ∧ x = 0x78 then if rest.isEmpty then none else numberIn 16 hexDigit 0 rest
    else numberIn 10 decDigit 0 cs

/-- A form B operand: `0xNN`, a decimal from 0 to 255, or a character literal (R73). A hexadecimal number
above 255 is none, however it is spelled (DESIGN CHOICE, log entry 16). -/
def byteOperand : Token → Option Byte
  | .word cs => (numberOf cs).bind fun n => if n < 256 then some (BitVec.ofNat 8 n) else none
  | .chr c => some c
  | .str _ => none
  | .comma => none

/-- A form V operand: `0` or `1` (R73), and no other spelling of the two numbers (DESIGN CHOICE, log
entry 16). -/
def bitOperand : Token → Option Bool
  | .word cs => if cs = [0x30] then some false else if cs = [0x31] then some true else none
  | .chr _ => none
  | .str _ => none
  | .comma => none

/-- A list of bytes `b0, b1, ...` (R74), each spelled as a form B operand (DESIGN CHOICE, log entry 16). -/
def byteList : List Token → Option (List Byte)
  | [] => none
  | [t] => (byteOperand t).map ([·])
  | t :: .comma :: rest => (byteOperand t).bind fun b => (byteList rest).map (b :: ·)
  | _ :: _ :: _ => none

/-- A quoted text, or a list of bytes (R74). -/
def bytesOrText : List Token → Option (List Byte)
  | [.str cs] => some cs
  | ts => byteList ts

/-- A quoted text (R74). -/
def quotedText : List Token → Option (List Byte)
  | [.str cs] => some cs
  | _ => none

/-- A quoted run of 0s and 1s (R11, R74). -/
def quotedBits (ts : List Token) : Option BitString :=
  (quotedText ts).bind fun cs => if cs.all isBinaryDigit then some (cs.map (· == 0x31)) else none

/-- A form N command: no operand. -/
def asmN (i : Instr) (ts : List Token) : Option (List Instr) := if ts.isEmpty then some [i] else none

/-- A form B command. -/
def asmB (mk : Byte → Instr) : List Token → Option (List Instr)
  | [t] => (byteOperand t).map fun b => [mk b]
  | _ => none

/-- A form V command. -/
def asmV (mk : Bool → Instr) : List Token → Option (List Instr)
  | [t] => (bitOperand t).map fun v => [mk v]
  | _ => none

/-- A mnemonic or pseudo-instruction with its operands (R73, R74). -/
def asmTokens : List Token → Option (List Instr)
  | [] => some []
  | .word m :: ts =>
    if m = ascii "NOP" then asmN .nop ts
    else if m = ascii "CLEAR" then asmN .clear ts
    else if m = ascii "COUNT" then asmB .count ts
    else if m = ascii "BUILD" then asmN .build ts
    else if m = ascii "ENCODE" then asmB .encodeByte ts
    else if m = ascii "ENC_END" then asmN .encEnd ts
    else if m = ascii "DEC_BIT" then asmV .decBit ts
    else if m = ascii "DEC_END" then asmN .decEnd ts
    else if m = ascii "SERIALIZE" then asmN .serialize ts
    else if m = ascii "DESER_CHAR" then asmB .deserChar ts
    else if m = ascii "COUNTS" then (bytesOrText ts).map countsOf
    else if m = ascii "ENCODES" then (bytesOrText ts).map encodesOf
    else if m = ascii "DESER" then (quotedText ts).map deserOf
    else if m = ascii "DEC_BITS" then (quotedBits ts).map decBitsOf
    else if m = ascii "DEC_BYTES" then (byteList ts).map decBytesOf
    else none
  | _ :: _ => none

/-- The commands one line of assembler text stands for; `none` where it is not of the syntax. -/
def assembleLine (line : List Byte) : Option (List Instr) := (lexLine (.plain []) line).bind asmTokens

end Sys2Proof.Machine
end

