-- ==== Sys2Proof/Tests/Slice0.lean ====
section
/-! SUPPORT. Tests with results taken from the spec (spec/95_test_vectors.md and the rules' own
examples), and for each obligation a witness that meets its hypotheses. -/

namespace Sys2Proof.Tests

open Machine

/-! ## Small states -/

/-- The reset machine with other block fields. -/
def on (b : Block) : State := { State.reset with toBlock := b }

/-- A block with one more table entry. -/
def entered (b : Block) (v : Byte) (x : Count) : Block :=
  { b.appendOrder v with cnt := b.cnt.write v x, total := b.total + x }

/-- The table A:3, B:1 of W1, counted. -/
def tableAB : Block := { entered (entered Block.reset 0x41 3) 0x42 1 with src := .scan }

/-- The table Z:3 of TB-8, counted. -/
def tableZ : Block := { entered Block.reset 0x5A 3 with src := .scan }

/-- A block inside a side-file record. -/
def parsing (pos : ParsePos) (psym : Byte) (pcnt : Count) : Block :=
  { Block.reset with pstate := pos, psym := psym, pcnt := pcnt, src := .text }

/-- The one-entry table of FQ-4 and SF-17, as full as a table can be. -/
def tableFull : Block := { entered Block.reset 0x41 4294967295 with src := .scan }

/-- A block in ERROR (EN-3). -/
def failed : Block :=
  { tableAB.withTree with errCode := .noCode, errPhase := .ready, errCmd := 0x3043, phase := .error }

/-- A machine with a word to run. -/
def given (b : Block) (w : CmdWord) : State := { on b with host := [.command w] }

/-- A machine with two bits still on their port (R47). -/
def blocked (host : List HostMove) : State :=
  { on tableAB.withTree with offered := [.bit true, .bit false], host := host }

/-- What holds of the state a command leaves. -/
def after (i : Instr) (s : State) (p : State → Bool) : Bool :=
  match exec i s with
  | .next t => p t
  | .fault _ => false
  | .refused _ => false

/-- What holds of the state a step leaves. -/
def afterStep (s : State) (p : State → Bool) : Bool :=
  match step s with
  | .next t => p t
  | .fault _ => false
  | .refused _ => false

theorem after_spec {i : Instr} {s : State} {p : State → Bool} (h : after i s p = true) :
    ∃ t, exec i s = .next t ∧ p t = true := by
  unfold after at h
  split at h
  · rename_i t ht
    exact ⟨t, ht, h⟩
  · cases h
  · cases h

theorem afterStep_spec {s : State} {p : State → Bool} (h : afterStep s p = true) :
    ∃ t, step s = .next t ∧ p t = true := by
  unfold afterStep at h
  split at h
  · rename_i t ht
    exact ⟨t, ht, h⟩
  · cases h
  · cases h

/-- The command raises this error from a phase that is not ERROR. -/
def raises (i : Instr) (b : Block) (code : ErrCode) : Bool :=
  b.phase != .error && after i (on b) fun t => t.phase == .error && t.errCode == code

/-! ## Decoding (R68, R73): one word of each command, bit by bit from the opcode map -/

theorem test_decode_nop : decode 0b00000000_00000000 = .ok .nop := by decide
theorem test_decode_clear : decode 0b00000001_00000000 = .ok .clear := by decide
/-- R73: `COUNT 'A'` is 0x1041. -/
theorem test_decode_count : decode 0b00010000_01000001 = .ok (.count 0x41) := by decide
theorem test_decode_build : decode 0b00100000_00000000 = .ok .build := by decide
/-- R95: `ENCODE 'C'` is 0x3043. -/
theorem test_decode_encode : decode 0b00110000_01000011 = .ok (.encodeByte 0x43) := by decide
theorem test_decode_encEnd : decode 0b00110001_00000000 = .ok .encEnd := by decide
/-- R73: `DEC_BIT 1` is 0x4001. -/
theorem test_decode_decBit : decode 0b01000000_00000001 = .ok (.decBit true) := by decide
theorem test_decode_decEnd : decode 0b01000001_00000000 = .ok .decEnd := by decide
theorem test_decode_serialize : decode 0b01010000_00000000 = .ok .serialize := by decide
/-- R73: `DESER_CHAR ':'` is 0x513A. -/
theorem test_decode_deserChar : decode 0b01010001_00111010 = .ok (.deserChar 0x3A) := by decide

/-- ER-1, ER-2, ER-3: the decoder rejects by name. -/
theorem test_decode_rejects :
    decode 0x4002 = .error .reservedArg ∧ decode 0xFF00 = .error .undefinedOpcode ∧
      decode 0x0001 = .error .reservedArg := by decide

theorem test_encode_decBit : encode (.decBit true) = 0x4001 := by decide
theorem test_decodeTableWord : decodeTableWord 16 0x51FF = some (.deserChar 0xFF) := by decide

/-! ## WellFormed: an ill-formed term for each check -/

/-- An OPC that is none of the ten (ER-2). -/
theorem test_wellFormed_opc : ({ opc := 0xFF, arg := 0 } : CmdFields).wellFormed = false := by decide
/-- A nonzero ARG in form N (ER-3, ER-4). -/
theorem test_wellFormed_formN : ({ opc := 0x00, arg := 1 } : CmdFields).wellFormed = false ∧
    ({ opc := 0x20, arg := 1 } : CmdFields).wellFormed = false := by decide
/-- A reserved bit in form V (ER-1). -/
theorem test_wellFormed_formV : ({ opc := 0x40, arg := 2 } : CmdFields).wellFormed = false := by decide
/-- ER-10: every ARG is legal in form B. -/
theorem test_wellFormed_formB : ({ opc := 0x10, arg := 0xFF } : CmdFields).wellFormed = true := by decide

/-! ## One step of each command -/

/-- CT-1: NOP in DONE leaves STATUS = 0x114. -/
theorem test_nop : after .nop (on { tableAB.withTree with phase := .done }) (fun t =>
    t.regRead 0x0001 == 0x114) = true := by decide +kernel
/-- CT-2: CLEAR out of ERROR leaves STATUS = 0, ERROR = 0, TOTAL = 0. -/
theorem test_clear : after .clear (on failed) (fun t => t.regRead 0x0001 == 0 &&
    t.regRead 0x0002 == 0 && t.regRead 0x0004 == 0) = true := by decide +kernel
/-- FQ-1. -/
theorem test_count : after (.count 0x41) State.reset (fun t => t.regRead 0x0141 == 1 &&
    t.regRead 0x0200 == 0x80000041 && t.regRead 0x0003 == 1 && t.regRead 0x0004 == 1 &&
    t.regRead 0x0001 == 0x010) = true := by decide +kernel
/-- FQ-4. -/
theorem test_count_overflow : after (.count 0x42) (on tableFull) (fun t =>
    t.regRead 0x0002 == 0x10420003 && t.regRead 0x0003 == 1) = true := by decide +kernel
/-- TB-2: the first node extracted is the left child. -/
theorem test_build : after .build (on tableAB) (fun t => t.regRead 0x0A02 == 0x80000001 &&
    t.regRead 0x000A == 0x00030002 && t.codeOf 0x42 == [false] && t.codeOf 0x41 == [true]) = true := by
  decide +kernel
/-- TB-8: one symbol has the code "0". -/
theorem test_build_one : after .build (on tableZ) (fun t => t.regRead 0x000A == 0x00010000 &&
    t.regRead 0x0A00 == 0xC000005A && t.codeOf 0x5A == [false]) = true := by decide +kernel
/-- W1: A is "1" in the tree of "AAAB". -/
theorem test_encode : after (.encodeByte 0x41) (on tableAB.withTree) (fun t =>
    t.offered == [.bit true] && t.regRead 0x0007 == 1 && t.regRead 0x0005 == 1 &&
    t.regRead 0x0001 == 0x112) = true := by decide +kernel
/-- EN-3: a byte with no code. -/
theorem test_encode_noCode : after (.encodeByte 0x43) (on tableAB.withTree) (fun t =>
    t.regRead 0x0002 == 0x30430106 && t.offered == []) = true := by decide +kernel
/-- EN-5: TOTAL bytes were not encoded. -/
theorem test_encEnd : after .encEnd (on { tableAB.withTree with encCnt := 1, phase := .encoding })
    (fun t => t.regRead 0x0002 == 0x31000208) = true := by decide +kernel
/-- R102: bit 1 at the root of "AAAB" reaches leaf A. -/
theorem test_decBit : after (.decBit true) (on tableAB.withTree) (fun t =>
    t.offered == [.sym 0x41] && t.regRead 0x0006 == 1 && t.regRead 0x000B == 0x00000002) = true := by
  decide +kernel
/-- DE-7: a 1 in a one-symbol tree. -/
theorem test_decBit_badCode : after (.decBit true) (on { tableZ.withTree with
    decCnt := 1, phase := .decoding }) (fun t => t.regRead 0x0002 == 0x40010309) = true := by
  decide +kernel
/-- DE-13's shape: DEC_END with symbols missing. -/
theorem test_decEnd : after .decEnd (on tableZ.withTree) (fun t =>
    t.regRead 0x0002 == 0x4100010A) = true := by decide +kernel
/-- W1: the source's side file `01000001:3 01000010:1 `. -/
theorem test_serialize : after .serialize (on tableAB) (fun t =>
    t.emittedTxts == [0x30, 0x31, 0x30, 0x30, 0x30, 0x30, 0x30, 0x31, 0x3A, 0x33, 0x20,
      0x30, 0x31, 0x30, 0x30, 0x30, 0x30, 0x31, 0x30, 0x3A, 0x31, 0x20]) = true := by decide +kernel
/-- R113: the space commits A:3. -/
theorem test_deserChar : after (.deserChar 0x20) (on (parsing .moreDigits 0x41 3)) (fun t =>
    t.regRead 0x0141 == 3 && t.regRead 0x0200 == 0x80000041 && t.regRead 0x0004 == 3 &&
    t.regRead 0x000C == 0) = true := by decide +kernel
/-- SF-15: a count above 2^32 - 1. -/
theorem test_deserChar_overflow : after (.deserChar 0x36) (on (parsing .moreDigits 0x41 429496729))
    (fun t => t.regRead 0x0002 == 0x51360003) = true := by decide +kernel

/-! ## Ports -/

/-- CT-3: an illegal word in COLLECT. -/
theorem test_illegal : afterStep (given Block.reset 0xFF00) (fun t =>
    t.regRead 0x0002 == 0xFF000001 && t.regRead 0x0001 == 0x007) = true := by decide +kernel
/-- ER-5: E_ILLEGAL comes before E_SEQUENCE. -/
theorem test_illegal_first : afterStep (given Block.reset 0x4003) (fun t =>
    t.regRead 0x0002 == 0x40030001) = true := by decide +kernel
/-- R46: a word waits while outputs are offered. -/
theorem test_waits : afterStep (blocked [.command 0]) (fun t => t.host == [.command 0] && !t.idle) = true := by
  decide +kernel
/-- `withFetchWord` presents exactly the word. -/
theorem test_withFetchWord : afterStep (State.reset.withFetchWord 16 0x1041) (fun t =>
    t.regRead 0x0141 == 1 && t.host == []) = true := by decide +kernel
/-- R135: a COUNT in DONE raises E_SEQUENCE and leaves the job's success. -/
theorem test_job_keeps_success : after (.count 0x41) (on { tableZ.withTree with phase := .done }) (fun t =>
    t.phase == .error && t.jobSucceeded && !t.jobFailed && t.jobEnded) = true := by decide +kernel
/-- R135: a SERIALIZE in DONE leaves the job ended while its characters are offered, and a failed job is
no success. -/
theorem test_job_stays_ended : after .serialize (on { tableZ.withTree with phase := .done }) (fun t =>
    !t.idle && t.jobSucceeded && t.jobEnded) = true ∧
    (on failed).jobFailed = true ∧ (on failed).jobSucceeded = false := by decide +kernel
/-- The assembler's examples (R73). -/
theorem test_assemble : assembleLine (ascii "COUNT 'A'") = some [.count 0x41] ∧
    assembleLine (ascii "DEC_BIT 1") = some [.decBit true] ∧
    assembleLine (ascii "DESER_CHAR ':' ; colon") = some [.deserChar 0x3A] := by decide +kernel
/-- A quoted `;` and spellings of a hexadecimal operand (the model's choices, log entry 16). -/
theorem test_assemble_open : assembleLine (ascii "COUNT ';'") = some [.count 0x3B] ∧
    assembleLine (ascii "COUNT 0x5") = some [.count 0x05] ∧
    assembleLine (ascii "COUNT 0x00fF") = some [.count 0xFF] ∧
    assembleLine (ascii "COUNT 0x100") = none := by decide +kernel
/-- R74: DEC_BYTES gives bit 7 first. -/
theorem test_decBytes : decBytesOf [0xE0] = decBitsOf [true, true, true, false, false, false, false, false] := by
  decide +kernel
/-- W1: `1110` packed is 0xE0. -/
theorem test_packBits : packBits [true, true, true, false] = [0xE0] := by decide +kernel

/-! ## Witnesses: a concrete state and operands for every obligation that has hypotheses -/

theorem tableInv_AB : tableAB.TableInv := by
  have h1 : (entered Block.reset 0x41 3).TableInv :=
    tableInv_enter tableInv_reset 0x41 3 (by decide +kernel) (by decide) (by decide +kernel) rfl rfl rfl rfl
  have h2 : (entered (entered Block.reset 0x41 3) 0x42 1).TableInv :=
    tableInv_enter h1 0x42 1 (by decide +kernel) (by decide) (by decide +kernel) rfl rfl rfl rfl
  exact h2.congr rfl rfl rfl rfl

theorem tableInv_Z : tableZ.TableInv := by
  have h1 : (entered Block.reset 0x5A 3).TableInv :=
    tableInv_enter tableInv_reset 0x5A 3 (by decide +kernel) (by decide) (by decide +kernel) rfl rfl rfl rfl
  exact h1.congr rfl rfl rfl rfl

/-- The counted table meets every invariant. -/
theorem inv_tableAB : tableAB.Inv where
  table := tableInv_AB
  control := by
    constructor <;> simp [tableAB, entered, Block.appendOrder, Block.reset, Block.jobPhase]
  counters := by
    constructor <;> simp [tableAB, entered, Block.appendOrder, Block.reset, Block.jobPhase]
  tree := treeCurrent_reset.congr rfl (by simp [Block.reset]) rfl rfl rfl rfl rfl
  walk := by simp [tableAB, entered, Block.appendOrder, Block.reset]

/-- The built tree meets every invariant, the walk's too. -/
theorem inv_builtAB : tableAB.withTree.Inv where
  table := tableInv_AB.congr rfl rfl rfl rfl
  control := by
    constructor <;> simp [tableAB, entered, Block.appendOrder, Block.reset, Block.jobPhase, Block.withTree]
  counters := by
    constructor <;> simp [tableAB, entered, Block.appendOrder, Block.reset, Block.jobPhase, Block.withTree]
  tree := by
    have h1 : tableAB.withTree.HasTree := withTree_hasTree rfl
    have h2 : tableAB.withTree.HasCodes := withTree_hasCodes rfl rfl
    exact ⟨fun _ => h1.node, fun _ => h1.nnodes, fun _ => h1.root, fun _ => h2.len, fun _ => h2.code,
      by simp [Block.withTree]⟩
  walk := fun _ =>
    { few := by decide +kernel
      path := fun _ => ⟨[], by decide +kernel, rfl, by decide +kernel, by decide +kernel, by decide⟩ }

theorem accountInv_reset : State.reset.AccountInv :=
  ⟨counterInv_reset, by decide, by decide, by decide⟩

/-- An illegal word of each kind. -/
theorem witness_IllegalWordsAreExactlyThese :
    (∃ r, decode 0xFF00 = .error r) ∧ (∃ r, decode 0x0001 = .error r) ∧ ∃ r, decode 0x4002 = .error r :=
  ⟨⟨_, rfl⟩, ⟨_, rfl⟩, ⟨_, rfl⟩⟩

theorem witness_StepRunsTheDecodedCommand :
    (given tableAB 0x2000).idle = true ∧ (given tableAB 0x2000).host = .command 0x2000 :: [] ∧
      decode 0x2000 = .ok .build := by decide

/-- In COLLECT and in ERROR. -/
theorem witness_IllegalWordRaisesIllegal :
    (∀ b ∈ [Block.reset, failed], (given b 0x4002).idle = true ∧
      (given b 0x4002).host = .command 0x4002 :: []) ∧
      Block.reset.phase ≠ .error ∧ failed.phase = .error ∧
      decode 0x4002 = .error .reservedArg := by decide +kernel

theorem witness_EveryStepGivesANextState : State.reset.host = [] := rfl

/-- One "no" and one "yes" of the legality table, and ERROR. -/
theorem witness_OutOfPhaseCommandRaisesSequence :
    State.reset.phase ≠ .error ∧ legal .encEnd State.reset.phase State.reset.src = false ∧
      legal .build State.reset.phase State.reset.src = true ∧
      (on failed).phase = .error ∧ Instr.build ≠ .clear := by decide

theorem witness_ErrorEntryChangesNothingElse :
    State.reset.phase ≠ .error ∧ State.reset.inReset = false ∧
      ∃ t, exec .encEnd State.reset = .next t ∧ t.phase = .error :=
  ⟨by decide, rfl, _, rfl, by decide⟩

/-- Every error a command raises. -/
theorem witness_EachErrorHasItsCommands :
    raises .encEnd Block.reset .sequence = true ∧
    raises (.count 0x41) tableFull .countOverflow = true ∧
    raises (.deserChar 0x36) (parsing .moreDigits 0x41 429496729) .countOverflow = true ∧
    raises (.deserChar 0x32) Block.reset .malformed = true ∧
    raises .build (parsing (.symDigit 4) 4 0) .malformed = true ∧
    raises (.deserChar 0x20) { entered Block.reset 0x41 3 with
      pstate := .moreDigits, psym := 0x41, pcnt := 1, src := .text } .duplicate = true ∧
    raises (.encodeByte 0x43) tableAB.withTree .noCode = true ∧
    raises (.encodeByte 0x41) { tableAB.withTree with encCnt := 4, phase := .encoding } .encOverrun = true ∧
    raises .encEnd tableAB.withTree .encUnderrun = true ∧
    raises (.decBit true) tableZ.withTree .badCode = true ∧
    raises .decEnd tableZ.withTree .truncated = true ∧
    raises (.decBit false) { tableZ.withTree with
      decCnt := 3, padCnt := 7, phase := .decoding } .trailing = true := by decide +kernel

/-- A word that is discarded, and the one that is not. -/
theorem witness_ErrorPhaseDiscardsAllButClear :
    (on failed).phase = .error ∧ (0x1041 : CmdWord) ≠ 0x0100 ∧ (0x0100 : CmdWord) = 0x0100 := by
  decide

/-- Both ways out of ERROR. -/
theorem witness_ErrorLeftOnlyByClearOrReset :
    (∃ t, step (given failed 0x0100) = .next t ∧ (given failed 0x0100).phase = .error ∧ t.phase ≠ .error) ∧
    (∃ t, step { on failed with host := [.resetLow] } = .next t ∧ (on failed).phase = .error ∧
      t.phase ≠ .error) :=
  ⟨⟨_, rfl, rfl, by decide⟩, ⟨_, rfl, rfl, by decide⟩⟩

theorem witness_ResetEdgeResetsAndDropsOutputs :
    (blocked [.resetLow, .resetHigh]).host = .resetLow :: [.resetHigh] ∧
      (blocked [.resetLow, .resetHigh]).offered ≠ [] := by decide

/-- After reset, and after CLEAR. -/
theorem witness_ResetRegistersReadZero :
    State.reset = State.reset ∧ exec .clear (on failed) = .next (on failed).clear := ⟨rfl, rfl⟩

/-- A step that changes PHASE and BUILT, and one that changes SRC. -/
theorem witness_PhaseAndSourceChangeOnlySo :
    (∃ t, step (given tableAB 0x2000) = .next t ∧ t.phase = .ready ∧ t.built = true) ∧
    (∃ t, step (given Block.reset 0x1041) = .next t ∧ t.src = .scan) :=
  ⟨⟨_, rfl, rfl, rfl⟩, ⟨_, rfl, rfl⟩⟩

/-- The last bit of the last word, and a code bit that is 1. -/
theorem witness_CodeRegistersHoldTheCode :
    (7 < 8 ∧ 31 < 32) ∧ (tableAB.withTree.regRead (BitVec.ofNat 16 (0x1000 + 8 * 0x41 + 0))).getLsbD 0 = true := by
  decide +kernel

/-- Both ends of each hole of the map. -/
theorem witness_UnmappedAddressesReadZero :
    ∀ a ∈ ([0x000E, 0x00FF, 0x0400, 0x07FF, 0x0C00, 0x0FFF, 0x1800, 0xFFFF] : List RegAddr),
      (0x000E ≤ a.toNat ∧ a.toNat ≤ 0x00FF) ∨ (0x0400 ≤ a.toNat ∧ a.toNat ≤ 0x07FF) ∨
        (0x0C00 ≤ a.toNat ∧ a.toNat ≤ 0x0FFF) ∨ (0x1800 ≤ a.toNat ∧ a.toNat ≤ 0xFFFF) := by
  simp

/-- A read while idle and a read while not. -/
theorem witness_RegisterReadHasNoEffect :
    ({ on tableAB with host := [.readReg 4] } : State).host = .readReg 4 :: [] ∧
      ({ on tableAB with host := [.readReg 4] } : State).idle = true ∧
      (blocked [.readReg 4]).host = .readReg 4 :: [] ∧ (blocked [.readReg 4]).idle = false := by decide

theorem witness_RegisterReadsNeverFeedStep :
    SameButReads { on tableAB with host := [.readReg 4, .command 0x2000] } (given tableAB 0x2000) ∧
      (∃ t, step { on tableAB with host := [.readReg 4, .command 0x2000] } = .next t) ∧
      SameButReads (given tableAB 0x2000) { given tableAB 0x2000 with draws := 3 } ∧
      ∃ t, step (given tableAB 0x2000) = .next t :=
  ⟨rfl, ⟨_, rfl⟩, rfl, ⟨_, rfl⟩⟩

/-- Two machines with one block and different ports and hosts. -/
theorem witness_CommandDependsOnTheBlockAlone :
    (on tableAB.withTree).toBlock = (blocked [.resetLow]).toBlock ∧
      (on tableAB.withTree).offered ≠ (blocked [.resetLow]).offered ∧
      ∃ t, exec (.encodeByte 0x41) (on tableAB.withTree) = .next t ∧ (t.offered != []) = true :=
  ⟨rfl, by decide, after_spec (p := fun t => t.offered != []) (by decide +kernel)⟩

/-- A take on the value's own stream, and one on another. -/
theorem witness_TakeTransfersTheNextValue :
    (blocked [.take .bitOut]).inReset = false ∧
      (blocked [.take .bitOut]).offered = .bit true :: [.bit false] ∧
      (blocked [.take .bitOut]).host = .take .bitOut :: [] ∧
      (Output.bit true).stream = .bitOut ∧ (blocked [.take .symOut]).host = .take .symOut :: [] ∧
      (Output.bit true).stream ≠ .symOut := by decide

theorem witness_DrainingEndsTheCommand :
    (blocked [.take .bitOut, .take .bitOut, .command 0]).inReset = false ∧
      (blocked [.take .bitOut, .take .bitOut, .command 0]).host =
        takesOf (blocked [.take .bitOut, .take .bitOut, .command 0]).offered ++ [.command 0] := by decide

theorem witness_UndrainedBlockAcceptsNothing :
    (blocked [.command 0]).inReset = false ∧ (blocked [.command 0]).offered = .bit true :: [.bit false] ∧
      (∀ rest, (blocked [.command 0]).host ≠ .take (Output.bit true).stream :: rest) ∧
      (∀ rest, (blocked [.command 0]).host ≠ .resetLow :: rest) ∧
      ∃ t, step (blocked [.command 0]) = .next t :=
  ⟨rfl, rfl, by simp [blocked], by simp [blocked], ⟨_, rfl⟩⟩

/-- A step that lengthens a stream. -/
theorem witness_StreamsAreAppendOnly :
    ∃ t, step (blocked [.take .bitOut]) = .next t ∧ t.bitOut = [true] := ⟨_, rfl, rfl⟩

/-- Each of the three streams written. -/
theorem witness_EachStreamHasOneWriter :
    after (.encodeByte 0x41) (on tableAB.withTree) (fun t => t.emittedBits != []) = true ∧
      after (.decBit true) (on tableAB.withTree) (fun t => t.emittedSyms != []) = true ∧
      after .serialize (on tableAB) (fun t => t.emittedTxts != []) = true := by decide +kernel

/-- A table with room, the full one, and a table filled from text. -/
theorem witness_CountAddsOneOccurrence :
    (∀ b ∈ [tableAB, tableFull, parsing .colon 0x41 0], (on b).phase ≠ .error) ∧
      (∀ b ∈ [tableAB, tableFull], (on b).phase = .collect ∧ (on b).src ≠ .text) ∧
      (on tableAB).total.toNat < 2 ^ 32 - 1 ∧ (on tableFull).total.toNat = 2 ^ 32 - 1 ∧
      (parsing .colon 0x41 0).src = .text := by decide +kernel

theorem witness_CountingGivesTheInputsTable :
    State.reset.toBlock = Block.reset ∧ ([0x41, 0x42, 0x41] : List Byte).length ≤ Config.cntMax := by
  exact ⟨rfl, by decide⟩

/-- Between records, and inside one. -/
theorem witness_BuildCompletesOrIsMalformed :
    (on tableAB).phase = .collect ∧ (on tableAB).pstate = .symDigit 0 ∧
      (on (parsing (.symDigit 4) 4 0)).phase = .collect ∧
      (on (parsing (.symDigit 4) 4 0)).pstate ≠ .symDigit 0 := by decide

/-- A tie: the node created first. -/
theorem witness_ExtractMinTakesTheLeast :
    ([1, 0] : List Nat) ≠ [] ∧
      extractMin [Node.ofEntry (0x41, 1), Node.ofEntry (0x42, 1)] [1, 0] = some (0, [1]) := by decide

theorem witness_BuildMakesTheArena :
    (on tableAB).phase = .collect ∧ (on tableAB).pstate = .symDigit 0 ∧ (on tableAB).TableInv ∧
      (on tableAB).node = Block.reset.node := ⟨rfl, rfl, tableInv_AB, rfl⟩

theorem witness_BuildFrequenciesAreBoundedByTotal :
    (on tableZ).phase = .collect ∧ (on tableZ).pstate = .symDigit 0 ∧ (on tableZ).TableInv ∧
      (on tableZ).node = Block.reset.node ∧ 1 ≤ (on tableZ).nsym.toNat :=
  ⟨rfl, rfl, tableInv_Z, rfl, by decide⟩

theorem witness_BuildMakesAPrefixFreeCode :
    (on tableAB).phase = .collect ∧ (on tableAB).pstate = .symDigit 0 ∧ (on tableAB).TableInv ∧
      (on tableAB).node = Block.reset.node ∧ (on tableAB).len = Block.reset.len ∧
      (on tableAB).code = Block.reset.code ∧ 2 ≤ (on tableAB).nsym.toNat ∧
      1 ≤ ((on tableAB).cnt.read 0x41).toNat :=
  ⟨rfl, rfl, tableInv_AB, rfl, rfl, rfl, by decide, by decide +kernel⟩

/-- Its other codes: any prefix-free ones, such as "0" for B and "1" for the rest. -/
theorem witness_BuildIsOptimal :
    (on tableAB).phase = .collect ∧ (on tableAB).pstate = .symDigit 0 ∧ (on tableAB).TableInv ∧
      2 ≤ (on tableAB).nsym.toNat ∧ (on tableAB).node = Block.reset.node ∧
      (on tableAB).len = Block.reset.len ∧ (on tableAB).code = Block.reset.code ∧
      (∀ u v : Byte, 1 ≤ ((on tableAB).cnt.read u).toNat → 1 ≤ ((on tableAB).cnt.read v).toNat →
        [u == 0x41] <+: [v == 0x41] → u = v) := by
  refine ⟨rfl, rfl, tableInv_AB, by decide, rfl, rfl, rfl, ?_⟩
  have h : ∀ u : Byte, 1 ≤ ((on tableAB).cnt.read u).toNat → u = 0x41 ∨ u = 0x42 := by decide +kernel
  intro u v hu hv hp
  rcases h u hu with rfl | rfl <;> rcases h v hv with rfl | rfl <;> simp_all

/-- Two blocks with the same entries and different sources. -/
theorem witness_BuildDependsOnTheEntriesAlone :
    (on tableAB).phase = .collect ∧ (on { tableAB with src := .text }).phase = .collect ∧
      (on tableAB).pstate = .symDigit 0 ∧ (on { tableAB with src := .text }).pstate = .symDigit 0 ∧
      (on tableAB).nsym = (on { tableAB with src := .text }).nsym ∧
      (∀ i, i < (on tableAB).nsym.toNat →
        (on tableAB).orderAt i = (on { tableAB with src := .text }).orderAt i ∧
        (on tableAB).cnt.read ((on tableAB).orderAt i) =
          (on { tableAB with src := .text }).cnt.read ((on { tableAB with src := .text }).orderAt i)) ∧
      (on tableAB).node = (on { tableAB with src := .text }).node ∧
      (on tableAB).len = (on { tableAB with src := .text }).len ∧
      (on tableAB).code = (on { tableAB with src := .text }).code :=
  ⟨rfl, rfl, rfl, rfl, rfl, fun _ _ => ⟨rfl, rfl⟩, rfl, rfl, rfl⟩

theorem witness_BuildOfTheEmptyTable :
    State.reset.phase = .collect ∧ State.reset.pstate = .symDigit 0 ∧ State.reset.nsym = 0 := by decide

theorem witness_BuildOfOneSymbol :
    (on tableZ).phase = .collect ∧ (on tableZ).pstate = .symDigit 0 ∧ (on tableZ).nsym = 1 := by decide

/-- A byte that encodes, a byte with no code, one byte too many, and the wrong phase. -/
theorem witness_EncodeEmitsTheCode :
    (∀ b ∈ [tableAB.withTree, { tableAB.withTree with encCnt := 4, phase := .encoding }, tableAB],
      (on b).phase ≠ .error) ∧
      tableAB.withTree.phase = .ready ∧ tableAB.withTree.len.read 0x41 ≠ 0 ∧
      tableAB.withTree.encCnt.toNat < tableAB.withTree.total.toNat ∧
      tableAB.withTree.len.read 0x43 = 0 ∧ tableAB.withTree.total.toNat ≤ (4 : Count).toNat ∧
      ¬ (tableAB.phase = .ready ∨ tableAB.phase = .encoding) := by decide +kernel

/-- All bytes encoded, not all, and the wrong phase. -/
theorem witness_EncEndNeedsEveryByte :
    (∀ b ∈ [tableAB.withTree, { tableAB.withTree with encCnt := 4, phase := .encoding }, tableAB],
      (on b).phase ≠ .error) ∧
      tableAB.withTree.phase = .ready ∧ tableAB.withTree.encCnt ≠ tableAB.withTree.total ∧
      (4 : Count) = tableAB.withTree.total ∧
      ¬ (tableAB.phase = .ready ∨ tableAB.phase = .encoding) := by decide +kernel

/-- The 7th trailing bit and the 8th. -/
theorem witness_TrailingBitsAreCounted :
    ∀ p ∈ ([6, 7] : List (BitVec 4)),
      (on { tableZ.withTree with decCnt := 3, padCnt := p, phase := .decoding }).phase = .decoding ∧
      (on { tableZ.withTree with decCnt := 3, padCnt := p, phase := .decoding }).decCnt =
        tableZ.withTree.total ∧ (p.toNat < 7 ↔ p = 6) := by decide +kernel

theorem witness_OneSymbolTreeDecodesZeroOnly :
    (on tableZ.withTree).phase = .ready ∧ (on tableZ.withTree).decCnt ≠ (on tableZ.withTree).total ∧
      (on tableZ.withTree).nnodes = 1 := by decide +kernel

/-- A bit that reaches a leaf; and in the five-node arena of three symbols, one that reaches an internal node. -/
theorem witness_DecodeBitWalksTheTree :
    ((on tableAB.withTree).phase = .ready ∧ (on tableAB.withTree).decCnt ≠ (on tableAB.withTree).total ∧
      (on tableAB.withTree).nnodes ≠ 1 ∧
      (0 : NodeIdx) = (tableAB.withTree.nodeAt tableAB.withTree.cur.toNat).right ∧
      (tableAB.withTree.nodeAt 0).leaf = true) ∧
    ((on (entered tableAB 0x43 9).withTree).phase = .ready ∧
      (on (entered tableAB 0x43 9).withTree).decCnt ≠ (on (entered tableAB 0x43 9).withTree).total ∧
      (on (entered tableAB 0x43 9).withTree).nnodes ≠ 1 ∧
      (3 : NodeIdx) = ((entered tableAB 0x43 9).withTree.nodeAt
        (entered tableAB 0x43 9).withTree.cur.toNat).left ∧
      ((entered tableAB 0x43 9).withTree.nodeAt 3).leaf = false) := by decide +kernel

/-- All symbols decoded, not all, and the wrong phase. -/
theorem witness_DecEndNeedsEverySymbol :
    (∀ b ∈ [tableZ.withTree, { tableZ.withTree with decCnt := 3, phase := .decoding }, tableZ],
      (on b).phase ≠ .error) ∧
      tableZ.withTree.phase = .ready ∧ tableZ.withTree.decCnt ≠ tableZ.withTree.total ∧
      (3 : Count) = tableZ.withTree.total ∧
      ¬ (tableZ.phase = .ready ∨ tableZ.phase = .decoding) := by decide +kernel

theorem witness_SerializeEmitsTheSideFile : (on tableAB).phase ≠ .error := by decide

/-- The least and the greatest count. -/
theorem witness_DecimalIsTheShortest : (1 : Count) ≠ 0 ∧ (4294967295 : Count) ≠ 0 := by decide

/-- The first and the last symbol digit, the colon, and both ends of the first count digit. -/
theorem witness_ParserReadsSymbolAndColon :
    (∀ b ∈ [parsing (.symDigit 0) 0 0, parsing (.symDigit 7) 0x20 0, parsing .colon 0x41 0,
        parsing .firstDigit 0x41 0], (on b).phase = .collect ∧ (on b).src ≠ .scan) ∧
      (parsing (.symDigit 7) 0x20 0).pstate = .symDigit 7 ∧ (parsing .colon 0x41 0).pstate = .colon ∧
      (parsing .firstDigit 0x41 0).pstate = .firstDigit ∧
      (∀ c ∈ ([0x30, 0x39] : List Byte), 0x30 ≤ c.toNat ∧ c.toNat ≤ 0x39) := by decide

/-- The largest count that fits, and one more. -/
theorem witness_ParserReadsCountDigits :
    (on (parsing .moreDigits 0x41 429496729)).phase = .collect ∧
      (on (parsing .moreDigits 0x41 429496729)).src ≠ .scan ∧
      (on (parsing .moreDigits 0x41 429496729)).pstate = .moreDigits ∧
      (429496729 : Count).toNat * 10 + ((0x35 : Byte).toNat - 0x30) = 2 ^ 32 - 1 ∧
      2 ^ 32 - 1 < (429496729 : Count).toNat * 10 + ((0x36 : Byte).toNat - 0x30) := by decide

/-- The characters next to the allowed ones, at each place. -/
theorem witness_ParserRejectsOtherCharacters :
    (∀ b ∈ [parsing (.symDigit 3) 0 0, parsing .colon 0x41 0, parsing .firstDigit 0x41 0,
        parsing .moreDigits 0x41 3], (on b).phase = .collect ∧ (on b).src ≠ .scan) ∧
      ((0x2F : Byte) ≠ 0x30 ∧ (0x32 : Byte) ≠ 0x31) ∧ (0x3B : Byte) ≠ 0x3A ∧
      ¬ (0x30 ≤ (0x20 : Byte).toNat ∧ (0x20 : Byte).toNat ≤ 0x39) ∧
      ¬ (0x30 ≤ (0x3A : Byte).toNat ∧ (0x3A : Byte).toNat ≤ 0x39) ∧ (0x3A : Byte) ≠ 0x20 := by decide

/-- A block at a record's end, after a table. -/
def atSpace (b : Block) (v : Byte) (c : Count) : Block :=
  { b with pstate := .moreDigits, psym := v, pcnt := c, src := .text }

/-- A zero count, a duplicate, a total one too large, and one just not too large. -/
theorem witness_SpaceCommitsTheRecord :
    (∀ b ∈ [atSpace tableAB 0x43 0, atSpace tableAB 0x41 1, atSpace tableAB 0x43 4294967292,
        atSpace tableAB 0x43 4294967291],
      (on b).phase = .collect ∧ (on b).src ≠ .scan ∧ (on b).pstate = .moreDigits) ∧
      (atSpace tableAB 0x41 1).cnt.read 0x41 ≠ 0 ∧ (atSpace tableAB 0x43 1).cnt.read 0x43 = 0 ∧
      2 ^ 32 - 1 < tableAB.total.toNat + (4294967292 : Count).toNat ∧
      tableAB.total.toNat + (4294967291 : Count).toNat ≤ 2 ^ 32 - 1 := by decide +kernel

theorem witness_SideFileRoundTrip :
    (on tableAB).TableInv ∧ State.reset.toBlock = Block.reset := ⟨tableInv_AB, rfl⟩

/-- Seven trailing bits, the most accepted. -/
theorem witness_JobsRoundTrip :
    ([0x41, 0x42, 0x41] : List Byte).length ≤ Config.cntMax ∧
      ([true, false, true, true, false, true, true] : BitString).length ≤ 7 := by decide

/-- A step that writes the table. -/
theorem witness_StepKeepsTheTable :
    (given tableAB 0x1041).TableInv ∧ ∃ t, step (given tableAB 0x1041) = .next t :=
  ⟨tableInv_AB, ⟨_, rfl⟩⟩

/-- BUILD, which moves PHASE and BUILT. -/
theorem witness_StepKeepsControl :
    (given tableAB 0x2000).ControlInv ∧ ∃ t, step (given tableAB 0x2000) = .next t :=
  ⟨inv_tableAB.control, ⟨_, rfl⟩⟩

theorem witness_StepKeepsTheAccount :
    (State.reset.withFetchWord 16 0x1041).AccountInv ∧
      ∃ t, step (State.reset.withFetchWord 16 0x1041) = .next t :=
  ⟨⟨counterInv_reset, by decide, by decide, by decide⟩, ⟨_, rfl⟩⟩

/-- A DEC_BIT in a built tree. -/
theorem witness_StepKeepsTheInvariant :
    (given tableAB.withTree 0x4001).toBlock.Inv ∧
      ∃ t, step (given tableAB.withTree 0x4001) = .next t ∧ (t.decCnt == 1) = true :=
  ⟨inv_builtAB, afterStep_spec (p := fun t => t.decCnt == 1) (by decide +kernel)⟩

/-- BUILT = 1 and BUILT = 0. -/
theorem witness_BuiltStateHasTreeAndCode :
    (on tableAB.withTree).toBlock.Inv ∧ (on tableAB.withTree).built = true ∧
      (on tableAB).toBlock.Inv ∧ (on tableAB).built = false := ⟨inv_builtAB, rfl, inv_tableAB, rfl⟩

end Sys2Proof.Tests
end

