-- ==== Sys2Proof/Proofs/Scope.lean ====
section
/-! The statements of spec/00_scope.md section 4: `Step` is total (R7), a command depends on the block
alone (R7, R8), and a register read never feeds `Step` (R8). -/

namespace Sys2Proof.Machine

/-! ## Totality (R7) -/

/-- `Execute` of every word, illegal ones included, answers a next state (R7, R72). -/
theorem executeWord_next (w : CmdWord) (s : State) : ∃ t, executeWord w s = .next t := by
  unfold executeWord
  split
  · exact exec_next _ s
  · unfold illegalWord
    split <;> exact ⟨_, rfl⟩

theorem step_of_host_nil {s : State} (h : s.host = []) : step s = .next s := by
  simp [step, h, holdState]

theorem step_of_host_cons {s : State} {m : HostMove} {rest : List HostMove} (h : s.host = m :: rest) :
    step s = hostMove m rest s := by
  simp [step, h]

theorem hostMove_next (m : HostMove) (rest : List HostMove) (s : State) :
    ∃ t, hostMove m rest s = .next t := by
  cases m with
  | command w =>
    simp only [hostMove]
    split
    · exact executeWord_next w _
    · exact ⟨_, rfl⟩
  | take p => exact ⟨_, rfl⟩
  | readReg a => exact ⟨_, rfl⟩
  | resetLow => exact ⟨_, rfl⟩
  | resetHigh => exact ⟨_, rfl⟩

theorem step_next (s : State) : ∃ t, step s = .next t := by
  cases hh : s.host with
  | nil => exact ⟨s, step_of_host_nil hh⟩
  | cons m rest =>
    rw [step_of_host_cons hh]
    exact hostMove_next m rest s

/-! ## A machine whose host makes no register reads (R8) -/

/-- A host move that is not a register read. -/
def HostMove.notRead : HostMove → Bool
  | .readReg _ => false
  | .command _ => true
  | .take _ => true
  | .resetLow => true
  | .resetHigh => true

/-- The machine of a host that makes the same moves but for its register reads, with a read history
and a draw count of its own. -/
def State.readFree (s : State) (reads : List (RegAddr × RegWord)) (draws : Nat) : State :=
  { s with reads := reads, draws := draws, host := s.host.filter HostMove.notRead }

theorem sameButReads_iff (s u : State) : SameButReads s u ↔ u = s.readFree u.reads u.draws := Iff.rfl

theorem sameButReads_readFree (s : State) (reads : List (RegAddr × RegWord)) (draws : Nat) :
    SameButReads s (s.readFree reads draws) := rfl

section

variable {s t : State} {m : HostMove} {rest : List HostMove}
  (reads : List (RegAddr × RegWord)) (draws : Nat)

/-- The read-free machine makes the same next move, if that is not a read. -/
theorem step_readFree_eq_hostMove (hh : s.host = m :: rest) (hm : m.notRead = true) :
    step (s.readFree reads draws) =
      hostMove m (rest.filter HostMove.notRead) (s.readFree reads draws) :=
  step_of_host_cons (by simp [State.readFree, hh, hm])

@[simp] theorem readFree_inReset : (s.readFree reads draws).inReset = s.inReset := rfl
@[simp] theorem readFree_offered : (s.readFree reads draws).offered = s.offered := rfl

theorem transfer_readFree (o : Output) (more : List Output) :
    (s.readFree reads draws).transfer o more = (s.transfer o more).readFree reads draws := by
  cases o <;> rfl

theorem takeFrom_readFree (p : Stream) :
    (s.readFree reads draws).takeFrom p = (s.takeFrom p).readFree reads draws := by
  by_cases hr : s.inReset = true
  · simp [State.takeFrom, hr]
  cases ho : s.offered with
  | nil => simp [State.takeFrom, hr, ho]
  | cons o more =>
    by_cases hp : o.stream = p
    · simp [State.takeFrom, hr, ho, hp, transfer_readFree]
    · simp [State.takeFrom, hr, ho, hp]

theorem executeWord_readFree {w : CmdWord} (h : executeWord w { s with host := rest } = .next t) :
    executeWord w { s.readFree reads draws with host := rest.filter HostMove.notRead } =
      .next (t.readFree reads draws) := by
  obtain ⟨hx, hhost⟩ := executeWord_ports reads draws (rest.filter HostMove.notRead) h
  have ht : t.readFree reads draws =
      { t with reads := reads, draws := draws, host := rest.filter HostMove.notRead } := by
    simp only [State.readFree, hhost]
  rw [ht]
  exact hx

/-- One step of a machine leaves its read-free machine as it was, or the read-free machine takes the
same step. -/
theorem step_readFree (h : step s = .next t) :
    s.readFree reads draws = t.readFree reads draws ∨
      step (s.readFree reads draws) = .next (t.readFree reads draws) := by
  rcases step_cases h with ⟨rfl, -⟩ | ⟨w, rest, hh, hr, hx⟩ | ⟨p, rest, hh, rfl⟩ | ⟨a, rest, hh, rfl⟩ |
    ⟨rest, hh, rfl⟩ | ⟨rest, hh, rfl⟩
  · exact .inl rfl
  · right
    have hready : (s.readFree reads draws).cmdReady = true := hr
    rw [step_readFree_eq_hostMove reads draws hh rfl, hostMove, if_pos hready]
    exact executeWord_readFree reads draws hx
  · right
    rw [step_readFree_eq_hostMove reads draws hh rfl, ← takeFrom_readFree]
    rfl
  · left
    simp [State.readFree, State.recordRead, hh, HostMove.notRead]
  · exact .inr (step_readFree_eq_hostMove reads draws hh rfl)
  · exact .inr (step_readFree_eq_hostMove reads draws hh rfl)

end

/-! ## A command's effect as a function of the block (R7, R8) -/

/-- Running a command from any state with the same block gives the same block and appends the same
values to those offered. -/
theorem exec_congr_block {i : Instr} {s u t : State} (hb : s.toBlock = u.toBlock)
    (h : exec i s = .next t) :
    ∃ v out, exec i u = .next v ∧ v.toBlock = t.toBlock ∧
      t.offered = s.offered ++ out ∧ v.offered = u.offered ++ out := by
  by_cases hc : i = .clear
  · subst hc
    rw [exec_clear] at h
    cases h
    exact ⟨u.clear, [], rfl, rfl, by simp, by simp⟩
  rw [exec_eq_commandRule i s hc] at h
  rw [exec_eq_commandRule i u hc]
  have raised (code : ErrCode) (w : CmdWord) :
      (u.errorEntry code w).toBlock = (s.errorEntry code w).toBlock := by
    simp [State.errorEntry, hb]
  rcases commandRule_cases h with ⟨hp, rfl⟩ | ⟨hp, hl, rfl⟩ |
    ⟨hp, hl, ⟨code, hr, rfl⟩ | ⟨b, out, hr, rfl⟩⟩
  · rw [hb] at hp
    exact ⟨u, [], commandRule_error i u _ hp, hb.symm, by simp, by simp⟩
  · rw [hb] at hp hl
    exact ⟨_, [], commandRule_illegal i u _ hp hl, raised _ _, by simp, by simp⟩
  · rw [hb] at hp hl hr
    exact ⟨_, [], commandRule_raise i u _ code hp hl hr, raised _ _, by simp, by simp⟩
  · rw [hb] at hp hl hr
    exact ⟨_, out, commandRule_complete i u _ b out hp hl hr, rfl, rfl, rfl⟩

/-! ## The statements -/

/-- Settles O6: `step_next`, and `step` without a move holds the state. -/
theorem everyStepGivesANextState : Obligations.EveryStepGivesANextState :=
  fun s => ⟨step_next s, step_of_host_nil⟩

/-- Settles O22, by the cases of the command's frame: each is decided by the block. -/
theorem commandDependsOnTheBlockAlone : Obligations.CommandDependsOnTheBlockAlone :=
  fun _ _ _ _ => exec_congr_block

/-- Settles O21, by the simulation `step_readFree`: a read and a wait leave the read-free machine where
it is, every other move is a move of that machine as well. -/
theorem registerReadsNeverFeedStep : Obligations.RegisterReadsNeverFeedStep := by
  intro s u t hu h
  rw [sameButReads_iff] at hu
  rcases step_readFree u.reads u.draws h with hsame | hstep
  · left
    rw [sameButReads_iff, ← hsame]
    exact hu
  · right
    rw [← hu] at hstep
    exact ⟨_, hstep, sameButReads_readFree t _ _⟩

end Sys2Proof.Machine
end

section
/-! The statements of spec/10_state.md: what every step keeps (R17 to R31, R43), what a built state holds
(R27, R29), and the register space (R33 to R42). -/

namespace Sys2Proof.Machine

/-! ## What a step does to the block and to the streams -/

/-- Running a word resets the block, leaves the state, enters ERROR, or completes a legal command. -/
theorem executeWord_outcome {w : CmdWord} {s t : State} (h : executeWord w s = .next t) :
    t = s.clear ∨ t = s ∨
    (s.phase ≠ .error ∧ ∃ code w, code ≠ .none ∧ t = s.errorEntry code w) ∨
    (∃ i b out, i ≠ .clear ∧ s.phase ≠ .error ∧ legal i s.phase s.src = true ∧
      ruleOf i s.toBlock = .ok (b, out) ∧ t = s.complete b out) := by
  rcases executeWord_cases h with ⟨i, -, hi⟩ | ⟨-, -, ⟨-, rfl⟩ | ⟨hp, rfl⟩⟩
  · by_cases hc : i = .clear
    · subst hc
      rw [exec_clear] at hi
      cases hi
      exact .inl rfl
    · rcases exec_cases hi with ⟨hc', -⟩ | ⟨-, rfl⟩ | ⟨hp, -, rfl⟩ |
        ⟨hp, hl, ⟨code, hr, rfl⟩ | ⟨b, out, hr, rfl⟩⟩
      · exact absurd hc' hc
      · exact .inr (.inl rfl)
      · exact .inr (.inr (.inl ⟨hp, _, _, by simp, rfl⟩))
      · exact .inr (.inr (.inl ⟨hp, code, _, (ruleOf_error hr).1, rfl⟩))
      · exact .inr (.inr (.inr ⟨i, b, out, hc, hp, hl, hr, rfl⟩))
  · exact .inr (.inl rfl)
  · exact .inr (.inr (.inl ⟨hp, _, _, by simp, rfl⟩))

/-- Running a word transfers nothing: outputs are offered, not put into the histories (R45, R47). -/
theorem executeWord_histories {w : CmdWord} {s t : State} (h : executeWord w s = .next t) :
    t.bitOut = s.bitOut ∧ t.symOut = s.symOut ∧ t.txtOut = s.txtOut := by
  rcases executeWord_outcome h with rfl | rfl | ⟨-, code, w, -, rfl⟩ | ⟨i, b, out, -, -, -, -, rfl⟩ <;>
    exact ⟨rfl, rfl, rfl⟩

/-- A step resets the block, leaves it, enters ERROR, or writes what a legal command's rule writes. -/
theorem step_block_cases {s t : State} (h : step s = .next t) :
    t.toBlock = Block.reset ∨ t.toBlock = s.toBlock ∨
    (s.phase ≠ .error ∧ ∃ code w, code ≠ .none ∧ t.toBlock = (s.errorEntry code w).toBlock) ∨
    (∃ i out, i ≠ .clear ∧ s.phase ≠ .error ∧ legal i s.phase s.src = true ∧
      ruleOf i s.toBlock = .ok (t.toBlock, out)) := by
  rcases step_cases h with ⟨rfl, -⟩ | ⟨w, rest, -, -, hx⟩ | ⟨p, rest, -, rfl⟩ | ⟨a, rest, -, rfl⟩ |
    ⟨rest, -, rfl⟩ | ⟨rest, -, rfl⟩
  · exact .inr (.inl rfl)
  · rcases executeWord_outcome hx with rfl | rfl | ⟨hp, code, w, hc, rfl⟩ | ⟨i, b, out, hi, hp, hl, hr, rfl⟩
    · exact .inl rfl
    · exact .inr (.inl rfl)
    · exact .inr (.inr (.inl ⟨hp, code, w, hc, rfl⟩))
    · exact .inr (.inr (.inr ⟨i, out, hi, hp, hl, hr⟩))
  · rcases takeFrom_cases ({ s with host := rest } : State) p with he | ⟨o, more, -, -, -, he⟩ <;> rw [he]
    · exact .inr (.inl rfl)
    · exact .inr (.inl (by simp))
  · exact .inr (.inl rfl)
  · exact .inl rfl
  · exact .inr (.inl rfl)

/-! ## The table, the control fields and the counters (R17 to R31) -/

theorem tableInv_errorEntry (s : State) (code : ErrCode) (w : CmdWord) (hs : s.TableInv) :
    (s.errorEntry code w).TableInv := hs.congr rfl rfl rfl rfl

theorem step_keeps_table {s t : State} (hs : s.TableInv) (h : step s = .next t) : t.TableInv :=
  step_keeps_block (P := Block.TableInv) tableInv_reset
    (fun s code w _ _ => tableInv_errorEntry s code w)
    (fun _ _ _ _ _ _ _ hr => ruleOf_table hr) (fun _ _ _ hr => (ruleOf_error hr).1) h hs

theorem step_keeps_control {s t : State} (hs : s.ControlInv) (h : step s = .next t) : t.ControlInv :=
  step_keeps_block (P := Block.ControlInv) controlInv_reset controlInv_errorEntry
    (fun _ _ _ _ hi hp hl hr => ruleOf_control hi hp hl hr) (fun _ _ _ hr => (ruleOf_error hr).1) h hs

/-- Before BUILD nothing is built (R19). -/
theorem Block.ControlInv.built_of_collect {b : Block} (h : b.ControlInv) (hp : b.phase = .collect) :
    b.built = false := by
  have hb := h.built_iff
  rw [jobPhase_of_ne (by simp [hp]), hp] at hb
  simpa using hb

/-! ## The account of the job's output (R30, R31) -/

/-- A job that begins has emitted nothing and counted nothing (R13 job, R135). -/
theorem accountInv_of_new_job {s : State} (hb : s.toBlock = Block.reset) (hm : s.jobMark = s.markNow) :
    s.AccountInv where
  counters := by rw [hb]; exact counterInv_reset
  marks := by simp [hm, State.markNow]
  bits := by rw [hb]; simp [State.jobBits, hm, State.markNow, Block.reset]
  syms := by rw [hb]; simp [State.jobSyms, hm, State.markNow, Block.reset]

/-- The account holds on while BITCNT and DECCNT grow by what is emitted. -/
theorem State.AccountInv.emit {s t : State} (h : s.AccountInv) (out : List Output)
    (hc : t.CounterInv) (hm : t.jobMark = s.jobMark)
    (hbits : t.emittedBits = s.emittedBits ++ bitsOf out)
    (hsyms : t.emittedSyms = s.emittedSyms ++ symsOf out)
    (htxts : t.emittedTxts = s.emittedTxts ++ txtsOf out)
    (hb : t.bitCnt.toNat = s.bitCnt.toNat + (bitsOf out).length)
    (hd : t.decCnt.toNat = s.decCnt.toNat + (symsOf out).length) : t.AccountInv := by
  obtain ⟨hmb, hms, hmt⟩ := h.marks
  refine ⟨hc, ?_, ?_, ?_⟩
  · simp only [hm, hbits, hsyms, htxts, List.length_append]
    omega
  · rw [hb, h.bits, State.jobBits, State.jobBits, hm, hbits, List.drop_append_of_le_length hmb,
      List.length_append]
  · rw [hd, h.syms, State.jobSyms, State.jobSyms, hm, hsyms, List.drop_append_of_le_length hms,
      List.length_append]

/-- The account speaks of the block, the mark and what has been emitted only. -/
theorem State.AccountInv.congr {s t : State} (h : s.AccountInv) (hb : t.toBlock = s.toBlock)
    (hm : t.jobMark = s.jobMark) (hbits : t.emittedBits = s.emittedBits)
    (hsyms : t.emittedSyms = s.emittedSyms) (htxts : t.emittedTxts = s.emittedTxts) : t.AccountInv :=
  h.emit [] (by rw [hb]; exact h.counters) hm (by simpa using hbits) (by simpa using hsyms)
    (by simpa using htxts) (by simp [hb]) (by simp [hb])

theorem accountInv_errorEntry {s : State} (hs : s.AccountInv) (hp : s.phase ≠ .error) (code : ErrCode)
    (w : CmdWord) : (s.errorEntry code w).AccountInv :=
  hs.emit [] (counterInv_errorEntry s code w hp hs.counters) rfl (by simp) (by simp) (by simp) rfl rfl

theorem executeWord_keeps_account {w : CmdWord} {s t : State} (hs : s.AccountInv)
    (h : executeWord w s = .next t) : t.AccountInv := by
  rcases executeWord_outcome h with rfl | rfl | ⟨hp, code, w, -, rfl⟩ | ⟨i, b, out, hi, hp, hl, hr, rfl⟩
  · exact accountInv_of_new_job rfl rfl
  · exact hs
  · exact accountInv_errorEntry hs hp code w
  · obtain ⟨hbits, hsyms⟩ := ruleOf_counts hi hp hl hr hs.counters
    exact hs.emit out (ruleOf_counters hi hp hl hr hs.counters) rfl (by simp) (by simp) (by simp)
      hbits hsyms

theorem takeFrom_keeps_account {s : State} (hs : s.AccountInv) (p : Stream) :
    (s.takeFrom p).AccountInv := by
  rcases takeFrom_cases s p with he | ⟨o, more, -, ho, -, he⟩ <;> rw [he]
  · exact hs
  · obtain ⟨hbits, hsyms, htxts⟩ := transfer_emitted s more o ho
    exact hs.congr (by simp) (by simp) hbits hsyms htxts

theorem step_keeps_account {s t : State} (hs : s.AccountInv) (h : step s = .next t) : t.AccountInv := by
  have host (rest : List HostMove) : ({ s with host := rest } : State).AccountInv :=
    hs.congr rfl rfl rfl rfl rfl
  rcases step_cases h with ⟨rfl, -⟩ | ⟨w, rest, -, -, hx⟩ | ⟨p, rest, -, rfl⟩ | ⟨a, rest, -, rfl⟩ |
    ⟨rest, -, rfl⟩ | ⟨rest, -, rfl⟩
  · exact hs
  · exact executeWord_keeps_account (host rest) hx
  · exact takeFrom_keeps_account (host rest) p
  · exact hs.congr rfl rfl rfl rfl rfl
  · exact accountInv_of_new_job rfl (by simp [State.resetEdge, State.markNow, State.emittedBits,
      State.emittedSyms, State.emittedTxts])
  · exact hs.congr rfl rfl rfl rfl rfl

/-! ## The tree and the code table (R19, R27, R29) -/

/-- The commands that write the table run before BUILD, and BUILD writes the tree over reset values. -/
theorem ruleOf_tree {i : Instr} {b b' : Block} {out : List Output} (hi : i ≠ .clear)
    (hl : legal i b.phase b.src = true) (h : ruleOf i b = .ok (b', out)) (hc : b.ControlInv)
    (hb : b.TreeCurrent) : b'.TreeCurrent := by
  have hrun := legal_phase hl
  have hentries : b.phase = .collect → b.built = true → b'.entries = b.entries := fun hp hbuilt =>
    absurd hbuilt (by simp [hc.built_of_collect hp])
  cases i <;> simp only [ruleOf] at h
  case nop => cases h; exact hb
  case clear => exact absurd rfl hi
  case serialize => cases h; exact hb
  case count v =>
    unfold countRule at h; split at h <;> cases h
    have e := countOne_fields b v
    refine hb.congr ?_ (hentries hrun.1) ?_ ?_ ?_ ?_ ?_ <;> simp only [e]
  case build =>
    unfold buildRule at h; split at h <;> cases h
    obtain ⟨hnode, -, -, hlen, hcode⟩ := hb.unbuilt (hc.built_of_collect hrun)
    have ht := withTree_hasTree hnode
    have hcodes := withTree_hasCodes hlen hcode
    exact ⟨fun _ => ht.node, fun _ => ht.nnodes, fun _ => ht.root, fun _ => hcodes.len,
      fun _ => hcodes.code, fun hbuilt => by simp [Block.withTree] at hbuilt⟩
  case encEnd =>
    unfold encEndRule at h; split at h <;> cases h
    exact hb.congr rfl (fun _ => rfl) rfl rfl rfl rfl rfl
  case decEnd =>
    unfold decEndRule at h; split at h <;> cases h
    exact hb.congr rfl (fun _ => rfl) rfl rfl rfl rfl rfl
  case encodeByte v =>
    obtain ⟨-, -, -, rfl⟩ := encodeRule_ok h
    exact hb.congr rfl (fun _ => rfl) rfl rfl rfl rfl rfl
  case decBit v =>
    rcases decBitRule_ok h with ⟨-, -, -, rfl⟩ | ⟨-, -, -, -, rfl⟩ | ⟨-, -, -, -, rfl⟩ | ⟨-, -, -, -, rfl⟩ <;>
      exact hb.congr rfl (fun _ => rfl) rfl rfl rfl rfl rfl
  case deserChar c =>
    rcases deserCharRule_ok h with ⟨-, ⟨_, _, _, -, rfl⟩ | ⟨-, -, -, -, -, rfl⟩⟩ <;>
      exact hb.congr rfl (hentries hrun.1) rfl rfl rfl rfl rfl

/-! ## The walk (R31, R102) -/

/-- A walk at the root with no bit pending. -/
theorem walkInv_at_root {b : Block} (h : b.TableInv) (ht : b.HasTree) (hcur : b.cur = b.root)
    (hdepth : b.depth = 0) : b.WalkInv where
  few := fun _ => ⟨hcur, hdepth⟩
  path := fun hn => by
    have hroot := root_toNat h ht
    have hsize := nnodes_toNat h ht
    refine ⟨[], by simp [hdepth], hcur.symm, ?_, ?_, by simp⟩ <;> rw [hcur] <;> omega

/-- A bit that leads to an internal node takes the walk there: such a node is at most 254 bits down,
since each bit leads to a smaller index. -/
theorem walkInv_child {b b' : Block} (h : b.TableInv) (ht : b.HasTree) (hw : b.WalkInv) (v : Bool)
    (hn : 1 < b.nnodes.toNat) (hleaf : (b.nodeAt (b.childOf v).toNat).leaf = false)
    (hb : b' = { b with cur := b.childOf v, depth := b.depth + 1, phase := .decoding }) :
    b'.WalkInv := by
  obtain ⟨p, hlen, hdesc, hge, hlt, -⟩ := hw.path hn
  have hchild : (b.childOf v).toNat < b.cur.toNat := child_lt h ht v hge hlt
  have hinternal : b.nsym.toNat ≤ (b.childOf v).toNat := by
    by_contra hsmall
    rw [(leaf_iff h ht (by omega)).mpr (by omega)] at hleaf
    cases hleaf
  have hdesc' : b.descend b.root (p ++ [v]) = b.childOf v := by
    rw [descend_append, hdesc]; rfl
  have hroot := root_toNat h ht
  have hsize := nnodes_toNat h ht
  have hk := h.tail.1
  have hdown := descend_length h ht b.root (p ++ [v]) (by omega) (by rw [hdesc']; exact hinternal)
  rw [hdesc', List.length_append, List.length_singleton] at hdown
  have hnode : b'.node = b.node := by rw [hb]
  subst hb
  refine ⟨fun hfew => absurd hn (Nat.not_lt.mpr hfew), fun _ =>
    ⟨p ++ [v], ?_, ?_, hinternal, hchild.trans hlt, ?_⟩⟩
  · rw [toNat_add_one (by omega), List.length_append, hlen]; rfl
  · exact (descend_congr hnode _ _).trans hdesc'
  · rw [List.length_append, List.length_singleton]; omega

/-- A table that still has a symbol to decode has a node. -/
theorem one_le_nnodes_of_decCnt_ne {b : Block} (h : b.TableInv) (ht : b.HasTree) (hc : b.CounterInv)
    (hd : b.decCnt ≠ b.total) : 1 ≤ b.nnodes.toNat := by
  have hsize := nnodes_toNat h ht
  have hlt : b.decCnt.toNat < b.total.toNat :=
    Nat.lt_of_le_of_ne hc.dec_le fun e => hd (BitVec.eq_of_toNat_eq e)
  have hempty := h.empty_iff
  omega

theorem decBitRule_walk {v : Bool} {b b' : Block} {out : List Output}
    (h : decBitRule v b = .ok (b', out)) (hb : b.Inv) (hbuilt : b.built = true) : b'.WalkInv := by
  have hw := hb.walk hbuilt
  have ht := hb.tree.hasTree hbuilt
  rcases decBitRule_ok h with ⟨-, -, -, rfl⟩ | ⟨-, -, -, -, rfl⟩ | ⟨-, -, -, -, rfl⟩ | ⟨hd, hn, hleaf, -, hb'⟩
  · exact hw.congr rfl rfl rfl rfl rfl rfl
  · exact hw.congr rfl rfl rfl rfl rfl rfl
  · exact walkInv_at_root (hb.table.congr rfl rfl rfl rfl) ⟨ht.node, ht.nnodes, ht.root⟩ rfl rfl
  · have h1 := one_le_nnodes_of_decCnt_ne hb.table ht hb.counters hd
    have hne : b.nnodes.toNat ≠ 1 := fun e => hn (BitVec.eq_of_toNat_eq e)
    exact walkInv_child hb.table ht hw v (by omega) hleaf hb'

theorem ruleOf_walk {i : Instr} {b b' : Block} {out : List Output} (hi : i ≠ .clear)
    (hl : legal i b.phase b.src = true) (h : ruleOf i b = .ok (b', out)) (hb : b.Inv)
    (hbuilt : b'.built = true) : b'.WalkInv := by
  have hrun := legal_phase hl
  have hunbuilt : b.phase = .collect → b'.built = b.built → b'.WalkInv := fun hp e => by
    rw [e, hb.control.built_of_collect hp] at hbuilt
    cases hbuilt
  cases i <;> simp only [ruleOf] at h
  case nop => cases h; exact hb.walk hbuilt
  case clear => exact absurd rfl hi
  case serialize => cases h; exact hb.walk hbuilt
  case count v =>
    unfold countRule at h; split at h <;> cases h
    have e := countOne_fields b v
    exact hunbuilt hrun.1 (by simp only [e])
  case build =>
    unfold buildRule at h; split at h <;> cases h
    obtain ⟨hnode, -⟩ := hb.tree.unbuilt (hb.control.built_of_collect hrun)
    exact walkInv_at_root (hb.table.congr rfl rfl rfl rfl) (withTree_hasTree hnode) rfl rfl
  case encEnd =>
    unfold encEndRule at h; split at h <;> cases h
    exact (hb.walk hbuilt).congr rfl rfl rfl rfl rfl rfl
  case decEnd =>
    unfold decEndRule at h; split at h <;> cases h
    exact (hb.walk hbuilt).congr rfl rfl rfl rfl rfl rfl
  case encodeByte v =>
    obtain ⟨-, -, -, rfl⟩ := encodeRule_ok h
    exact (hb.walk hbuilt).congr rfl rfl rfl rfl rfl rfl
  case decBit v =>
    refine decBitRule_walk h hb ?_
    rcases decBitRule_ok h with ⟨-, -, -, rfl⟩ | ⟨-, -, -, -, rfl⟩ | ⟨-, -, -, -, rfl⟩ | ⟨-, -, -, -, rfl⟩ <;>
      exact hbuilt
  case deserChar c =>
    rcases deserCharRule_ok h with ⟨-, ⟨_, _, _, -, rfl⟩ | ⟨-, -, -, -, -, rfl⟩⟩ <;>
      exact hunbuilt hrun.1 rfl

/-! ## The whole invariant -/

theorem inv_reset : Block.reset.Inv where
  table := tableInv_reset
  control := controlInv_reset
  counters := counterInv_reset
  tree := treeCurrent_reset
  walk := by simp [Block.reset]

theorem inv_errorEntry (s : State) (code : ErrCode) (w : CmdWord) (hc : code ≠ .none)
    (hp : s.phase ≠ .error) (hs : s.toBlock.Inv) : (s.errorEntry code w).toBlock.Inv where
  table := tableInv_errorEntry s code w hs.table
  control := controlInv_errorEntry s code w hc hp hs.control
  counters := counterInv_errorEntry s code w hp hs.counters
  tree := hs.tree.congr rfl (fun _ => rfl) rfl rfl rfl rfl rfl
  walk := fun hbuilt => (hs.walk hbuilt).congr rfl rfl rfl rfl rfl rfl

theorem ruleOf_inv {i : Instr} {b b' : Block} {out : List Output} (hi : i ≠ .clear)
    (hp : b.phase ≠ .error) (hl : legal i b.phase b.src = true) (h : ruleOf i b = .ok (b', out))
    (hb : b.Inv) : b'.Inv where
  table := ruleOf_table h hb.table
  control := ruleOf_control hi hp hl h hb.control
  counters := ruleOf_counters hi hp hl h hb.counters
  tree := ruleOf_tree hi hl h hb.control hb.tree
  walk := ruleOf_walk hi hl h hb

theorem step_keeps_inv {s t : State} (hs : s.toBlock.Inv) (h : step s = .next t) : t.toBlock.Inv :=
  step_keeps_block (P := Block.Inv) inv_reset inv_errorEntry
    (fun _ _ _ _ hi hp hl hr => ruleOf_inv hi hp hl hr) (fun _ _ _ hr => (ruleOf_error hr).1) h hs

/-! ## What a built state holds (R27, R29) -/

/-- Every node but the root is the child of exactly one internal node (R27 (d)). -/
theorem arena_one_parent {b : Block} (h : b.TableInv) (ht : b.HasTree) {i : Nat}
    (hi : i + 1 < b.nnodes.toNat) :
    ∃ p v, (b.nsym.toNat ≤ p ∧ p < b.nnodes.toNat ∧
        (if v = false then (b.nodeAt p).left else (b.nodeAt p).right).toNat = i) ∧
      ∀ q w, b.nsym.toNat ≤ q → q < b.nnodes.toNat →
        (if w = false then (b.nodeAt q).left else (b.nodeAt q).right).toNat = i → q = p ∧ w = v := by
  have hsize := nnodes_toNat h ht
  have hlen : (buildNodes b.entries).length = b.nnodes.toNat := by
    rw [buildNodes_length (entries_length_le h), entries_length, hsize]
  have hk := entries_length b
  have hg := growing_buildNodes (by omega) (entries_length_le h)
  have hparent := hg.parent i (by omega) (by simp only [List.mem_singleton]; omega)
  rw [hk, hlen] at hparent
  simpa only [childIn, ← nodeAt_hasTree h ht] using hparent

/-- The arena BUILD writes is the one R27 describes. -/
theorem arenaInv_of_hasTree {b : Block} (h : b.TableInv) (ht : b.HasTree) : b.ArenaInv where
  size := nnodes_toNat h ht
  leaves := fun _ => nodeAt_leaf h ht
  internal := fun _ => nodeAt_internal h ht
  order := fun _ => arena_order h ht
  root_last := root_toNat h ht
  one_parent := fun _ => arena_one_parent h ht
  rest := fun i hi => by
    have hlen := buildNodes_length (entries_length_le h)
    rw [entries_length, ← nnodes_toNat h ht] at hlen
    rw [nodeAt_hasTree h ht, List.getElem?_eq_none (by omega), Option.getD_none]

/-- A symbol has a code exactly when it is in the table (R29 (a)). -/
theorem exists_deriveCodes_iff {b : Block} (h : b.TableInv) (v : Byte) :
    (∃ q, (v, q) ∈ deriveCodes b.entries.length (buildNodes b.entries)) ↔ 1 ≤ (b.cnt.read v).toNat := by
  rw [← mem_entries_iff h, ← (deriveCodes_symbols h).mem_iff]
  simp

/-- LEN and CODE of a symbol with a code. -/
theorem code_of_mem {b : Block} (h : b.TableInv) (hc : b.HasCodes) {v : Byte} {q : BitString}
    (hq : (v, q) ∈ deriveCodes b.entries.length (buildNodes b.entries)) :
    (b.len.read v).toNat = q.length ∧ b.codeOf v = q ∧ b.code.read v = codeBits q := by
  obtain ⟨hlen, hcode⟩ := written_code h Block.reset.len Block.reset.code hq
  rw [← hc.len] at hlen hcode
  rw [← hc.code] at hcode
  have hlt := (deriveCodes_length h hq).2.2
  refine ⟨?_, hcode, ?_⟩
  · rw [hlen, BitVec.toNat_ofNat, Nat.mod_eq_of_lt (by omega)]
  · rw [hc.code, writeCodes_read (deriveCodes_nodup h) hq]

/-- LEN and CODE of a symbol without a code keep their reset values. -/
theorem code_of_absent {b : Block} (h : b.TableInv) (hc : b.HasCodes) {v : Byte}
    (hv : ¬ 1 ≤ (b.cnt.read v).toNat) : b.len.read v = 0 ∧ b.code.read v = 0 := by
  have hnone : ∀ c ∈ deriveCodes b.entries.length (buildNodes b.entries), c.1 ≠ v := by
    rintro ⟨u, q⟩ hq rfl
    exact hv ((exists_deriveCodes_iff h u).mp ⟨q, hq⟩)
  constructor
  · rw [hc.len, writeLens_read_other hnone]; exact read_replicate _ _
  · rw [hc.code, writeCodes_read_other hnone]; exact read_replicate _ _

/-- A symbol with LEN ≥ 1 has one of the derived codes. -/
theorem exists_code_of_len {b : Block} (h : b.TableInv) (hc : b.HasCodes) {v : Byte}
    (hv : 1 ≤ (b.len.read v).toNat) :
    ∃ q, (v, q) ∈ deriveCodes b.entries.length (buildNodes b.entries) := by
  rw [exists_deriveCodes_iff h]
  by_contra habs
  rw [(code_of_absent h hc habs).1] at hv
  exact absurd hv (by decide)

/-- The code table BUILD writes is the one R29 describes. -/
theorem codeInv_of_hasCodes {b : Block} (h : b.TableInv) (hc : b.HasCodes) : b.CodeInv where
  present := fun v => by
    refine ⟨fun hv => (exists_deriveCodes_iff h v).mp (exists_code_of_len h hc hv), fun hv => ?_⟩
    obtain ⟨q, hq⟩ := (exists_deriveCodes_iff h v).mpr hv
    rw [(code_of_mem h hc hq).1]
    exact (deriveCodes_length h hq).1
  prefix_free := fun u v hu hv hpre => by
    obtain ⟨p, hp⟩ := exists_code_of_len h hc hu
    obtain ⟨q, hq⟩ := exists_code_of_len h hc hv
    rw [(code_of_mem h hc hp).2.1, (code_of_mem h hc hq).2.1] at hpre
    exact deriveCodes_prefix_free h hp hq hpre
  bound := fun v => by
    by_cases hv : 1 ≤ (b.len.read v).toNat
    · obtain ⟨q, hq⟩ := exists_code_of_len h hc hv
      rw [(code_of_mem h hc hq).1]
      exact (deriveCodes_length h hq).2.1
    · omega
  high := fun v j hj => by
    by_cases hv : 1 ≤ (b.cnt.read v).toNat
    · obtain ⟨q, hq⟩ := (exists_deriveCodes_iff h v).mpr hv
      obtain ⟨hlen, -, hcode⟩ := code_of_mem h hc hq
      rw [hcode, codeBits_getLsbD, List.getElem?_eq_none (by omega), Option.getD_none, Bool.and_false]
    · rw [(code_of_absent h hc hv).2]
      exact BitVec.getLsbD_zero

/-- Before BUILD the arena and the code table hold their reset values (R19). -/
theorem Block.TreeCurrent.unbuilt_reads {b : Block} (h : b.TreeCurrent) (hb : b.built = false) :
    (∀ i, b.nodeAt i = Node.zero) ∧ ∀ v, b.len.read v = 0 ∧ b.code.read v = 0 := by
  obtain ⟨hnode, -, -, hlen, hcode⟩ := h.unbuilt hb
  refine ⟨fun i => ?_, fun v => ⟨?_, ?_⟩⟩
  · rw [Block.nodeAt, hnode]; exact nodeAt_reset i
  · rw [hlen]; exact read_replicate _ _
  · rw [hcode]; exact read_replicate _ _

/-! ## How PHASE, SRC and BUILT change (R17 to R19, R71) -/

/-- The changes of PHASE that one step can make, but for the way back to COLLECT. -/
def PhaseMoves (p q : Phase) : Prop :=
  q = p ∨ (q = .error ∧ p ≠ .error) ∨ (p = .collect ∧ q = .ready) ∨
    (p = .ready ∧ q = .encoding) ∨ (p = .ready ∧ q = .decoding) ∨
    ((p = .ready ∨ p = .encoding ∨ p = .decoding) ∧ q = .done)

theorem phaseMoves_phaseAfter {i : Instr} {b : Block} (hi : i ≠ .clear) (hrun : runsIn i b) :
    PhaseMoves b.phase (phaseAfter i b.phase) := by
  cases i with
  | nop | serialize | count | deserChar => exact .inl rfl
  | clear => exact absurd rfl hi
  | build => exact .inr (.inr (.inl ⟨hrun, rfl⟩))
  | encodeByte v =>
    rcases hrun with hp | hp <;> rw [hp]
    · exact .inr (.inr (.inr (.inl ⟨rfl, rfl⟩)))
    · exact .inl rfl
  | decBit v =>
    rcases hrun with hp | hp <;> rw [hp]
    · exact .inr (.inr (.inr (.inr (.inl ⟨rfl, rfl⟩))))
    · exact .inl rfl
  | encEnd => exact .inr (.inr (.inr (.inr (.inr ⟨hrun.imp_right .inl, rfl⟩))))
  | decEnd => exact .inr (.inr (.inr (.inr (.inr ⟨hrun.imp_right .inr, rfl⟩))))

/-- SRC is written by the commands that fill the table, BUILT by BUILD (R18, R19). -/
theorem ruleOf_src_built {i : Instr} {b b' : Block} {out : List Output} (hi : i ≠ .clear)
    (h : ruleOf i b = .ok (b', out)) :
    (b'.src = b.src ∨ (∃ v, i = .count v ∧ b'.src = .scan) ∨ ∃ c, i = .deserChar c ∧ b'.src = .text) ∧
      (b'.built = b.built ∨ (i = .build ∧ b'.built = true)) := by
  cases i <;> simp only [ruleOf] at h
  case nop => cases h; exact ⟨.inl rfl, .inl rfl⟩
  case clear => exact absurd rfl hi
  case serialize => cases h; exact ⟨.inl rfl, .inl rfl⟩
  case count v =>
    unfold countRule at h; split at h <;> cases h
    have e := countOne_fields b v
    exact ⟨.inr (.inl ⟨v, rfl, by simp only [e]⟩), .inl (by simp only [e])⟩
  case build => unfold buildRule at h; split at h <;> cases h; exact ⟨.inl rfl, .inr ⟨rfl, rfl⟩⟩
  case encEnd => unfold encEndRule at h; split at h <;> cases h; exact ⟨.inl rfl, .inl rfl⟩
  case decEnd => unfold decEndRule at h; split at h <;> cases h; exact ⟨.inl rfl, .inl rfl⟩
  case encodeByte v =>
    obtain ⟨-, -, -, rfl⟩ := encodeRule_ok h
    exact ⟨.inl rfl, .inl rfl⟩
  case decBit v =>
    rcases decBitRule_ok h with ⟨-, -, -, rfl⟩ | ⟨-, -, -, -, rfl⟩ | ⟨-, -, -, -, rfl⟩ | ⟨-, -, -, -, rfl⟩ <;>
      exact ⟨.inl rfl, .inl rfl⟩
  case deserChar c =>
    rcases deserCharRule_ok h with ⟨-, ⟨_, _, _, -, rfl⟩ | ⟨-, -, -, -, -, rfl⟩⟩ <;>
      exact ⟨.inr (.inr ⟨c, rfl, rfl⟩), .inl rfl⟩

/-- A legal command that writes SRC writes it for the first time, or as it was (R71). -/
theorem ruleOf_src {i : Instr} {b b' : Block} {out : List Output} (hi : i ≠ .clear)
    (hrun : runsIn i b) (h : ruleOf i b = .ok (b', out)) :
    b'.src = b.src ∨ (b.src = .empty ∧ b.phase = .collect ∧ b'.phase = .collect) := by
  have hp := ruleOf_phase h
  rcases (ruleOf_src_built hi h).1 with hs | ⟨v, rfl, hs⟩ | ⟨c, rfl, hs⟩
  · exact .inl hs
  · obtain ⟨hcollect, hsrc⟩ := hrun
    cases he : b.src with
    | empty => exact .inr ⟨rfl, hcollect, hp.trans hcollect⟩
    | scan => exact .inl hs
    | text => exact absurd he hsrc
  · obtain ⟨hcollect, hsrc⟩ := hrun
    cases he : b.src with
    | empty => exact .inr ⟨rfl, hcollect, hp.trans hcollect⟩
    | scan => exact absurd he hsrc
    | text => exact .inl hs

theorem step_changes_phase_src_built {s t : State} (h : step s = .next t) :
    t.toBlock = Block.reset ∨
    (PhaseMoves s.phase t.phase ∧
      (t.src = s.src ∨ (s.src = .empty ∧ s.phase = .collect ∧ t.phase = .collect)) ∧
      (t.built = s.built ∨ (t.built = true ∧ t.phase = .ready))) := by
  rcases step_block_cases h with hb | hb | ⟨hp, code, w, -, hb⟩ | ⟨i, out, hi, hp, hl, hr⟩
  · exact .inl hb
  · rw [hb]
    exact .inr ⟨.inl rfl, .inl rfl, .inl rfl⟩
  · rw [hb]
    exact .inr ⟨.inr (.inl ⟨rfl, hp⟩), .inl rfl, .inl rfl⟩
  · have hrun : runsIn i s.toBlock := legal_phase hl
    have hphase := ruleOf_phase hr
    refine .inr ⟨?_, ruleOf_src hi hrun hr, (ruleOf_src_built hi hr).2.imp_right ?_⟩
    · rw [hphase]; exact phaseMoves_phaseAfter hi hrun
    · rintro ⟨rfl, hbuilt⟩
      exact ⟨hbuilt, hphase⟩

/-! ## The output streams (R43) -/

theorem takeFrom_appends (s : State) (p : Stream) :
    s.bitOut <+: (s.takeFrom p).bitOut ∧ s.symOut <+: (s.takeFrom p).symOut ∧
      s.txtOut <+: (s.takeFrom p).txtOut := by
  rcases takeFrom_cases s p with he | ⟨o, more, -, -, -, he⟩ <;> rw [he]
  · exact ⟨List.prefix_rfl, List.prefix_rfl, List.prefix_rfl⟩
  · rw [transfer_bitOut, transfer_symOut, transfer_txtOut]
    exact ⟨List.prefix_append _ _, List.prefix_append _ _, List.prefix_append _ _⟩

theorem step_appends {s t : State} (h : step s = .next t) :
    s.bitOut <+: t.bitOut ∧ s.symOut <+: t.symOut ∧ s.txtOut <+: t.txtOut := by
  rcases step_cases h with ⟨rfl, -⟩ | ⟨w, rest, -, -, hx⟩ | ⟨p, rest, -, rfl⟩ | ⟨a, rest, -, rfl⟩ |
    ⟨rest, -, rfl⟩ | ⟨rest, -, rfl⟩
  case inr.inl =>
    obtain ⟨hb, hs, ht⟩ := executeWord_histories hx
    rw [hb, hs, ht]
    exact ⟨List.prefix_rfl, List.prefix_rfl, List.prefix_rfl⟩
  case inr.inr.inl => exact takeFrom_appends { s with host := rest } p
  all_goals exact ⟨List.prefix_rfl, List.prefix_rfl, List.prefix_rfl⟩

/-- A command emits nothing, or what its rule emits. -/
theorem exec_emitted {i : Instr} {s t : State} (h : exec i s = .next t) :
    ∃ out, t.emittedBits = s.emittedBits ++ bitsOf out ∧ t.emittedSyms = s.emittedSyms ++ symsOf out ∧
      t.emittedTxts = s.emittedTxts ++ txtsOf out ∧
      (out = [] ∨ ∃ b, ruleOf i s.toBlock = .ok (b, out)) := by
  rcases exec_cases h with ⟨-, rfl⟩ | ⟨-, rfl⟩ | ⟨-, -, rfl⟩ | ⟨-, -, ⟨code, -, rfl⟩ | ⟨b, out, hr, rfl⟩⟩
  case inr.inr.inr.inr =>
    exact ⟨out, complete_emittedBits s b out, complete_emittedSyms s b out, complete_emittedTxts s b out,
      .inr ⟨b, hr⟩⟩
  all_goals exact ⟨[], by simp, by simp, by simp, .inl rfl⟩

theorem exec_writes_own_stream {i : Instr} {s t : State} (h : exec i s = .next t) :
    (t.emittedBits ≠ s.emittedBits → ∃ v, i = .encodeByte v) ∧
    (t.emittedSyms ≠ s.emittedSyms → ∃ v, i = .decBit v) ∧
    (t.emittedTxts ≠ s.emittedTxts → i = .serialize) := by
  obtain ⟨out, hb, hs, ht, rfl | ⟨b, hr⟩⟩ := exec_emitted h
  · simp [hb, hs, ht]
  · obtain ⟨hbits, hsyms, htxts⟩ := ruleOf_out hr
    exact ⟨fun hne => hbits fun e => hne (by simp [hb, e]),
      fun hne => hsyms fun e => hne (by simp [hs, e]),
      fun hne => htxts fun e => hne (by simp [ht, e])⟩

/-! ## The register map (R33) -/

section

variable (b : Block) {a : RegAddr}

theorem regRead_cnt (h1 : 0x0100 ≤ a.toNat) (h2 : a.toNat < 0x0200) :
    b.regRead a = b.cnt.read (BitVec.ofNat 8 (a.toNat - 0x0100)) := by
  simp (disch := omega) only [Block.regRead, if_neg, if_pos]

theorem regRead_order (h1 : 0x0200 ≤ a.toNat) (h2 : a.toNat < 0x0300) :
    b.regRead a = b.orderWord (a.toNat - 0x0200) := by
  simp (disch := omega) only [Block.regRead, if_neg, if_pos]

theorem regRead_len (h1 : 0x0300 ≤ a.toNat) (h2 : a.toNat < 0x0400) :
    b.regRead a = (b.len.read (BitVec.ofNat 8 (a.toNat - 0x0300))).setWidth 32 := by
  simp (disch := omega) only [Block.regRead, if_neg, if_pos]

theorem regRead_nodeFreq (h1 : 0x0800 ≤ a.toNat) (h2 : a.toNat < 0x0A00) :
    b.regRead a = (b.nodeAt (a.toNat - 0x0800)).freq := by
  simp (disch := omega) only [Block.regRead, if_neg, if_pos]

theorem regRead_nodeLink (h1 : 0x0A00 ≤ a.toNat) (h2 : a.toNat < 0x0C00) :
    b.regRead a = (b.nodeAt (a.toNat - 0x0A00)).linkWord := by
  simp (disch := omega) only [Block.regRead, if_neg, if_pos]

theorem regRead_code (h1 : 0x1000 ≤ a.toNat) (h2 : a.toNat < 0x1800) :
    b.regRead a = codeRegWord (b.len.read (BitVec.ofNat 8 ((a.toNat - 0x1000) / 8)))
      (b.code.read (BitVec.ofNat 8 ((a.toNat - 0x1000) / 8))) ((a.toNat - 0x1000) % 8) := by
  simp (disch := omega) only [Block.regRead, if_neg, if_pos]

/-- The addresses between the areas of the map (R33, R41). -/
def Unmapped (a : RegAddr) : Prop :=
  (0x000E ≤ a.toNat ∧ a.toNat ≤ 0x00FF) ∨ (0x0400 ≤ a.toNat ∧ a.toNat ≤ 0x07FF) ∨
    (0x0C00 ≤ a.toNat ∧ a.toNat ≤ 0x0FFF) ∨ (0x1800 ≤ a.toNat ∧ a.toNat ≤ 0xFFFF)

theorem regRead_unmapped (h : Unmapped a) : b.regRead a = 0 := by
  unfold Unmapped at h
  simp (disch := omega) only [Block.regRead, if_neg]

end

/-! ## The fields of a register (R35 to R40) -/

/-- Fields side by side, as a number. -/
theorem toNat_append_eq {m n : Nat} (x : BitVec m) (y : BitVec n) :
    (x ++ y).toNat = x.toNat * 2 ^ n + y.toNat := by
  rw [BitVec.toNat_append, ← Nat.shiftLeft_add_eq_or_of_lt y.isLt, Nat.shiftLeft_eq]

theorem orderWord_eq (b : Block) (i : Nat) :
    b.orderWord i = if i < b.nsym.toNat then 0x80000000 + (b.orderAt i).setWidth 32 else 0 := by
  unfold Block.orderWord
  refine ite_congr rfl (fun _ => ?_) fun _ => rfl
  have hlt := (b.orderAt i).isLt
  apply BitVec.eq_of_toNat_eq
  rw [toNat_append_eq, toNat_append_eq]
  simp only [BitVec.toNat_add, BitVec.toNat_setWidth, BitVec.ofNat_eq_ofNat, BitVec.toNat_ofNat]
  omega

/-- The children of an internal node, in one word (R39). -/
theorem children_word_eq (l r : NodeIdx) :
    ((1 : BitVec 1) ++ (0 : BitVec 1) ++ (0 : BitVec 5) ++ r ++ (0 : BitVec 7) ++ l : RegWord) =
      0x80000000 + r.setWidth 32 * 0x10000 + l.setWidth 32 := by
  have hl := l.isLt
  have hr := r.isLt
  have hshift : (r.setWidth 32 * 0x10000 : RegWord).toNat = r.toNat * 0x10000 := by
    rw [BitVec.toNat_mul, BitVec.toNat_setWidth_of_le (by decide)]
    exact Nat.mod_eq_of_lt (show r.toNat * 0x10000 < 2 ^ 32 by omega)
  apply BitVec.eq_of_toNat_eq
  rw [toNat_append_eq, toNat_append_eq, toNat_append_eq, toNat_append_eq, toNat_append_eq,
    BitVec.toNat_add, BitVec.toNat_add, hshift, BitVec.toNat_setWidth_of_le (show 9 ≤ 32 by decide)]
  simp only [BitVec.ofNat_eq_ofNat, BitVec.toNat_ofNat]
  omega

theorem linkWord_eq (n : Node) :
    n.linkWord = if n.valid = false then 0
      else if n.leaf then 0xC0000000 + n.sym.setWidth 32
      else 0x80000000 + n.right.setWidth 32 * 0x10000 + n.left.setWidth 32 := by
  unfold Node.linkWord
  refine ite_congr rfl (fun _ => rfl) fun _ => ite_congr rfl (fun _ => ?_)
    fun _ => children_word_eq n.left n.right
  have hlt := n.sym.isLt
  apply BitVec.eq_of_toNat_eq
  rw [toNat_append_eq, toNat_append_eq, toNat_append_eq]
  simp only [BitVec.toNat_add, BitVec.toNat_setWidth, BitVec.ofNat_eq_ofNat, BitVec.toNat_ofNat]
  omega

/-- The code bits below LEN, in the word they stand in (R40). -/
theorem codeRegWord_getLsbD (len : BitVec 8) (code : BitVec 255) {w j : Nat} (hj : j < 32) :
    (codeRegWord len code w).getLsbD j =
      (decide (32 * w + j < len.toNat) && code.getLsbD (32 * w + j)) := by
  have hlen := len.isLt
  have hmask : (BitVec.allOnes 256 >>> (256 - len.toNat)).getLsbD (32 * w + j) =
      decide (32 * w + j < len.toNat) := by
    rw [BitVec.getLsbD_ushiftRight, BitVec.getLsbD_allOnes, decide_eq_decide]
    omega
  rw [codeRegWord, BitVec.getLsbD_setWidth, BitVec.getLsbD_ushiftRight, BitVec.getLsbD_and, hmask,
    BitVec.getLsbD_setWidth]
  by_cases hbit : 32 * w + j < len.toNat
  · simp [hj, hbit, (by omega : 32 * w + j < 256)]
  · simp [hbit]

/-! ## The registers of the tables (R38 to R40) -/

/-- The address of an entry of an area of the map. -/
theorem toNat_base_add {base n : Nat} (x : BitVec n) (h : base + 2 ^ n ≤ 2 ^ 16) :
    (BitVec.ofNat 16 base + x.setWidth 16).toNat = base + x.toNat := by
  have hx := x.isLt
  rw [BitVec.toNat_add, BitVec.toNat_ofNat, BitVec.toNat_setWidth, Nat.mod_eq_of_lt (a := base) (by omega),
    Nat.mod_eq_of_lt (a := x.toNat) (by omega), Nat.mod_eq_of_lt (by omega)]

section

variable (b : Block) (v : Byte) (i : NodeIdx)

theorem regRead_cnt_symbol : b.regRead (0x0100 + v.setWidth 16) = b.cnt.read v := by
  have ha : (0x0100 + v.setWidth 16 : RegAddr).toNat = 0x0100 + v.toNat := toNat_base_add v (by decide)
  have hv := v.isLt
  rw [regRead_cnt b (by omega) (by omega), ha, Nat.add_sub_cancel_left, BitVec.ofNat_toNat,
    BitVec.setWidth_eq]

theorem regRead_len_symbol :
    b.regRead (0x0300 + v.setWidth 16) = (b.len.read v).setWidth 32 := by
  have ha : (0x0300 + v.setWidth 16 : RegAddr).toNat = 0x0300 + v.toNat := toNat_base_add v (by decide)
  have hv := v.isLt
  rw [regRead_len b (by omega) (by omega), ha, Nat.add_sub_cancel_left, BitVec.ofNat_toNat,
    BitVec.setWidth_eq]

theorem regRead_order_index : b.regRead (0x0200 + v.setWidth 16) = b.orderWord v.toNat := by
  have ha : (0x0200 + v.setWidth 16 : RegAddr).toNat = 0x0200 + v.toNat := toNat_base_add v (by decide)
  have hv := v.isLt
  rw [regRead_order b (by omega) (by omega), ha, Nat.add_sub_cancel_left]

theorem regRead_nodeFreq_index : b.regRead (0x0800 + i.setWidth 16) = (b.nodeAt i.toNat).freq := by
  have ha : (0x0800 + i.setWidth 16 : RegAddr).toNat = 0x0800 + i.toNat := toNat_base_add i (by decide)
  have hi := i.isLt
  rw [regRead_nodeFreq b (by omega) (by omega), ha, Nat.add_sub_cancel_left]

theorem regRead_nodeLink_index :
    b.regRead (0x0A00 + i.setWidth 16) = (b.nodeAt i.toNat).linkWord := by
  have ha : (0x0A00 + i.setWidth 16 : RegAddr).toNat = 0x0A00 + i.toNat := toNat_base_add i (by decide)
  have hi := i.isLt
  rw [regRead_nodeLink b (by omega) (by omega), ha, Nat.add_sub_cancel_left]

theorem regRead_code_word {w : Nat} (hw : w < 8) :
    b.regRead (BitVec.ofNat 16 (0x1000 + 8 * v.toNat + w)) =
      codeRegWord (b.len.read v) (b.code.read v) w := by
  have hv := v.isLt
  have ha : (BitVec.ofNat 16 (0x1000 + 8 * v.toNat + w)).toNat = 0x1000 + 8 * v.toNat + w := by
    rw [BitVec.toNat_ofNat, Nat.mod_eq_of_lt (by omega)]
  have hsym : (0x1000 + 8 * v.toNat + w - 0x1000) / 8 = v.toNat := by omega
  have hword : (0x1000 + 8 * v.toNat + w - 0x1000) % 8 = w := by omega
  rw [regRead_code b (by omega) (by omega), ha, hsym, hword, BitVec.ofNat_toNat, BitVec.setWidth_eq]

/-- NODE has 511 entries, so the last register of each of its areas reads 0 (R38, R39). -/
theorem nodeAt_of_le {i : Nat} (h : 511 ≤ i) : b.nodeAt i = Node.zero := by
  rw [Block.nodeAt, Vector.getElem?_eq_none h, Option.getD_none]

theorem counter_words : (b.regRead 0x0008 ++ b.regRead 0x0007 : BitVec 64) = b.bitCnt :=
  BitVec.extractLsb'_append_extractLsb'_eq_extractLsb' (by decide) |>.trans BitVec.extractLsb'_eq_self

end

/-! ## The packed registers (R34 to R37) -/

/-- A field of a word, read off the word as a number. -/
theorem extractLsb'_eq_of_toNat {x : RegWord} {start len : Nat} {y : BitVec len}
    (h : x.toNat / 2 ^ start % 2 ^ len = y.toNat) : x.extractLsb' start len = y := by
  apply BitVec.eq_of_toNat_eq
  rw [BitVec.extractLsb'_toNat, Nat.shiftRight_eq_div_pow, h]

/-- A reserved field. -/
theorem extractLsb'_eq_zero {x : RegWord} {start len : Nat}
    (h : x.toNat / 2 ^ start % 2 ^ len = 0) : x.extractLsb' start len = 0 :=
  extractLsb'_eq_of_toNat (by rw [h]; exact BitVec.toNat_zero.symm)

/-- A field of one bit. -/
theorem getLsbD_eq_of_toNat {x : RegWord} {j : Nat} {v : Bool} (h : x.toNat / 2 ^ j % 2 = v.toNat) :
    x.getLsbD j = v := by
  rw [BitVec.getLsbD, Nat.testBit_eq_decide_div_mod_eq, h]
  cases v <;> rfl

section

variable (b : Block)

theorem statusWord_toNat :
    b.statusWord.toNat = b.built.toNat * 2 ^ 8 + b.src.bits.toNat * 2 ^ 4 + b.phase.bits.toNat := by
  rw [Block.statusWord, toNat_append_eq, toNat_append_eq, toNat_append_eq, toNat_append_eq, toNat_append_eq]
  simp only [BitVec.ofNat_eq_ofNat, BitVec.toNat_ofNat, BitVec.toNat_ofBool]
  omega

theorem statusWord_fields :
    b.statusWord.extractLsb' 0 3 = b.phase.bits ∧ b.statusWord.extractLsb' 3 1 = 0 ∧
      b.statusWord.extractLsb' 4 2 = b.src.bits ∧ b.statusWord.extractLsb' 6 2 = 0 ∧
      b.statusWord.getLsbD 8 = b.built ∧ b.statusWord.extractLsb' 9 23 = 0 := by
  have hw := statusWord_toNat b
  have hp := b.phase.bits.isLt
  have hs := b.src.bits.isLt
  have hb := b.built.toNat_lt
  exact ⟨extractLsb'_eq_of_toNat (by omega), extractLsb'_eq_zero (by omega),
    extractLsb'_eq_of_toNat (by omega), extractLsb'_eq_zero (by omega), getLsbD_eq_of_toNat (by omega),
    extractLsb'_eq_zero (by omega)⟩

theorem errorWord_toNat :
    b.errorWord.toNat = b.errCmd.toNat * 2 ^ 16 + b.errPhase.bits.toNat * 2 ^ 8 + b.errCode.bits.toNat := by
  rw [Block.errorWord, toNat_append_eq, toNat_append_eq, toNat_append_eq]
  simp only [BitVec.ofNat_eq_ofNat, BitVec.toNat_ofNat]
  omega

theorem errorWord_fields :
    b.errorWord.extractLsb' 0 8 = b.errCode.bits ∧ b.errorWord.extractLsb' 8 3 = b.errPhase.bits ∧
      b.errorWord.extractLsb' 11 5 = 0 ∧ b.errorWord.extractLsb' 16 16 = b.errCmd := by
  have hw := errorWord_toNat b
  have hcode := b.errCode.bits.isLt
  have hphase := b.errPhase.bits.isLt
  have hcmd := b.errCmd.isLt
  exact ⟨extractLsb'_eq_of_toNat (by omega), extractLsb'_eq_of_toNat (by omega),
    extractLsb'_eq_zero (by omega), extractLsb'_eq_of_toNat (by omega)⟩

theorem treeWord_toNat : b.treeWord.toNat = b.nnodes.toNat * 2 ^ 16 + b.root.toNat := by
  rw [Block.treeWord, toNat_append_eq, toNat_append_eq, toNat_append_eq]
  simp only [BitVec.ofNat_eq_ofNat, BitVec.toNat_ofNat]
  omega

theorem treeWord_fields :
    b.treeWord.extractLsb' 0 9 = b.root ∧ b.treeWord.extractLsb' 9 7 = 0 ∧
      b.treeWord.extractLsb' 16 9 = b.nnodes ∧ b.treeWord.extractLsb' 25 7 = 0 := by
  have hw := treeWord_toNat b
  have hroot := b.root.isLt
  have hnodes := b.nnodes.isLt
  exact ⟨extractLsb'_eq_of_toNat (by omega), extractLsb'_eq_zero (by omega),
    extractLsb'_eq_of_toNat (by omega), extractLsb'_eq_zero (by omega)⟩

theorem walkWord_toNat : b.walkWord.toNat = b.depth.toNat * 2 ^ 16 + b.cur.toNat := by
  rw [Block.walkWord, toNat_append_eq, toNat_append_eq, toNat_append_eq]
  simp only [BitVec.ofNat_eq_ofNat, BitVec.toNat_ofNat]
  omega

theorem walkWord_fields :
    b.walkWord.extractLsb' 0 9 = b.cur ∧ b.walkWord.extractLsb' 9 7 = 0 ∧
      b.walkWord.extractLsb' 16 8 = b.depth ∧ b.walkWord.extractLsb' 24 8 = 0 := by
  have hw := walkWord_toNat b
  have hcur := b.cur.isLt
  have hdepth := b.depth.isLt
  exact ⟨extractLsb'_eq_of_toNat (by omega), extractLsb'_eq_zero (by omega),
    extractLsb'_eq_of_toNat (by omega), extractLsb'_eq_zero (by omega)⟩

theorem parseWord_toNat : b.parseWord.toNat = b.psym.toNat * 2 ^ 8 + b.pstate.bits.toNat := by
  rw [Block.parseWord, toNat_append_eq, toNat_append_eq, toNat_append_eq]
  simp only [BitVec.ofNat_eq_ofNat, BitVec.toNat_ofNat]
  omega

theorem parseWord_fields :
    b.parseWord.extractLsb' 0 4 = b.pstate.bits ∧ b.parseWord.extractLsb' 4 4 = 0 ∧
      b.parseWord.extractLsb' 8 8 = b.psym ∧ b.parseWord.extractLsb' 16 16 = 0 := by
  have hw := parseWord_toNat b
  have hpos := b.pstate.bits.isLt
  have hsym := b.psym.isLt
  exact ⟨extractLsb'_eq_of_toNat (by omega), extractLsb'_eq_zero (by omega),
    extractLsb'_eq_of_toNat (by omega), extractLsb'_eq_zero (by omega)⟩

end

/-- PSTATE 0 to 7 reads as the digit's place (R25). -/
theorem symDigit_bits_toNat (k : Fin 8) : (ParsePos.symDigit k).bits.toNat = k.val := by
  have hk := k.isLt
  rw [ParsePos.bits, BitVec.toNat_ofNat, Nat.mod_eq_of_lt (by omega)]

/-! ## The reset values (R42) -/

theorem orderWord_reset (i : Nat) : Block.reset.orderWord i = 0 := if_neg (Nat.not_lt_zero i)

theorem codeRegWord_zero (code : BitVec 255) (w : Nat) : codeRegWord 0 code w = 0 := by
  apply BitVec.eq_of_getLsbD_eq
  intro j hj
  rw [codeRegWord_getLsbD 0 code hj]
  simp

/-- Every register but ID reads 0 (R42). -/
theorem regRead_reset (a : RegAddr) :
    Block.reset.regRead a = if a = 0x0000 then 0x48554646 else 0 := by
  by_cases ha : a = 0x0000
  · rw [if_pos ha, ha]; rfl
  rw [if_neg ha]
  have hlt := a.isLt
  have hcases : a.toNat < 0x000E ∨ Unmapped a ∨ (0x0100 ≤ a.toNat ∧ a.toNat < 0x0200) ∨
      (0x0200 ≤ a.toNat ∧ a.toNat < 0x0300) ∨ (0x0300 ≤ a.toNat ∧ a.toNat < 0x0400) ∨
      (0x0800 ≤ a.toNat ∧ a.toNat < 0x0A00) ∨ (0x0A00 ≤ a.toNat ∧ a.toNat < 0x0C00) ∨
      (0x1000 ≤ a.toNat ∧ a.toNat < 0x1800) := by
    unfold Unmapped; omega
  rcases hcases with hfixed | hu | ⟨h1, h2⟩ | ⟨h1, h2⟩ | ⟨h1, h2⟩ | ⟨h1, h2⟩ | ⟨h1, h2⟩ | ⟨h1, h2⟩
  · have hall : ∀ n : Fin 14, n ≠ 0 → Block.reset.regRead (BitVec.ofNat 16 n.val) = 0 := by
      decide
    have hne : (⟨a.toNat, hfixed⟩ : Fin 14) ≠ 0 := fun e =>
      ha (BitVec.eq_of_toNat_eq (show a.toNat = 0 from congrArg Fin.val e))
    simpa using hall ⟨a.toNat, hfixed⟩ hne
  · exact regRead_unmapped _ hu
  · rw [regRead_cnt _ h1 h2]; exact read_replicate _ _
  · rw [regRead_order _ h1 h2, orderWord_reset]
  · rw [regRead_len _ h1 h2]; exact congrArg _ (read_replicate _ _)
  · rw [regRead_nodeFreq _ h1 h2, nodeAt_reset]; rfl
  · rw [regRead_nodeLink _ h1 h2, nodeAt_reset]; rfl
  · rw [regRead_code _ h1 h2, show ∀ v, Block.reset.len.read v = 0 from read_replicate _, codeRegWord_zero]

/-! ## The statements -/

/-- Settles O56, by the cases of a step: `ruleOf_table` for the commands. -/
theorem stepKeepsTheTable : Obligations.StepKeepsTheTable := fun _ _ => step_keeps_table

/-- Settles O57, by the cases of a step: `ruleOf_control` for the commands. -/
theorem stepKeepsControl : Obligations.StepKeepsControl := fun _ _ => step_keeps_control

/-- Settles O58: a command counts what it emits, a transfer emits nothing, and a reset begins a job. -/
theorem stepKeepsTheAccount : Obligations.StepKeepsTheAccount := fun _ _ => step_keeps_account

/-- Settles O59, by the cases of a step: `ruleOf_inv` for the commands. -/
theorem stepKeepsTheInvariant : Obligations.StepKeepsTheInvariant := fun _ _ => step_keeps_inv

/-- Settles O55: at reset a job begins on the block's reset values. -/
theorem resetMeetsTheInvariants : Obligations.ResetMeetsTheInvariants :=
  ⟨inv_reset, accountInv_of_new_job rfl rfl⟩

/-- Settles O60: the tree and the codes of an invariant state are BUILD's for its table. -/
theorem builtStateHasTreeAndCode : Obligations.BuiltStateHasTreeAndCode := fun _ hs =>
  ⟨fun hb => ⟨arenaInv_of_hasTree hs.table (hs.tree.hasTree hb),
    codeInv_of_hasCodes hs.table (hs.tree.hasCodes hb)⟩, hs.tree.unbuilt_reads⟩

/-- Settles O15: a legal command moves PHASE as `phaseAfter` says, and only the commands of COLLECT write
SRC and BUILT. -/
theorem phaseAndSourceChangeOnlySo : Obligations.PhaseAndSourceChangeOnlySo :=
  fun _ _ => step_changes_phase_src_built

/-- Settles O26: only a take moves a value to a history, and it appends. -/
theorem streamsAreAppendOnly : Obligations.StreamsAreAppendOnly := fun _ _ => step_appends

/-- Settles O27: what a command emits is what its rule emits, and `ruleOf_out` says on which stream. -/
theorem eachStreamHasOneWriter : Obligations.EachStreamHasOneWriter :=
  fun _ _ _ => exec_writes_own_stream

/-- Settles O14: reset and CLEAR leave `Block.reset`, whose registers `regRead_reset` reads area by
area. -/
theorem resetRegistersReadZero : Obligations.ResetRegistersReadZero := by
  intro s t h
  have hb : s.toBlock = Block.reset := by
    rcases h with rfl | hclear
    · rfl
    · rw [exec_clear] at hclear
      cases hclear
      rfl
  rw [hb]
  exact ⟨⟨rfl, rfl, rfl, rfl, rfl, rfl, read_replicate _, orderAt_reset, rfl, rfl, rfl, rfl, rfl,
    nodeAt_reset, rfl, rfl, fun v => ⟨read_replicate _ v, read_replicate _ v⟩, rfl, rfl, rfl, rfl, rfl, rfl⟩,
    regRead_reset⟩

/-- Settles O16: each register is its fields side by side. -/
theorem packedRegistersHoldTheirFields : Obligations.PackedRegistersHoldTheirFields := fun b =>
  ⟨rfl, statusWord_fields b, errorWord_fields b, treeWord_fields b, walkWord_fields b, parseWord_fields b,
    rfl, rfl, rfl, symDigit_bits_toNat, rfl⟩

/-- Settles O17, area by area of the register map. -/
theorem counterAndTableRegistersRead : Obligations.CounterAndTableRegistersRead := by
  intro b
  refine ⟨?_, rfl, rfl, rfl, counter_words b, ?_, rfl, fun v => ⟨regRead_cnt_symbol b v, ?_, ?_⟩,
    fun i => ⟨regRead_nodeFreq_index b i, ?_⟩, ?_, ?_⟩
  · exact BitVec.toNat_setWidth_of_le (show 9 ≤ 32 by decide)
  · exact BitVec.toNat_setWidth_of_le (show 4 ≤ 32 by decide)
  · rw [regRead_len_symbol]
    exact BitVec.toNat_setWidth_of_le (by decide)
  · rw [regRead_order_index, orderWord_eq]
  · rw [regRead_nodeLink_index, linkWord_eq]
  · rw [regRead_nodeFreq b (by decide) (by decide), nodeAt_of_le b (by decide)]; rfl
  · rw [regRead_nodeLink b (by decide) (by decide), nodeAt_of_le b (by decide)]; rfl

/-- Settles O18: the address names the symbol and the word, and the word is masked at LEN. -/
theorem codeRegistersHoldTheCode : Obligations.CodeRegistersHoldTheCode := by
  intro b v w j hw hj
  rw [regRead_code_word b v hw, codeRegWord_getLsbD _ _ hj]

/-- Settles O19: these addresses are those between the areas of the map. -/
theorem unmappedAddressesReadZero : Obligations.UnmappedAddressesReadZero :=
  fun b _ => regRead_unmapped b

end Sys2Proof.Machine
end

section
/-! The statements of spec/20_memory.md: a transfer on a stream (R45, R47), a host that drains (R46), a
register read (R48), and a word on an idle block (R46, R72). -/

namespace Sys2Proof.Machine

/-! ## A transfer (R45, R47) -/

/-- The three cases of a transfer at once: the value goes to its own stream's history. -/
theorem transfer_eq (s : State) (o : Output) (more : List Output) :
    s.transfer o more =
      { s with offered := more, bitOut := s.bitOut ++ bitsOf [o]
               symOut := s.symOut ++ symsOf [o], txtOut := s.txtOut ++ txtsOf [o] } := by
  cases o <;> simp [State.transfer, bitsOf, symsOf, txtsOf]

theorem takeFrom_of_offered_cons {s : State} {o : Output} {more : List Output} (p : Stream)
    (hr : s.inReset = false) (ho : s.offered = o :: more) :
    s.takeFrom p = if o.stream = p then s.transfer o more else s := by
  simp [State.takeFrom, hr, ho]

theorem step_take {s : State} {p : Stream} {o : Output} {more : List Output} {rest : List HostMove}
    (hr : s.inReset = false) (ho : s.offered = o :: more) (hh : s.host = .take p :: rest) :
    step s = .next (if o.stream = p then ({ s with host := rest } : State).transfer o more
      else { s with host := rest }) := by
  rw [step_of_host_cons hh, hostMove,
    takeFrom_of_offered_cons (s := { s with host := rest }) p hr ho]

/-! ## A host that drains (R46) -/

/-- Transferring the oldest value first and then draining is draining (R46, R47). -/
theorem transfer_drained {s : State} {o : Output} {more : List Output} (ho : s.offered = o :: more) :
    (s.transfer o more).drained = s.drained := by
  obtain ⟨hb, hs, ht⟩ := transfer_emitted s more o ho
  rw [State.drained, hb, hs, ht, transfer_eq]
  rfl

/-- A take on the oldest value's stream leaves the other values offered, and draining those gives the
histories that draining them all would have given. -/
theorem step_take_own {s : State} {o : Output} {more : List Output} {rest : List HostMove}
    (hr : s.inReset = false) (ho : s.offered = o :: more) (hh : s.host = .take o.stream :: rest) :
    ∃ u, step s = .next u ∧ u.inReset = false ∧ u.offered = more ∧ u.host = rest ∧
      u.drained = { s.drained with host := rest } :=
  ⟨({ s with host := rest } : State).transfer o more,
    (step_take hr ho hh).trans (congrArg _ (if_pos rfl)), (transfer_inReset _ _ o).trans hr,
    transfer_offered _ _ o, transfer_host _ _ o, transfer_drained ho⟩

theorem drained_of_offered_nil {s : State} (ho : s.offered = []) : s.drained = s := by
  cases s
  subst ho
  simp [State.drained, State.emittedBits, State.emittedSyms, State.emittedTxts]

theorem run_succ_of_step {s t : State} (k : Nat) (h : step s = .next t) :
    Host.Core.run core (k + 1) s = Host.Core.run core k t := by
  have hstep : core.step s = .next t := h
  simp only [Host.Core.run, hstep]

/-- Taking the offered values one by one ends where draining them all at once does: each take
transfers the oldest value, and the rest is the same run from there. -/
theorem run_takes (out : List Output) (rest : List HostMove) (s : State) (hr : s.inReset = false)
    (ho : s.offered = out) (hh : s.host = takesOf out ++ rest) :
    Host.Core.run core out.length s = .next { s.drained with host := rest } := by
  induction out generalizing s with
  | nil =>
    rw [drained_of_offered_nil ho, show rest = s.host from hh.symm]
    rfl
  | cons o more ih =>
    obtain ⟨u, hu, hur, huo, huh, hud⟩ := step_take_own hr ho hh
    calc Host.Core.run core (more.length + 1) s = Host.Core.run core more.length u :=
          run_succ_of_step _ hu
      _ = .next { u.drained with host := rest } := ih u hur huo huh
      _ = .next { s.drained with host := rest } := by rw [hud]

theorem valid_of_offered_nil {s : State} (ho : s.offered = []) (p : Stream) : s.valid p = false := by
  simp [State.valid, State.offeredValue, ho]

theorem idle_of_offered_nil {s : State} (hr : s.inReset = false) (ho : s.offered = []) :
    s.idle = true := by
  simp [State.idle, hr, ho]

/-! ## A register read (R48) -/

theorem step_readReg {s : State} {a : RegAddr} {rest : List HostMove} (hh : s.host = .readReg a :: rest) :
    step s = .next (({ s with host := rest } : State).recordRead a) := by
  rw [step_of_host_cons hh, hostMove]

theorem regData_of_idle {s : State} (a : RegAddr) (hidle : s.idle = true) :
    s.regData a = s.toBlock.regRead a := if_pos hidle

/-! ## The statements -/

/-- Settles O4: an idle block has cmd_ready = 1, so the move is `Execute` of the word, and that is the
decoded command. -/
theorem stepRunsTheDecodedCommand : Obligations.StepRunsTheDecodedCommand := by
  intro s w rest i hidle hh hd
  have hready : s.cmdReady = true := hidle
  rw [step_of_host_cons hh, hostMove, if_pos hready, executeWord, hd]

/-- Settles O20: the value read is `State.regData`, and `State.recordRead` writes it to the read history
alone. -/
theorem registerReadHasNoEffect : Obligations.RegisterReadHasNoEffect := fun s a rest hh =>
  ⟨({ s with host := rest } : State).recordRead a, s.regData a, step_readReg hh, rfl, regData_of_idle a,
    rfl⟩

/-- Settles O23: out of reset with a value offered, a take is its transfer or nothing. -/
theorem takeTransfersTheNextValue : Obligations.TakeTransfersTheNextValue := by
  intro s p o more rest hr ho hh
  rw [step_take hr ho hh, transfer_eq]

/-- Settles O24, by induction on the offered values (`run_takes`). -/
theorem drainingEndsTheCommand : Obligations.DrainingEndsTheCommand := fun s rest hr hh =>
  ⟨{ s.drained with host := rest }, run_takes s.offered rest s hr rfl hh, idle_of_offered_nil hr rfl,
    valid_of_offered_nil rfl, rfl⟩

end Sys2Proof.Machine
end

section
/-! The statements of spec/30_encoding.md: the decoder and the encoder (R66 to R69), the illegal words
(R70), the legality table (R71), and an illegal word on an idle block (R72). -/

namespace Sys2Proof

/-! ## The decoder and the encoder (R66 to R69) -/

/-- The word the opcode map gives a command decodes to that command. -/
theorem decode_encode (i : Instr) : decode (encode i) = .ok i := by
  cases i with
  | decBit v => cases v <;> rfl
  | _ => simp [decode, opcodeOf, argumentOf, decodeFormN, decodeFormB]

/-- A word that decodes to a command has the fields of that command's word, and so is that word. -/
theorem eq_encode_of_decode {w : CmdWord} {i : Instr} (h : decode w = .ok i) : w = encode i := by
  obtain ⟨hopc, harg⟩ := decode_fields h
  rw [word_eq_fields w, hopc, harg, encode]

/-! ## The illegal words (R70) -/

theorem decode_eq_error_iff (w : CmdWord) :
    (∃ r, decode w = .error r) ↔ (CmdFields.ofWord w).wellFormed = false := by
  rw [← decode_isOk_iff_wellFormed]
  cases decode w <;> simp [Except.isOk, Except.toBool]

theorem argOk_formN_iff (arg : Byte) : Form.argOk .N arg = true ↔ arg.toNat = 0 := by
  simp [Form.argOk, ← BitVec.toNat_inj]

theorem argOk_formV_iff (arg : Byte) : Form.argOk .V arg = true ↔ arg.toNat / 2 = 0 := by
  have hlt := arg.isLt
  simp only [Form.argOk, beq_iff_eq, ← BitVec.toNat_inj, BitVec.extractLsb'_toNat,
    Nat.shiftRight_eq_div_pow, BitVec.ofNat_eq_ofNat, BitVec.toNat_ofNat]
  omega

/-- Fields are ill formed by an OPC of no form, by an ARG in form N, or by ARG[7:1] in form V (R70). -/
theorem not_wellFormed_iff (f : CmdFields) :
    f.wellFormed = false ↔
      f.opc.toNat ∉ [0x00, 0x01, 0x10, 0x20, 0x30, 0x31, 0x40, 0x41, 0x50, 0x51] ∨
      (f.opc.toNat ∈ [0x00, 0x01, 0x20, 0x31, 0x41, 0x50] ∧ f.arg.toNat ≠ 0) ∨
      (f.opc.toNat = 0x40 ∧ f.arg.toNat / 2 ≠ 0) := by
  simp only [CmdFields.wellFormed, formOfOpc, List.mem_cons, List.not_mem_nil, or_false,
    ← BitVec.toNat_inj, BitVec.ofNat_eq_ofNat, BitVec.reduceToNat]
  split_ifs with hN hB hV
  · rw [← Bool.not_eq_true, argOk_formN_iff]
    omega
  · simp only [Form.argOk, Bool.true_eq_false, false_iff]
    omega
  · rw [← Bool.not_eq_true, argOk_formV_iff]
    omega
  · simp only [true_iff]
    omega

/-- How many values of ARG a form allows (R67). -/
def Form.argCount : Form → Nat
  | .N => 1
  | .B => 256
  | .V => 2

theorem length_filter_argOk (form : Form) :
    ((List.range 256).filter fun arg => form.argOk (BitVec.ofNat 8 arg)).length = form.argCount := by
  cases form <;> decide +kernel

/-- The decoder accepts two fields exactly when the form of OPC allows ARG (R69, R70). -/
theorem decode_append_isOk (opc arg : Byte) :
    (decode (opc ++ arg)).isOk = (formOfOpc opc).elim false fun form => form.argOk arg := by
  have hopc : (CmdFields.ofWord (opc ++ arg)).opc = opc := opcOf_append opc arg
  have harg : (CmdFields.ofWord (opc ++ arg)).arg = arg := argOf_append opc arg
  rw [decode_isOk_iff_wellFormed, CmdFields.wellFormed, hopc, harg]
  cases formOfOpc opc <;> rfl

/-- The legal words of one opcode are as many as the ARG values its form allows. -/
theorem length_filter_decode_isOk (opc : Byte) :
    ((List.range 256).filter fun arg => (decode (opc ++ BitVec.ofNat 8 arg)).isOk).length =
      (formOfOpc opc).elim 0 Form.argCount := by
  simp only [decode_append_isOk]
  cases formOfOpc opc with
  | none => exact congrArg List.length (List.filter_false _)
  | some form => exact length_filter_argOk form

/-- The ten opcodes have 6 words of form N, 3 times 256 of form B and 2 of form V. -/
theorem sum_argCount :
    ((List.range 256).map fun opc =>
      (formOfOpc (BitVec.ofNat 8 opc)).elim 0 Form.argCount).sum = 776 := by
  decide +kernel

end Sys2Proof

namespace Sys2Proof.Machine

/-- `Execute` of an illegal word, discard and error entry in one (R70, R119, R121). -/
theorem executeWord_of_illegal {w : CmdWord} {r : IllegalReason} (hd : decode w = .error r) (s : State) :
    executeWord w s = .next (if s.phase = .error then s else s.errorEntry .illegal w) := by
  rw [executeWord, hd]
  exact (apply_ite Host.Outcome.next _ _ _).symm

/-! ## The legality table (R71) -/

theorem legal_iff_runsIn {i : Instr} {b : Block} (hp : b.phase ≠ .error) :
    legal i b.phase b.src = true ↔ runsIn i b := by
  cases i <;> simp [legal, runsIn, hp]

/-! ## The statements -/

/-- Settles O2: a word with a command's fields is that command's word, and a command's word decodes to
it. -/
theorem decodeInvertsEncode : Obligations.DecodeInvertsEncode := fun _ i =>
  ⟨eq_encode_of_decode, fun h => h ▸ decode_encode i⟩

/-- Settles O3: the illegal words are those of ill-formed fields, counted opcode by opcode. -/
theorem illegalWordsAreExactlyThese : Obligations.IllegalWordsAreExactlyThese := by
  refine ⟨fun w => ?_, ?_, fun s w ⟨_, hd⟩ => executeWord_of_illegal hd s⟩
  · have hopc : (CmdFields.ofWord w).opc.toNat = w.toNat / 256 := opcOf_toNat w
    have harg : (CmdFields.ofWord w).arg.toNat = w.toNat % 256 := argOf_toNat w
    rw [decode_eq_error_iff, not_wellFormed_iff, hopc, harg]
  · simp only [length_filter_decode_isOk]
    exact sum_argCount

/-- Settles O7: `runsIn` is the table row by row; outside ERROR the frame of R72 raises E_SEQUENCE where
`legal` says no, and in ERROR it discards every command but CLEAR. -/
theorem outOfPhaseCommandRaisesSequence : Obligations.OutOfPhaseCommandRaisesSequence := by
  intro i s
  refine ⟨fun hp => ⟨by cases i <;> exact legal_iff_runsIn hp, fun hl => ?_⟩, fun hp hi => ?_⟩
  · have hi : i ≠ .clear := by rintro rfl; cases hl
    rw [exec_eq_commandRule i s hi]
    exact commandRule_illegal i s _ hp hl
  · rw [exec_eq_commandRule i s hi]
    exact commandRule_error i s _ hp

/-- Settles O1: each of the ten words is `encode` of its command. -/
theorem decodeReadsTheSpecsWords : Obligations.DecodeReadsTheSpecsWords :=
  ⟨decode_encode .nop, decode_encode .clear, decode_encode (.count 0x41), decode_encode .build,
    decode_encode (.encodeByte 0x43), decode_encode .encEnd, decode_encode (.decBit true),
    decode_encode .decEnd, decode_encode .serialize, decode_encode (.deserChar 0x3A)⟩

/-- Settles O5: an idle block has cmd_ready = 1, so the move is `Execute` of the illegal word. -/
theorem illegalWordRaisesIllegal : Obligations.IllegalWordRaisesIllegal := by
  intro s w rest r hidle hh hd
  have hready : s.cmdReady = true := hidle
  rw [step_of_host_cons hh, hostMove, if_pos hready]
  exact executeWord_of_illegal hd _

end Sys2Proof.Machine
end

section
/-! The statements of spec/40_frequency.md: COUNT (R76), and the table of a counted input (R75, R77). -/

namespace Sys2Proof.Machine

/-! ## The command word (R66, R68) -/

/-- The word of two fields is OPC in the upper byte plus ARG. -/
theorem append_eq_base_add (opc arg : Byte) :
    (opc ++ arg : CmdWord) = BitVec.ofNat 16 (256 * opc.toNat) + arg.setWidth 16 := by
  have hopc := opc.isLt
  apply BitVec.eq_of_toNat_eq
  rw [append_toNat, toNat_base_add arg (by omega)]

theorem encode_count (v : Byte) : encode (.count v) = 0x1000 + v.setWidth 16 :=
  append_eq_base_add 0x10 v

/-! ## A command that raises an error (R119) -/

theorem exec_sequence {i : Instr} {s : State} (hi : i ≠ .clear) (hp : s.phase ≠ .error)
    (hl : ¬ runsIn i s.toBlock) : exec i s = .next (s.errorEntry .sequence (encode i)) := by
  rw [← legal_iff_runsIn hp, Bool.not_eq_true] at hl
  rw [exec_eq_commandRule i s hi, commandRule_illegal i s _ hp hl]

theorem exec_raise {i : Instr} {s : State} {code : ErrCode} (hi : i ≠ .clear) (hp : s.phase ≠ .error)
    (hl : runsIn i s.toBlock) (hr : ruleOf i s.toBlock = .error code) :
    exec i s = .next (s.errorEntry code (encode i)) := by
  rw [exec_eq_commandRule i s hi,
    commandRule_raise i s _ code hp ((legal_iff_runsIn hp).mpr hl) hr]

/-! ## COUNT's writes and checks (R76) -/

section
variable (b : Block) (v : Byte)

@[simp] theorem cnt_countOne : (b.countOne v).cnt = b.cnt.write v (b.cnt.read v + 1) := rfl
@[simp] theorem total_countOne : (b.countOne v).total = b.total + 1 := rfl
@[simp] theorem src_countOne : (b.countOne v).src = .scan := rfl

theorem nsym_countOne :
    (b.countOne v).nsym = if b.cnt.read v = 0 then b.nsym + 1 else b.nsym := by
  simp only [Block.countOne]
  split <;> rfl

/-- A new symbol goes to ORDER[NSYM], a symbol of the table leaves ORDER as it is. -/
theorem orderAt_countOne {i : Nat} (hi : i < 256) :
    (b.countOne v).orderAt i =
      if b.cnt.read v = 0 ∧ i = b.nsym.toNat then v else b.orderAt i := by
  by_cases hv : b.cnt.read v = 0
  · have hnew : (b.countOne v).orderAt i = (b.appendOrder v).orderAt i := by
      simp only [Block.countOne, if_pos hv, Block.orderAt]
    rw [hnew, orderAt_appendOrder]
    simp only [hv, hi, and_true, true_and]
  · have hold : (b.countOne v).orderAt i = b.orderAt i := by
      simp only [Block.countOne, if_neg hv, Block.orderAt]
    rw [hold, if_neg fun h => hv h.1]

/-- COUNT writes CNT, TOTAL, SRC, NSYM and ORDER only. -/
theorem countOne_frame :
    b.countOne v = { b with cnt := (b.countOne v).cnt, total := (b.countOne v).total
                            src := (b.countOne v).src, nsym := (b.countOne v).nsym
                            order := (b.countOne v).order } := by
  simp only [Block.countOne]
  split <;> rfl

end

/-- A COUNT that its rule accepts. -/
theorem exec_count {s : State} (v : Byte) (hp : s.phase ≠ .error) (hl : runsIn (.count v) s.toBlock)
    (hfit : s.total.toNat < Config.cntMax) :
    exec (.count v) s = .next (s.withBlock (s.toBlock.countOne v)) :=
  exec_silent (by simp) hp ((legal_iff_runsIn hp).mpr hl) (if_pos hfit)

theorem exec_count_overflow {s : State} (v : Byte) (hp : s.phase ≠ .error)
    (hl : runsIn (.count v) s.toBlock) (hfull : s.total.toNat = Config.cntMax) :
    exec (.count v) s = .next (s.errorEntry .countOverflow (encode (.count v))) :=
  exec_raise (by simp) hp hl (if_neg (hfull ▸ Nat.lt_irrefl _))

/-! ## The statements -/

/-- Settles O30: `run_counts`, the induction over the input whose invariant is that the table of the
bytes counted so far is sound, is their `tableOf`, and is all that has been written. -/
theorem countingGivesTheInputsTable : Obligations.CountingGivesTheInputsTable := by
  intro s input hreset hlen
  obtain ⟨b, hrun, -, hentries, htotal, hcnt, hframe, -⟩ := run_counts s hreset input hlen
  have hphase : b.phase = .collect := by rw [hframe]; rfl
  exact ⟨s.withBlock b, hrun, hentries, htotal, hcnt, hphase, rfl⟩

/-- Settles O29: the frame of R72 around COUNT's rule, which completes with `Block.countOne` while TOTAL
has room and raises E_COUNT_OVERFLOW at CNT_MAX. -/
theorem countAddsOneOccurrence : Obligations.CountAddsOneOccurrence := by
  intro s v hp
  rw [← encode_count v]
  refine ⟨fun hl hfit => ?_, fun hl hfull => exec_count_overflow v hp hl hfull,
    fun hl => exec_sequence (by simp) hp hl⟩
  refine ⟨s.withBlock (s.toBlock.countOne v), exec_count v hp hl hfit, fun u => ?_, ?_,
    src_countOne _ v, nsym_countOne _ v, fun i hi => orderAt_countOne _ v hi, ?_⟩
  · rw [withBlock_toBlock, cnt_countOne, read_write]
  · rw [withBlock_toBlock, total_countOne, toNat_add_one (by omega)]
  · exact congrArg s.withBlock (countOne_frame s.toBlock v)

end Sys2Proof.Machine
end

section
/-! The statements of spec/41_tree_builder.md: ExtractMin (R84), what BUILD does in the phase it runs in
(R81, R82), the arena (R27, R83 to R88), the codes (R29, R89 to R91), and that they are optimal (R80,
R92). -/

namespace Sys2Proof.Machine

/-! ## What BUILD answers (R81) -/

/-- A BUILD that its rule accepts. -/
theorem exec_build {s : State} (hp : s.phase = .collect) (hpos : s.pstate = .symDigit 0) :
    exec .build s = .next (s.withBlock s.toBlock.withTree) :=
  have hne : s.phase ≠ .error := by simp [hp]
  exec_silent (by simp) hne ((legal_iff_runsIn hne).mpr hp) (if_pos hpos)

/-- BUILD leaves the table sound. -/
theorem tableInv_withTree {b : Block} (h : b.TableInv) : b.withTree.TableInv := h.congr rfl rfl rfl rfl

section
variable (b : Block)

@[simp] theorem entries_withTree : b.withTree.entries = b.entries := rfl
@[simp] theorem len_withTree :
    b.withTree.len = writeLens (deriveCodes b.entries.length (buildNodes b.entries)) b.len := rfl
@[simp] theorem code_withTree :
    b.withTree.code = writeCodes (deriveCodes b.entries.length (buildNodes b.entries)) b.code := rfl
@[simp] theorem node_withTree : b.withTree.node = overlay b.node (buildNodes b.entries) := rfl
@[simp] theorem nnodes_withTree :
    b.withTree.nnodes = BitVec.ofNat 9 (buildNodes b.entries).length := rfl
@[simp] theorem root_withTree : b.withTree.root = BitVec.ofNat 9 (rootOf (buildNodes b.entries)) := rfl

/-- A node BUILD creates replaces what the arena held, every other node stays. -/
theorem nodeAt_withTree {i : Nat} (hi : i < 511) :
    b.withTree.nodeAt i = (buildNodes b.entries)[i]?.getD (b.nodeAt i) := by
  simp only [Block.nodeAt, node_withTree, overlay_getElem?, if_pos hi]

end

/-! ## The tables of no and of one symbol (R87, R90, R91) -/

theorem overlay_nil {α : Type} {n : Nat} (t : Vector α n) : overlay t [] = t := by
  ext i hi
  simp [overlay]

theorem entries_of_nsym_zero {b : Block} (h : b.nsym = 0) : b.entries = [] := by
  simp [Block.entries, h]

theorem entries_of_nsym_one {b : Block} (h : b.nsym = 1) :
    b.entries = [(b.orderAt 0, b.cnt.read (b.orderAt 0))] := by
  simp [Block.entries, h]

/-- One entry is a leaf, and nothing is left to merge. -/
theorem buildNodes_singleton (e : Byte × Count) : buildNodes [e] = [Node.ofEntry e] := rfl

theorem deriveCodes_one (e : Byte × Count) : deriveCodes 1 [Node.ofEntry e] = [(e.1, [false])] := rfl

/-! ## BUILD is a function of the entries (R79, R92 (e)) -/

theorem entries_congr {b c : Block} (hn : b.nsym = c.nsym)
    (h : ∀ i, i < b.nsym.toNat → b.orderAt i = c.orderAt i ∧
      b.cnt.read (b.orderAt i) = c.cnt.read (c.orderAt i)) : b.entries = c.entries := by
  unfold Block.entries
  rw [← hn]
  refine List.map_congr_left fun i hi => ?_
  obtain ⟨horder, hcnt⟩ := h i (List.mem_range.mp hi)
  exact Prod.ext horder hcnt

/-! ## The root (R86, R88) -/

theorem root_toNat_eq_rootOf {b : Block} (h : b.TableInv) (ht : b.HasTree) :
    b.root.toNat = rootOf (buildNodes b.entries) := by
  have hlen := buildNodes_length_le h
  rw [ht.root, BitVec.toNat_ofNat, Nat.mod_eq_of_lt]
  unfold rootOf
  split <;> omega

/-- A tree over the entries of a sound table weighs TOTAL. -/
theorem weight_eq_total {b : Block} (h : b.TableInv) {T : CodeTree} (hp : T.leaves.Perm b.entries) :
    T.weight = b.total.toNat :=
  calc T.weight = (b.entries.map fun e => e.2.toNat).sum := (hp.map _).sum_eq
    _ = b.total.toNat := entries_sum h

/-- The root's FREQ is TOTAL (R88). -/
theorem freq_root {b : Block} (h : b.TableInv) (ht : b.HasTree) (h1 : 1 ≤ b.nsym.toNat) :
    (b.nodeAt b.root.toNat).freq = b.total := by
  obtain ⟨T, hT, hp, -⟩ := deriveCodes_spec h h1
  apply BitVec.eq_of_toNat_eq
  rw [root_toNat_eq_rootOf h ht, ← freqAt_buildNodes h ht, hT.freq, weight_eq_total h hp]

/-! ## The walk of a code (R89, R92 (b)) -/

/-- In a tree of two or more leaves a symbol's code leads from the root to the symbol's leaf. -/
theorem descend_codeOf {b : Block} (h : b.TableInv) (ht : b.HasTree) (hc : b.HasCodes)
    (h2 : 2 ≤ b.nsym.toNat) {v : Byte} (hv : 1 ≤ (b.cnt.read v).toNat) :
    (b.nodeAt (b.descend b.root (b.codeOf v)).toNat).leaf = true ∧
      (b.nodeAt (b.descend b.root (b.codeOf v)).toNat).sym = v := by
  obtain ⟨T, hT, -, hcodes⟩ := deriveCodes_spec h (by omega)
  rw [if_neg (by omega)] at hcodes
  rw [ht.root]
  exact descend_code h ht hT (hcodes ▸ codeOf_derived h hc hv)

/-! ## The weighted path length (R80, R92 (c)) -/

/-- The weighted path length as a sum over the insertion order. -/
theorem weightedLength_entries (b : Block) (length : Byte × Count → Nat) :
    weightedLength b.entries length =
      ∑ i ∈ Finset.range b.nsym.toNat,
        (freqAt (b.entries.map Node.ofEntry) i).toNat *
          length (b.orderAt i, b.cnt.read (b.orderAt i)) := by
  have hfreq : ∀ i, i < b.nsym.toNat →
      freqAt (b.entries.map Node.ofEntry) i = b.cnt.read (b.orderAt i) := fun i hi => by
    simp [freqAt, entries_getElem?, hi, Node.ofEntry]
  rw [← List.toFinset_range, List.sum_toFinset _ List.nodup_range, weightedLength, Block.entries,
    List.map_map]
  refine congrArg List.sum (List.map_congr_left fun i hi => ?_)
  rw [← Block.entries, hfreq i (List.mem_range.mp hi)]
  rfl

/-- BUILD's weighted path length is its tree's cost. -/
theorem weightedLength_of_hasCodes {b : Block} (h : b.TableInv) (hc : b.HasCodes)
    (h2 : 2 ≤ b.nsym.toNat) :
    ∃ T, Represents (buildNodes b.entries) (rootOf (buildNodes b.entries)) T ∧
      weightedLength b.entries (fun e => (b.len.read e.1).toNat) = T.cost := by
  obtain ⟨T, hT, hp, hcodes⟩ := deriveCodes_spec h (by omega)
  rw [if_neg (by omega)] at hcodes
  refine ⟨T, hT, ?_⟩
  have hlen : ∀ c ∈ T.codes [], (b.len.read c.1).toNat = c.2.length := fun c hm =>
    (code_of_mem h hc (q := c.2) (hcodes ▸ hm)).1
  calc weightedLength b.entries (fun e => (b.len.read e.1).toNat)
      = (T.leaves.map fun e => e.2.toNat * (b.len.read e.1).toNat).sum := ((hp.map _).sum_eq).symm
    _ = T.cost := T.cost_eq [] (fun v => (b.len.read v).toNat) hlen

/-- Where no symbol's code begins another's, the lengths satisfy Kraft's inequality (R80). -/
theorem allowed_of_prefix_free {b : Block} (h : b.TableInv) {other : Byte → BitString}
    (hother : ∀ u v, 1 ≤ (b.cnt.read u).toNat → 1 ≤ (b.cnt.read v).toNat →
      other u <+: other v → u = v) :
    ∃ L, Allowed (Finset.range b.nsym.toNat) (fun i => (other (b.orderAt i)).length) L := by
  have hpresent : ∀ i, i < b.nsym.toNat → 1 ≤ (b.cnt.read (b.orderAt i)).toNat := fun i hi =>
    (h.present _).mpr ⟨i, hi, rfl⟩
  have hinj : ∀ i j, i < b.nsym.toNat → j < b.nsym.toNat →
      other (b.orderAt i) <+: other (b.orderAt j) → i = j := fun i j hi hj hpre =>
    h.distinct i j hi hj (hother _ _ (hpresent i hi) (hpresent j hj) hpre)
  obtain ⟨L, hL⟩ : ∃ L, ∀ i ∈ Finset.range b.nsym.toNat, (other (b.orderAt i)).length ≤ L :=
    ⟨_, fun _ hi => Finset.le_sup (f := fun i => (other (b.orderAt i)).length) hi⟩
  refine ⟨L, hL, ?_⟩
  have hapart : ((List.range b.nsym.toNat).map fun i => other (b.orderAt i)).Pairwise Apart := by
    refine List.pairwise_map.mpr (List.nodup_range.imp_of_mem fun {i j} hi hj hne => ?_)
    rw [List.mem_range] at hi hj
    exact ⟨fun hpre => hne (hinj i j hi hj hpre), fun hpre => hne (hinj j i hj hi hpre).symm⟩
  have hsum := kraft L _ hapart (by simpa using hL)
  rwa [List.map_map, ← List.sum_toFinset _ List.nodup_range, List.toFinset_range] at hsum

/-- Codes none of which begins another are together no shorter than BUILD's (R80, R92 (c)). -/
theorem weightedLength_le_of_prefix_free {b : Block} (h : b.TableInv) (hc : b.HasCodes)
    (h2 : 2 ≤ b.nsym.toNat) {other : Byte → BitString}
    (hother : ∀ u v, 1 ≤ (b.cnt.read u).toNat → 1 ≤ (b.cnt.read v).toNat →
      other u <+: other v → u = v) :
    weightedLength b.entries (fun e => (b.len.read e.1).toNat) ≤
      weightedLength b.entries (fun e => (other e.1).length) := by
  obtain ⟨T, hT, hcost⟩ := weightedLength_of_hasCodes h hc h2
  obtain ⟨L, hallowed⟩ := allowed_of_prefix_free h hother
  have hk := entries_length b
  have hroot : rootOf (buildNodes b.entries) = (buildNodes b.entries).length - 1 :=
    if_neg (Nat.ne_zero_of_lt hT.lt)
  have hsum : (b.entries.map fun e => e.2.toNat).sum < 2 ^ 32 := by
    rw [entries_sum h]; exact b.total.isLt
  have hbound := buildNodes_optimal (by omega) (entries_length_le h) hsum (hroot ▸ hT)
  rw [hk] at hbound
  rw [hcost, weightedLength_entries]
  exact hbound _ L hallowed

/-! ## The statements -/

/-- Settles O33: BUILD's arena is the one its own table's nodes make (`withTree_hasTree`), and that one
has R27's shape and R84's order (`arenaInv_of_hasTree`, by induction over the merges). -/
theorem buildMakesTheArena : Obligations.BuildMakesTheArena := fun _ hp hpos htab hnode =>
  ⟨_, exec_build hp hpos, arenaInv_of_hasTree (tableInv_withTree htab) (withTree_hasTree hnode)⟩

/-- Settles O34: each node represents a code tree whose weight is its FREQ, the root's a tree over all
the entries and every other node's a part of it. -/
theorem buildFrequenciesAreBoundedByTotal : Obligations.BuildFrequenciesAreBoundedByTotal :=
  fun _ hp hpos htab hnode h1 =>
    have htab' := tableInv_withTree htab
    have htree := withTree_hasTree hnode
    ⟨_, exec_build hp hpos, freq_root htab' htree h1, freq_le_total htab' htree⟩

/-- Settles O35: the codes are the root-to-leaf paths of the tree the arena represents. -/
theorem buildMakesAPrefixFreeCode : Obligations.BuildMakesAPrefixFreeCode :=
  fun _ hp hpos htab hnode hlen hcode =>
    have htab' := tableInv_withTree htab
    have htree := withTree_hasTree hnode
    have hcodes := withTree_hasCodes hlen hcode
    ⟨_, exec_build hp hpos, codeInv_of_hasCodes htab' hcodes,
      fun h2 _ hv => descend_codeOf htab' htree hcodes h2 hv⟩

/-- Settles O36: where no code begins another the lengths obey Kraft's inequality, and no lengths that
do cost less than the tree of the greedy merges (`buildNodes_optimal`). -/
theorem buildIsOptimal : Obligations.BuildIsOptimal := fun _ hp hpos htab h2 _ hlen hcode =>
  ⟨_, exec_build hp hpos, fun _ hother =>
    weightedLength_le_of_prefix_free (tableInv_withTree htab) (withTree_hasCodes hlen hcode) h2 hother⟩

/-- Settles O32: `extractMin` answers on a nonempty list, with its first index under `precedes`. -/
theorem extractMinTakesTheLeast : Obligations.ExtractMinTakesTheLeast := by
  intro nodes live hne
  obtain ⟨⟨m, rest⟩, hext⟩ := Option.ne_none_iff_exists'.mp (mt extractMin_eq_none.mp hne)
  obtain ⟨hmem, hrest⟩ := extractMin_mem hext
  exact ⟨m, rest, hext, hmem, hrest, fun i hi him =>
    (precedes_iff nodes m i).mp (extractMin_least hext hi him)⟩

/-- Settles O37: two blocks that agree on NSYM, ORDER and the counts have the same `entries`, which are
all that BUILD reads of the table. -/
theorem buildDependsOnTheEntriesAlone : Obligations.BuildDependsOnTheEntriesAlone := by
  intro s u hps hpu hposs hposu hnsym htable hnode hlen hcode
  have he : s.entries = u.entries := entries_congr hnsym htable
  refine ⟨_, _, exec_build hps hposs, exec_build hpu hposu, ?_, ?_, ?_, ?_, ?_⟩ <;>
    simp only [withBlock_toBlock, node_withTree, nnodes_withTree, root_withTree, len_withTree,
      code_withTree, he, hnode, hlen, hcode]

/-- Settles O39: one entry gives one leaf, and its symbol the code "0". -/
theorem buildOfOneSymbol : Obligations.BuildOfOneSymbol := by
  intro s hp hpos hnsym
  have he := entries_of_nsym_one hnsym
  have hnodes : buildNodes s.entries = [Node.ofEntry (s.orderAt 0, s.cnt.read (s.orderAt 0))] := by
    rw [he, buildNodes_singleton]
  have hcodes : deriveCodes s.entries.length (buildNodes s.entries) = [(s.orderAt 0, [false])] := by
    rw [hnodes, he]
    exact deriveCodes_one _
  refine ⟨_, exec_build hp hpos, ?_, ?_, ?_, fun i hi => ?_, ?_, fun v hv => ⟨?_, ?_⟩, rfl⟩ <;>
    rw [withBlock_toBlock]
  · rw [nnodes_withTree, hnodes]; rfl
  · rw [root_withTree, hnodes]; rfl
  · rw [nodeAt_withTree _ (by omega), hnodes]; rfl
  · by_cases h511 : i < 511
    · rw [nodeAt_withTree _ h511, hnodes, List.getElem?_eq_none (by simpa using hi), Option.getD_none]
    · rw [nodeAt_of_le _ (by omega), nodeAt_of_le _ (by omega)]
  · have hnodup : ([(s.orderAt 0, [false])].map Prod.fst).Nodup := List.nodup_singleton _
    have hmem := List.mem_singleton_self (s.orderAt 0, [false])
    rw [Block.codeOf, len_withTree, code_withTree, hcodes, writeLens_read hnodup hmem,
      writeCodes_read hnodup hmem]
    exact codeString_codeBits [false] (by decide)
  · rw [len_withTree, hcodes, writeLens_read_other (by simpa using hv.symm)]
  · rw [code_withTree, hcodes, writeCodes_read_other (by simpa using hv.symm)]

/-- Settles O31: BUILD's rule completes with `Block.withTree` between records and raises E_MALFORMED
inside one. -/
theorem buildCompletesOrIsMalformed : Obligations.BuildCompletesOrIsMalformed := by
  intro s hp
  refine ⟨fun hpos => ⟨_, exec_build hp hpos, rfl⟩, fun hpos => ?_⟩
  have hne : s.phase ≠ .error := by simp [hp]
  have hruns : runsIn .build s.toBlock := hp
  rw [exec_raise (by simp) hne hruns (if_neg hpos), State.errorEntry, hp]
  rfl

/-- Settles O38: with no entry BUILD creates no node and derives no code. -/
theorem buildOfTheEmptyTable : Obligations.BuildOfTheEmptyTable := by
  intro s hp hpos hnsym
  have he := entries_of_nsym_zero hnsym
  refine ⟨_, exec_build hp hpos, ?_, ?_, ?_, ?_, ?_, rfl, rfl⟩ <;> rw [withBlock_toBlock]
  · rw [nnodes_withTree, he]; rfl
  · rw [root_withTree, he]; rfl
  · rw [node_withTree, he, buildNodes_nil, overlay_nil]
  · rw [len_withTree, he]; rfl
  · rw [code_withTree, he]; rfl

end Sys2Proof.Machine
end

section
/-! The statements of spec/42_encoder.md: ENCODE (R95, R96), ENC_END (R97), and the jobs over the empty
table (R99, R106). -/

namespace Sys2Proof.Machine

/-! ## ENCODE's word and its bits (R66, R68, R95) -/

theorem encode_encodeByte (v : Byte) : encode (.encodeByte v) = 0x3000 + v.setWidth 16 :=
  append_eq_base_add 0x30 v

/-- Bit `j` of a symbol's code is bit `j` of its CODE (R28). -/
theorem codeOf_getElem? {b : Block} {v : Byte} {j : Nat} (hj : j < (b.codeOf v).length) :
    (b.codeOf v)[j]? = some ((b.code.read v).getLsbD j) := by
  rw [Block.codeOf, codeString_length] at hj
  rw [Block.codeOf, codeString, List.getElem?_map, List.getElem?_range hj, Option.map_some]

/-! ## The end of a job (R97, R105) -/

/-- An ENC_END that its rule accepts. -/
theorem exec_encEnd {s : State} (hp : s.phase ≠ .error) (hl : runsIn .encEnd s.toBlock)
    (hall : s.encCnt = s.total) : exec .encEnd s = .next { s with phase := .done } :=
  exec_silent (by simp) hp ((legal_iff_runsIn hp).mpr hl) (if_pos hall)

/-- A DEC_END that its rule accepts. -/
theorem exec_decEnd {s : State} (hp : s.phase ≠ .error) (hl : runsIn .decEnd s.toBlock)
    (hall : s.decCnt = s.total) : exec .decEnd s = .next { s with phase := .done } :=
  exec_silent (by simp) hp ((legal_iff_runsIn hp).mpr hl) (if_pos hall)

/-- A DEC_BIT after the last symbol, while the pad has room (R104). -/
theorem exec_decBit_trailing {s : State} (v : Bool) (hp : s.phase ≠ .error)
    (hl : runsIn (.decBit v) s.toBlock) (hall : s.decCnt = s.total)
    (hpad : s.padCnt.toNat < Config.padMax) :
    exec (.decBit v) s = .next { s with padCnt := s.padCnt + 1, phase := .decoding } :=
  have hrule : decBitRule v s.toBlock =
      .ok ({ s.toBlock with padCnt := s.padCnt + 1, phase := .decoding }, []) := by
    rw [decBitRule, if_pos hall, trailingBitRule, if_pos hpad]
  exec_silent (by simp) hp ((legal_iff_runsIn hp).mpr hl) hrule

/-! ## The empty table (R91, R99, R106) -/

/-- A SERIALIZE of the empty table emits nothing and changes nothing (R110). -/
theorem exec_serialize_empty {s : State} (hp : s.phase ≠ .error) (he : s.entries = []) :
    exec .serialize s = .next s :=
  have hrule : serializeRule s.toBlock = .ok (s.toBlock, []) := by rw [serializeRule, he]; rfl
  exec_silent (by simp) hp ((legal_iff_runsIn hp).mpr trivial) hrule

/-- The machine after CLEAR and BUILD: the empty table is built, and a new job begins. -/
def State.emptyBuilt (s : State) : State := s.clear.withBlock Block.reset.withTree

section
variable (s : State)

@[simp] theorem phase_emptyBuilt : s.emptyBuilt.phase = .ready := rfl
theorem encCnt_emptyBuilt : s.emptyBuilt.encCnt = s.emptyBuilt.total := rfl
theorem decCnt_emptyBuilt : s.emptyBuilt.decCnt = s.emptyBuilt.total := rfl
theorem padCnt_emptyBuilt : s.emptyBuilt.padCnt = 0 := rfl
theorem entries_emptyBuilt : s.emptyBuilt.entries = [] := entries_of_nsym_zero rfl

theorem phase_emptyBuilt_ne_error : s.emptyBuilt.phase ≠ .error := by simp

theorem exec_build_clear : exec .build s.clear = .next s.emptyBuilt := exec_build rfl rfl

/-- What follows CLEAR and BUILD starts with the empty table built. -/
theorem execAll_clear_build (is : List Instr) :
    execAll (.clear :: .build :: is) s = execAll is s.emptyBuilt := by
  rw [execAll_cons (exec_clear s), execAll_cons (exec_build_clear s)]

end

/-! ## The statements -/

/-- Settles O40: the frame of R72 around ENCODE's rule, which completes with `State.byteDone`, and the
bits it offers are those of `codeOf`. -/
theorem encodeEmitsTheCode : Obligations.EncodeEmitsTheCode := by
  intro s b hp
  rw [← encode_encodeByte b]
  refine ⟨fun hl hlen hfit => ?_, fun hl hlen => ?_, fun hl hlen hfull => ?_,
    fun hl => exec_sequence (by simp) hp hl⟩
  · exact ⟨s.codeOf b, codeString_length _ _, fun j hj => codeOf_getElem? hj,
      exec_encode hl hlen hfit⟩
  · exact exec_raise (by simp) hp hl (if_pos hlen)
  · have hrule : encodeRule b s.toBlock = .error .encOverrun := by
      rw [encodeRule, if_neg hlen, if_neg (by omega)]
    exact exec_raise (by simp) hp hl hrule

/-- Settles O41: the frame of R72 around ENC_END's one check. -/
theorem encEndNeedsEveryByte : Obligations.EncEndNeedsEveryByte := fun _ hp =>
  ⟨fun hl hall => exec_encEnd hp hl hall,
    fun hl hleft => exec_raise (by simp) hp hl (if_neg hleft),
    fun hl => exec_sequence (by simp) hp hl⟩

/-- Settles O53: after CLEAR and BUILD the table is empty and TOTAL is 0, so all bytes count as encoded
and as decoded. -/
theorem emptyJobsSucceed : Obligations.EmptyJobsSucceed := by
  intro s
  have hp := phase_emptyBuilt_ne_error s
  have hready : s.emptyBuilt.phase = .ready := phase_emptyBuilt s
  refine ⟨⟨{ s.emptyBuilt with phase := .done }, ?_, rfl, rfl, rfl⟩,
    ⟨{ s.emptyBuilt with phase := .done }, ?_, rfl, rfl⟩,
    fun v => ⟨s.emptyBuilt, _, execAll_clear_build s [], ?_, rfl⟩⟩
  · rw [execAll_clear_build, execAll_cons (exec_serialize_empty hp (entries_emptyBuilt s)),
      execAll_cons (exec_encEnd hp (.inl hready) (encCnt_emptyBuilt s)), execAll_nil]
  · rw [execAll_clear_build, execAll_cons (exec_decEnd hp (.inl hready) (decCnt_emptyBuilt s)),
      execAll_nil]
  · have hpad : s.emptyBuilt.padCnt.toNat < Config.padMax := by rw [padCnt_emptyBuilt]; decide
    exact exec_decBit_trailing v hp (.inl hready) (decCnt_emptyBuilt s) hpad

end Sys2Proof.Machine
end

section
/-! The statements of spec/43_decoder.md: DEC_BIT (R101 to R104), DEC_END (R105), and that a decode job
gives back what an encode job took (R107). -/

namespace Sys2Proof.Machine

/-! ## DEC_BIT's cases (R101) -/

section
variable {s : State} {v : Bool}

theorem ne_error_of_ready_or_decoding (h : s.phase = .ready ∨ s.phase = .decoding) :
    s.phase ≠ .error := by
  rcases h with h | h <;> simp [h]

/-- A DEC_BIT that its rule accepts. -/
theorem exec_decBit {b : Block} {out : List Output} (hp : s.phase = .ready ∨ s.phase = .decoding)
    (hr : decBitRule v s.toBlock = .ok (b, out)) :
    exec (.decBit v) s = .next { s with toBlock := b, offered := s.offered ++ out } :=
  have hne := ne_error_of_ready_or_decoding hp
  exec_emits (by simp) hne ((legal_iff_runsIn hne).mpr hp) hr

theorem exec_decBit_raise {code : ErrCode} (hp : s.phase = .ready ∨ s.phase = .decoding)
    (hr : decBitRule v s.toBlock = .error code) :
    exec (.decBit v) s = .next (s.errorEntry code (encode (.decBit v))) :=
  exec_raise (by simp) (ne_error_of_ready_or_decoding hp) hp hr

end

section
variable {b : Block} (v : Bool)

theorem decBitRule_of_complete (hd : b.decCnt = b.total) : decBitRule v b = trailingBitRule b :=
  if_pos hd

theorem decBitRule_of_single (hd : b.decCnt ≠ b.total) (hn : b.nnodes = 1) :
    decBitRule v b = oneSymbolBitRule v b := by
  rw [decBitRule, if_neg hd, if_pos hn]

theorem decBitRule_of_tree (hd : b.decCnt ≠ b.total) (hn : b.nnodes ≠ 1) :
    decBitRule v b = walkBitRule v b := by
  rw [decBitRule, if_neg hd, if_neg hn]

/-- The eighth bit after the last symbol (R104). -/
theorem trailingBitRule_of_full (hfull : 7 ≤ b.padCnt.toNat) :
    trailingBitRule b = .error .trailing :=
  if_neg (Nat.not_lt.mpr hfull)

/-- A 0 is the code of the one symbol (R90, R103). -/
theorem oneSymbolBitRule_false (b : Block) :
    oneSymbolBitRule false b =
      .ok ({ b with decCnt := b.decCnt + 1, phase := .decoding }, [.sym (b.nodeAt 0).sym]) := rfl

/-- A 1 begins no code (R103). -/
theorem oneSymbolBitRule_true (b : Block) : oneSymbolBitRule true b = .error .badCode := rfl

/-- The walk reaches a leaf (R102). -/
theorem walkBitRule_of_leaf (hl : (b.nodeAt (b.childOf v).toNat).leaf = true) :
    walkBitRule v b =
      .ok ({ b with decCnt := b.decCnt + 1, cur := b.root, depth := 0, phase := .decoding },
        [.sym (b.nodeAt (b.childOf v).toNat).sym]) :=
  if_pos hl

/-- The walk goes on from an internal node (R102). -/
theorem walkBitRule_of_internal (hl : (b.nodeAt (b.childOf v).toNat).leaf = false) :
    walkBitRule v b =
      .ok ({ b with cur := b.childOf v, depth := b.depth + 1, phase := .decoding }, []) :=
  if_neg (by simp [hl])

end

/-! ## A whole table read from the reset fields (R77, R115) -/

/-- The block holds the table of an input and is otherwise as reset left it: what COUNT of every byte
leaves (R77), and what DESER_CHAR of the table's side file leaves (R115). -/
structure Block.HoldsTableOf (b : Block) (input : List Byte) : Prop where
  table : b.TableInv
  entries : b.entries = tableOf input
  total : b.total.toNat = input.length
  frame : b = { Block.reset with cnt := b.cnt, order := b.order, nsym := b.nsym, total := b.total
                                 src := b.src }

/-- Counting an input from CLEAR on (R75 to R77). -/
theorem run_counts_clear (s : State) (input : List Byte) (hlen : input.length ≤ Config.cntMax) :
    ∃ b : Block, execAll (countsOf input) s.clear = .next (s.clear.withBlock b) ∧
      b.HoldsTableOf input := by
  obtain ⟨b, hrun, htable, hentries, htotal, -, hframe, -⟩ := run_counts s.clear rfl input hlen
  exact ⟨b, hrun, htable, hentries, htotal, hframe⟩

/-- The side file of a sound table, read from CLEAR on, gives its table back (R115). -/
theorem run_sideFile_clear (s : State) {b : Block} (hb : b.TableInv) :
    ∃ c, execAll (deserOf (sideFile b.entries)) s.clear = .next (s.clear.withBlock c) ∧
      c.TableInv ∧ c.entries = b.entries ∧ c.total = b.total ∧
      c = { Block.reset with cnt := c.cnt, order := c.order, nsym := c.nsym, total := c.total
                             src := c.src } := by
  have hnone : s.clear.entries = [] := entries_of_nsym_zero rfl
  have hpos : ∀ e ∈ b.entries, e.2 ≠ 0 := by
    intro e he h0
    have hcnt := (mem_entries_iff hb e.1).mp (List.mem_map_of_mem he)
    rw [← entry_count he, h0] at hcnt
    exact absurd hcnt (by decide)
  have hsum : s.clear.total.toNat + (b.entries.map fun e => e.2.toNat).sum ≤ Config.cntMax := by
    have hzero : s.clear.total.toNat = 0 := rfl
    rw [hzero, Nat.zero_add, entries_sum hb, hb.total_sum.1]
    exact hb.total_sum.2
  obtain ⟨c, hrun, htable, hentries, -, -, -, -, hframe⟩ :=
    run_sideFile b.entries s.clear tableInv_reset rfl (by simp [Block.reset]) rfl rfl rfl
      (by rw [hnone]; exact entries_nodup hb) hpos hsum
  rw [hnone, List.nil_append] at hentries
  obtain ⟨-, -, -, htotal⟩ := table_ext hb htable hentries
  exact ⟨c, hrun, htable, hentries, htotal, hframe⟩

/-! ## The tree and the codes of such a table (R79, R92 (e)) -/

/-- The codes of a built table are a function of its entries (R92 (e)). -/
theorem codeOf_eq_of_entries {b c : Block} (hb : b.HasCodes) (hc : c.HasCodes)
    (he : c.entries = b.entries) (v : Byte) : c.codeOf v = b.codeOf v := by
  rw [Block.codeOf, Block.codeOf, hb.len, hb.code, hc.len, hc.code, he]

section
variable {b : Block} {input : List Byte} (h : b.HoldsTableOf input)
include h

theorem Block.HoldsTableOf.phase : b.phase = .collect := congrArg Block.phase h.frame

theorem Block.HoldsTableOf.pstate : b.pstate = .symDigit 0 := congrArg Block.pstate h.frame

theorem Block.HoldsTableOf.hasTree : b.withTree.HasTree :=
  withTree_hasTree (by rw [h.frame])

theorem Block.HoldsTableOf.hasCodes : b.withTree.HasCodes :=
  withTree_hasCodes (by rw [h.frame]) (by rw [h.frame])

/-- The bytes of the input are counted (R77). -/
theorem Block.HoldsTableOf.counted {v : Byte} (hv : v ∈ input) : 1 ≤ (b.cnt.read v).toNat := by
  rw [← mem_entries_iff h.table, h.entries]
  simpa [tableOf] using hv

end

/-! ## The machine after BUILD and after SERIALIZE (R81, R110) -/

@[simp] theorem phase_withTree (b : Block) : b.withTree.phase = .ready := rfl

@[simp] theorem symsOf_syms (l : List Byte) : symsOf (l.map Output.sym) = l := by
  simp [symsOf, List.filterMap_map]

theorem exec_serialize {s : State} (hp : s.phase ≠ .error) :
    exec .serialize s = .next (s.complete s.toBlock ((sideFile s.entries).map .txt)) :=
  commandRule_complete .serialize s serializeRule _ _ hp ((legal_iff_runsIn hp).mpr trivial) rfl

/-- The machine after CLEAR, a table that fills the block as `b`, and BUILD. -/
def State.tableBuilt (s : State) (b : Block) : State := s.clear.withBlock b.withTree

/-- The machine after that and SERIALIZE. -/
def State.tableSaved (s : State) (b : Block) : State :=
  (s.tableBuilt b).complete b.withTree ((sideFile b.entries).map .txt)

section
variable (s : State) (b : Block)

@[simp] theorem toBlock_tableBuilt : (s.tableBuilt b).toBlock = b.withTree := rfl
@[simp] theorem emittedBits_tableBuilt : (s.tableBuilt b).emittedBits = s.emittedBits := rfl
@[simp] theorem emittedSyms_tableBuilt : (s.tableBuilt b).emittedSyms = s.emittedSyms := rfl
@[simp] theorem emittedTxts_tableBuilt : (s.tableBuilt b).emittedTxts = s.emittedTxts := rfl

@[simp] theorem toBlock_tableSaved : (s.tableSaved b).toBlock = b.withTree := rfl
@[simp] theorem emittedBits_tableSaved : (s.tableSaved b).emittedBits = s.emittedBits := by
  simp [State.tableSaved]
@[simp] theorem emittedTxts_tableSaved :
    (s.tableSaved b).emittedTxts = s.emittedTxts ++ sideFile b.entries := by
  simp [State.tableSaved]

theorem exec_serialize_tableBuilt : exec .serialize (s.tableBuilt b) = .next (s.tableSaved b) :=
  exec_serialize (by simp)

end

/-- Both jobs begin with CLEAR, the commands that enter a table, and BUILD. -/
theorem execAll_clear_table_build {s : State} {b : Block} {input : List Byte} {is js : List Instr}
    (hb : b.HoldsTableOf input) (his : execAll is s.clear = .next (s.clear.withBlock b)) :
    execAll (.clear :: (is ++ .build :: js)) s = execAll js (s.tableBuilt b) := by
  have hbuild : exec .build (s.clear.withBlock b) = .next (s.tableBuilt b) :=
    exec_build hb.phase hb.pstate
  rw [execAll_cons (exec_clear s), execAll_append his, execAll_cons hbuild]

/-! ## What follows BUILD in the two jobs (R94, R97, R101 to R105) -/

/-- The bytes that are left to encode, and ENC_END: their codes are emitted, and the job is done. -/
theorem run_encodes_encEnd (input : List Byte) (s : State)
    (hp : s.phase = .ready ∨ s.phase = .encoding) (hl : ∀ v ∈ input, s.len.read v ≠ 0)
    (hall : s.encCnt.toNat + input.length = s.total.toNat) :
    ∃ b, execAll (encodesOf input ++ [.encEnd]) s =
        .next (s.complete b ((input.flatMap s.codeOf).map .bit)) ∧ b.phase = .done := by
  obtain ⟨t, hrun, hphase, hcnt, hout, hframe⟩ := run_encodes input s hp hl hall.le
  have htotal : t.total = s.total := by rw [hframe]
  have hne : t.phase ≠ .error := by rcases hphase with h | h <;> simp [h]
  have hend : t.encCnt = t.total := BitVec.eq_of_toNat_eq (by rw [htotal, hcnt, hall])
  refine ⟨{ t.toBlock with phase := .done }, ?_, rfl⟩
  rw [execAll_append hrun, execAll_cons (exec_encEnd hne hphase hend), execAll_nil, State.complete,
    ← hout, hframe]

/-- The codes of the symbols that are left to decode, up to seven bits more, and DEC_END: the symbols
are emitted, and the job is done. -/
theorem run_decodes_decEnd (input : List Byte) (pad : BitString) (s : State) (hinv : s.TableInv)
    (ht : s.HasTree) (hc : s.HasCodes) (hp : s.phase = .ready ∨ s.phase = .decoding)
    (hcur : s.cur = s.root) (hdepth : s.depth = 0) (hv : ∀ v ∈ input, 1 ≤ (s.cnt.read v).toNat)
    (hall : s.decCnt.toNat + input.length = s.total.toNat)
    (hpad : s.padCnt.toNat + pad.length ≤ Config.padMax) :
    ∃ b, execAll (decBitsOf (input.flatMap s.codeOf ++ pad) ++ [.decEnd]) s =
        .next (s.complete b (input.map .sym)) ∧ b.phase = .done := by
  obtain ⟨t, hrun, hphase, hcnt, hout, hframe⟩ :=
    run_decodes input s hinv ht hc hp hcur hdepth hv hall.le
  have htotal : t.total = s.total := by rw [hframe]
  have hpadCnt : t.padCnt = s.padCnt := by rw [hframe]
  have hend : t.decCnt = t.total := BitVec.eq_of_toNat_eq (by rw [htotal, hcnt, hall])
  obtain ⟨u, hrun', hphase', hframe'⟩ := run_trailing pad t hphase hend (by rw [hpadCnt]; exact hpad)
  have hend' : u.decCnt = u.total := by rw [hframe']; exact hend
  refine ⟨{ u.toBlock with phase := .done }, ?_, rfl⟩
  have hbits : decBitsOf (input.flatMap s.codeOf ++ pad) =
      decBitsOf (input.flatMap s.codeOf) ++ decBitsOf pad := List.map_append
  rw [hbits, List.append_assoc, execAll_append hrun, execAll_append hrun',
    execAll_cons (exec_decEnd (ne_error_of_ready_or_decoding hphase') hphase' hend'), execAll_nil,
    State.complete, ← hout, hframe', hframe]

/-! ## The two jobs (R140, R141) -/

/-- The encode job emits the side file of the input's table and the codes of its bytes (R140). -/
theorem run_encodeJob (s : State) (input : List Byte) (hlen : input.length ≤ Config.cntMax) :
    ∃ (b : Block) (t : State), b.HoldsTableOf input ∧
      execAll (encodeJob input) s = .next t ∧ t.phase = .done ∧
      t.emittedTxts = s.emittedTxts ++ sideFile b.entries ∧
      t.emittedBits = s.emittedBits ++ input.flatMap b.withTree.codeOf := by
  obtain ⟨b, hcounts, hb⟩ := run_counts_clear s input hlen
  have hlens : ∀ v ∈ input, b.withTree.len.read v ≠ 0 := fun v hv =>
    len_derived (tableInv_withTree hb.table) hb.hasCodes (hb.counted hv)
  obtain ⟨c, hencodes, hdone⟩ := run_encodes_encEnd input (s.tableSaved b) (.inl rfl) hlens
    ((Nat.zero_add _).trans hb.total.symm)
  have hlist : encodeJob input =
      .clear :: (countsOf input ++ .build :: .serialize :: (encodesOf input ++ [.encEnd])) := by
    simp [encodeJob]
  have hjob : execAll (encodeJob input) s =
      execAll (encodesOf input ++ [.encEnd]) (s.tableSaved b) := by
    rw [hlist, execAll_clear_table_build hb hcounts, execAll_cons (exec_serialize_tableBuilt s b)]
  exact ⟨b, _, hb, hjob.trans hencodes, hdone, by simp, by simp⟩

/-- The decode job over a side file and the codes of the input, with up to seven bits more, emits the
input (R141). -/
theorem run_decodeJob (s : State) {b : Block} {input : List Byte} (hb : b.HoldsTableOf input)
    (pad : BitString) (hpad : pad.length ≤ Config.padMax) :
    ∃ t : State, execAll (decodeJob (sideFile b.entries)
        (input.flatMap b.withTree.codeOf ++ pad)) s = .next t ∧ t.phase = .done ∧
      t.emittedSyms = s.emittedSyms ++ input := by
  obtain ⟨c, hdeser, htable, hentries, htotal, hframe⟩ := run_sideFile_clear s hb.table
  have hc : c.HoldsTableOf input :=
    ⟨htable, hentries.trans hb.entries, by rw [htotal, hb.total], hframe⟩
  have hcodes : c.withTree.codeOf = b.withTree.codeOf :=
    funext (codeOf_eq_of_entries hb.hasCodes hc.hasCodes hentries)
  obtain ⟨d, hdecodes, hdone⟩ := run_decodes_decEnd input pad (s.tableBuilt c)
    (tableInv_withTree htable) hc.hasTree hc.hasCodes (.inl rfl) rfl rfl (fun _ hv => hc.counted hv)
    ((Nat.zero_add _).trans hc.total.symm) ((Nat.zero_add _).trans_le hpad)
  rw [toBlock_tableBuilt, hcodes] at hdecodes
  have hlist : ∀ text bits, decodeJob text bits =
      .clear :: (deserOf text ++ .build :: (decBitsOf bits ++ [.decEnd])) := by simp [decodeJob]
  refine ⟨(s.tableBuilt c).complete d (input.map .sym), ?_, hdone, by simp⟩
  rw [hlist, execAll_clear_table_build hc hdeser, hdecodes]

/-! ## The statements -/

/-- Settles O54: both jobs build on the one table of the input, the second reading it from the first's
side file, so both have the same tree and codes, and the walk over a byte's code emits the byte. -/
theorem jobsRoundTrip : Obligations.JobsRoundTrip := by
  intro s u input pad hlen hpad
  obtain ⟨b, t, hb, hencode, hdone, htxts, hbits⟩ := run_encodeJob s input hlen
  obtain ⟨v, hdecode, hdone', hsyms⟩ := run_decodeJob u hb pad hpad
  exact ⟨t, v, _, _, hencode, hdone, htxts, hbits, hdecode, hdone', hsyms⟩

/-- Settles O42: with every symbol decoded, the rule of R104 decides, by PADCNT. -/
theorem trailingBitsAreCounted : Obligations.TrailingBitsAreCounted := fun _ v hp hall =>
  ⟨exec_decBit_trailing v (ne_error_of_ready_or_decoding hp) hp hall,
    fun hfull =>
      exec_decBit_raise hp ((decBitRule_of_complete v hall).trans (trailingBitRule_of_full hfull))⟩

/-- Settles O43: in a one-symbol tree the rule of R103 decides, by the bit. -/
theorem oneSymbolTreeDecodesZeroOnly : Obligations.OneSymbolTreeDecodesZeroOnly :=
  fun _ hp hleft hone =>
    ⟨exec_decBit hp ((decBitRule_of_single false hleft hone).trans (oneSymbolBitRule_false _)),
      exec_decBit_raise hp ((decBitRule_of_single true hleft hone).trans (oneSymbolBitRule_true _))⟩

/-- Settles O44: in a larger tree the walk's step decides, by the child the bit names. -/
theorem decodeBitWalksTheTree : Obligations.DecodeBitWalksTheTree := by
  intro s v n hp hleft hmany hn
  obtain rfl : n = s.childOf v := hn
  have hrule := decBitRule_of_tree v hleft hmany
  refine ⟨fun hleaf => exec_decBit hp (hrule.trans (walkBitRule_of_leaf v hleaf)), fun hinner => ?_⟩
  have hstep := exec_decBit hp (hrule.trans (walkBitRule_of_internal v hinner))
  rwa [List.append_nil] at hstep

/-- Settles O45: the frame of R72 around DEC_END's one check. -/
theorem decEndNeedsEverySymbol : Obligations.DecEndNeedsEverySymbol := fun _ hp =>
  ⟨fun hl hall => exec_decEnd hp hl hall,
    fun hl hleft => exec_raise (by simp) hp hl (if_neg hleft),
    fun hl => exec_sequence (by simp) hp hl⟩

end Sys2Proof.Machine
end

section
/-! The statements of spec/44_serializer.md: the side file SERIALIZE emits (R110, R111), the characters
DESER_CHAR takes (R112, R113), and that reading a side file gives its table back (R115). -/

namespace Sys2Proof.Machine

/-! ## The side file's text (R108 to R110) -/

/-- The character of a binary digit (R109). -/
theorem digitChar_boolToNat (x : Bool) : digitChar x.toNat = if x then 0x31 else 0x30 := by
  cases x <;> rfl

/-- One record as SERIALIZE emits it (R110). -/
theorem map_txt_recordText (v : Byte) (c : Count) :
    (recordText (v, c)).map Output.txt =
      ([7, 6, 5, 4, 3, 2, 1, 0].map fun j => Output.txt (if v.getLsbD j then 0x31 else 0x30)) ++
        [Output.txt 0x3A] ++
        ((decimal c).map fun d => Output.txt (BitVec.ofNat 8 (0x30 + d))) ++ [Output.txt 0x20] := by
  simp only [recordText, symbolText, countText, digitChar_boolToNat, List.map_append, List.map_map]
  rfl

/-! ## Decimal (R111) -/

theorem decimalDigits_length_le (fuel c : Nat) : (decimalDigits fuel c).length ≤ fuel := by
  induction fuel generalizing c with
  | zero => exact Nat.le_refl 0
  | succ fuel ih =>
    rw [decimalDigits]
    split
    · simp
    · simpa using ih (c / 10)

/-- Division by ten keeps a number of two or more digits nonzero, so the first digit is not 0. -/
theorem decimalDigits_eq_cons {fuel c : Nat} (hfuel : c < 10 ^ fuel) (hc : c ≠ 0) :
    ∃ d ds, decimalDigits fuel c = d :: ds ∧ d ≠ 0 := by
  induction fuel generalizing c with
  | zero => exact absurd (Nat.lt_one_iff.mp hfuel) hc
  | succ fuel ih =>
    rw [decimalDigits]
    split
    · exact ⟨c, [], rfl, hc⟩
    · have hdiv : c / 10 < 10 ^ fuel := by rw [Nat.pow_succ] at hfuel; omega
      obtain ⟨d, ds, hds, hd⟩ := ih hdiv (by omega)
      exact ⟨d, ds ++ [c % 10], by rw [hds, List.cons_append], hd⟩

/-! ## The characters of a record (R112) -/

theorem isBinaryDigit_iff (c : Byte) : isBinaryDigit c = true ↔ c = 0x30 ∨ c = 0x31 := by
  simp [isBinaryDigit]

theorem isDecimalDigit_iff (c : Byte) :
    isDecimalDigit c = true ↔ 0x30 ≤ c.toNat ∧ c.toNat ≤ 0x39 := by
  simp [isDecimalDigit]

/-- The low byte of a byte with a bit behind it is the byte shifted left by one, with that bit inserted. -/
theorem lowByte_append_bit (psym : Byte) (x : BitVec 1) :
    (psym ++ x : BitVec 9).extractLsb' 0 8 = psym <<< 1 ||| x.setWidth 8 := by
  ext i hi
  rw [BitVec.getElem_extractLsb', Nat.zero_add, (BitVec.getLsbD_append : (psym ++ x).getLsbD i = _)]
  cases i with
  | zero => simp
  | succ i => simp [BitVec.getLsbD_eq_getElem (show i < 8 by omega)]

theorem shiftInDigit_eq (psym : Byte) {c : Byte} (hc : c = 0x30 ∨ c = 0x31) :
    shiftInDigit psym c = psym <<< 1 ||| (if c = 0x31 then 1 else 0) := by
  rw [shiftInDigit, lowByte_append_bit]
  rcases hc with rfl | rfl <;> rfl

/-! ## DESER_CHAR's rule at each place (R112) -/

/-- A DESER_CHAR that its rule rejects (R119). -/
theorem exec_deserChar_raise {s : State} {c : Byte} {code : ErrCode} (hp : s.phase = .collect)
    (hsrc : s.src ≠ .scan) (hr : deserCharRule c s.toBlock = .error code) :
    exec (.deserChar c) s = .next { s with errCode := code, errPhase := .collect
                                           errCmd := encode (.deserChar c), phase := .error } := by
  have hruns : runsIn (.deserChar c) s.toBlock := ⟨hp, hsrc⟩
  rw [exec_raise (by simp) (by simp [hp]) hruns hr, State.errorEntry, hp]

section
variable {b : Block} {c : Byte}

theorem deserCharRule_of_symDigit {k : Fin 8} (h : b.pstate = .symDigit k) :
    deserCharRule c b = symDigitRule k c b := by rw [deserCharRule, h]

theorem deserCharRule_of_colon (h : b.pstate = .colon) : deserCharRule c b = colonRule c b := by
  rw [deserCharRule, h]

theorem deserCharRule_of_firstDigit (h : b.pstate = .firstDigit) :
    deserCharRule c b = firstDigitRule c b := by rw [deserCharRule, h]

theorem deserCharRule_of_moreDigits (h : b.pstate = .moreDigits) :
    deserCharRule c b = moreDigitsRule c b := by rw [deserCharRule, h]

theorem moreDigitsRule_of_digit (hc : isDecimalDigit c = true) :
    moreDigitsRule c b =
      if b.pcnt.toNat * 10 + digitValue c ≤ Config.cntMax then
        .ok ({ b with pcnt := BitVec.ofNat 32 (b.pcnt.toNat * 10 + digitValue c), src := .text }, [])
      else .error .countOverflow := if_pos hc

theorem moreDigitsRule_of_other (hdigit : ¬ isDecimalDigit c = true) (hspace : c ≠ charSpace) :
    moreDigitsRule c b = .error .malformed := by
  rw [moreDigitsRule, if_neg hdigit, if_neg hspace]

theorem moreDigitsRule_space : moreDigitsRule charSpace b = commitRule b := rfl

end

/-! ## Commit (R113) -/

section
variable {b : Block}

theorem commitRule_of_zero (hzero : b.pcnt = 0) : commitRule b = .error .malformed := if_pos hzero

theorem commitRule_of_present (hpos : b.pcnt ≠ 0) (hdup : b.cnt.read b.psym ≠ 0) :
    commitRule b = .error .duplicate := by
  rw [commitRule, if_neg hpos, if_pos hdup]

/-- A new symbol with a count is entered while TOTAL has room. -/
theorem commitRule_of_new (hpos : b.pcnt ≠ 0) (hnew : b.cnt.read b.psym = 0) :
    commitRule b =
      if b.total.toNat + b.pcnt.toNat ≤ Config.cntMax then
        .ok (b.committed b.psym b.pcnt, [])
      else .error .countOverflow := by
  rw [commitRule, if_neg hpos, if_neg (not_not_intro hnew)]
  rfl

end

theorem orderAt_committed (b : Block) (v : Byte) (c : Count) {i : Nat} (hi : i < 256) :
    (b.committed v c).orderAt i = if i = b.nsym.toNat then v else b.orderAt i := by
  have happend : (b.committed v c).orderAt i = (b.appendOrder v).orderAt i := rfl
  simp only [happend, orderAt_appendOrder, hi, and_true]

/-! ## A sound table's side file (R115) -/

theorem entries_eq_nil_iff (b : Block) : b.entries = [] ↔ b.nsym = 0 := by
  rw [← List.length_eq_zero_iff, entries_length, BitVec.toNat_eq]
  rfl

/-- Every entry of a sound table has a nonzero count (R24 (b)). -/
theorem entry_count_ne_zero {b : Block} (hb : b.TableInv) {e : Byte × Count} (he : e ∈ b.entries) :
    e.2 ≠ 0 := by
  intro h0
  have hcnt := (mem_entries_iff hb e.1).mp (List.mem_map_of_mem he)
  rw [← entry_count he, h0] at hcnt
  exact absurd hcnt (by decide)

/-- The side file of a sound table, read from the reset fields, gives its entries back (R115). -/
theorem run_sideFile_reset {b : Block} (hb : b.TableInv) {u : State} (hu : u.toBlock = Block.reset) :
    ∃ c : Block, execAll (deserOf (sideFile b.entries)) u = .next (u.withBlock c) ∧
      c.TableInv ∧ c.entries = b.entries ∧ c.pstate = .symDigit 0 ∧ c.phase = .collect ∧
      c.src = (if b.nsym = 0 then .empty else .text) := by
  have hphase : u.phase = .collect := by rw [hu]; rfl
  have hsrc : u.src = .empty := by rw [hu]; rfl
  have hnone : u.entries = [] := by rw [hu]; exact entries_of_nsym_zero rfl
  have hzero : u.total.toNat = 0 := by rw [hu]; rfl
  have hfit : u.total.toNat + (b.entries.map fun e => e.2.toNat).sum ≤ Config.cntMax := by
    rw [hzero, Nat.zero_add, entries_sum hb, hb.total_sum.1]
    exact hb.total_sum.2
  have hnd : ((u.entries ++ b.entries).map Prod.fst).Nodup := by
    rw [hnone]; exact entries_nodup hb
  obtain ⟨c, hrun, htable, hentries, hpstate, -, -, hsrc', hframe⟩ :=
    run_sideFile b.entries u (hu ▸ tableInv_reset) hphase (by simp [hsrc]) (by rw [hu]; rfl)
      (by rw [hu]; rfl) (by rw [hu]; rfl) hnd (fun e he => entry_count_ne_zero hb he) hfit
  rw [hnone, List.nil_append] at hentries
  simp only [entries_eq_nil_iff, hsrc] at hsrc'
  exact ⟨c, hrun, htable, hentries, hpstate, by rw [hframe]; exact hphase, hsrc'⟩

/-! ## The statements -/

/-- Settles O52: reading the side file gives the entries back, and these determine a sound table. -/
theorem sideFileRoundTrip : Obligations.SideFileRoundTrip := by
  intro s u hs hu
  obtain ⟨c, hrun, htable, hentries, hpstate, hphase, hsrc⟩ := run_sideFile_reset hs hu
  obtain ⟨hnsym, horder, hcnt, htotal⟩ := table_ext hs htable hentries
  exact ⟨u.withBlock c, hrun, hnsym, horder, hcnt, htotal, hpstate, hphase, hsrc,
    congrArg sideFile hentries⟩

/-- Settles O46: SERIALIZE emits `sideFile`, record by record. -/
theorem serializeEmitsTheSideFile : Obligations.SerializeEmitsTheSideFile := by
  intro s hp
  rw [exec_serialize hp, State.complete, sideFile, Block.entries, List.map_flatMap, List.flatMap_map]
  simp only [map_txt_recordText]

/-- Settles O47: ten digits of fuel are enough, and digits are made only of a nonzero rest. -/
theorem decimalIsTheShortest : Obligations.DecimalIsTheShortest := by
  intro c hc
  have hfuel : c.toNat < 10 ^ 10 := by have := c.isLt; omega
  have hne : c.toNat ≠ 0 := fun h => hc (BitVec.eq_of_toNat_eq h)
  obtain ⟨hval, hlt, hlen⟩ := decimalDigits_spec 10 c.toNat hfuel (by decide)
  obtain ⟨d, ds, hds, hd⟩ := decimalDigits_eq_cons hfuel hne
  refine ⟨hval, hlt, hlen, decimalDigits_length_le 10 c.toNat, ?_⟩
  rw [decimal, hds, List.head?_cons]
  simpa using hd

/-- Settles O48: the rule of R112 at each of the three places. -/
theorem parserReadsSymbolAndColon : Obligations.ParserReadsSymbolAndColon := by
  intro s c hp hsrc
  refine ⟨fun k hps hc => ?_, fun hps hc => ?_, fun hps hlo hhi => ?_⟩
  · have hrule := (deserCharRule_of_symDigit (c := c) hps).trans
      (if_pos ((isBinaryDigit_iff c).mpr hc))
    rw [exec_deserChar hp hsrc hrule, shiftInDigit_eq s.psym hc, ParsePos.afterDigit]
    simp only [Fin.ext_iff]
    rfl
  · exact exec_deserChar hp hsrc ((deserCharRule_of_colon hps).trans (if_pos hc))
  · exact exec_deserChar hp hsrc ((deserCharRule_of_firstDigit hps).trans
      (if_pos ((isDecimalDigit_iff c).mpr ⟨hlo, hhi⟩)))

/-- Settles O49: the rule of R112 for a further digit, by whether the new count fits. -/
theorem parserReadsCountDigits : Obligations.ParserReadsCountDigits := by
  intro s c hp hsrc hps hlo hhi
  have hrule := (deserCharRule_of_moreDigits hps).trans
    (moreDigitsRule_of_digit (b := s.toBlock) ((isDecimalDigit_iff c).mpr ⟨hlo, hhi⟩))
  refine ⟨fun hfit => ⟨_, exec_deserChar hp hsrc (hrule.trans (if_pos hfit)), ?_, rfl⟩,
    fun hover => exec_deserChar_raise hp hsrc (hrule.trans (if_neg (Nat.not_le.mpr hover)))⟩
  exact Nat.mod_eq_of_lt (Nat.lt_succ_of_le hfit)

/-- Settles O51: the three checks of `Commit()` in their order, and its writes. -/
theorem spaceCommitsTheRecord : Obligations.SpaceCommitsTheRecord := by
  intro s hp hsrc hps
  have hrule : deserCharRule charSpace s.toBlock = commitRule s.toBlock :=
    (deserCharRule_of_moreDigits hps).trans moreDigitsRule_space
  refine ⟨fun hzero => exec_deserChar_raise hp hsrc (hrule.trans (commitRule_of_zero hzero)),
    fun hpos hdup => exec_deserChar_raise hp hsrc (hrule.trans (commitRule_of_present hpos hdup)),
    fun hpos hnew hover => exec_deserChar_raise hp hsrc (hrule.trans
      ((commitRule_of_new hpos hnew).trans (if_neg (Nat.not_le.mpr hover)))),
    fun hpos hnew hfit => ?_⟩
  have hok := hrule.trans ((commitRule_of_new hpos hnew).trans (if_pos hfit))
  refine ⟨_, exec_deserChar hp hsrc hok, fun v => read_write _ _ v _,
    fun i hi => orderAt_committed _ _ _ hi, rfl, ?_, rfl⟩
  exact BitVec.toNat_add_of_lt (by omega)

/-- Settles O50: at each place the rule of R112 refuses every other character. -/
theorem parserRejectsOtherCharacters : Obligations.ParserRejectsOtherCharacters := by
  intro s c hp hsrc hc
  refine exec_deserChar_raise hp hsrc ?_
  cases hps : s.pstate with
  | symDigit k =>
    rw [hps] at hc
    exact (deserCharRule_of_symDigit hps).trans (if_neg (by simpa [isBinaryDigit_iff] using hc))
  | colon =>
    rw [hps] at hc
    exact (deserCharRule_of_colon hps).trans (if_neg hc)
  | firstDigit =>
    rw [hps] at hc
    exact (deserCharRule_of_firstDigit hps).trans (if_neg (by rwa [isDecimalDigit_iff]))
  | moreDigits =>
    rw [hps] at hc
    exact (deserCharRule_of_moreDigits hps).trans
      (moreDigitsRule_of_other (by rw [isDecimalDigit_iff]; exact hc.1) hc.2)

end Sys2Proof.Machine
end

section
/-! The statements of spec/45_control.md: NOP (R116) and CLEAR (R117). -/

namespace Sys2Proof.Machine

/-- Settles O12: CLEAR answers `State.clear` in every phase (`exec_clear`), which writes the block and
`jobMark` alone. -/
theorem clearGivesTheResetState : Obligations.ClearGivesTheResetState :=
  fun s => ⟨s.clear, exec_clear s, clear_toBlock s, rfl⟩

/-- Settles O28: in ERROR the word is discarded (R121); elsewhere NOP is legal (R71), and its rule
gives the block back and emits nothing (R116). -/
theorem nopChangesNothing : Obligations.NopChangesNothing := by
  intro s
  have hne : Instr.nop ≠ .clear := by simp
  by_cases hp : s.phase = .error
  · rw [exec_eq_commandRule .nop s hne, commandRule_error .nop s _ hp]
  · have hrule : ruleOf .nop s.toBlock = .ok (s.toBlock, []) := rfl
    rw [exec_silent hne hp rfl hrule, withBlock_self]

end Sys2Proof.Machine
end

section
/-! The statements of spec/60_exceptions.md: the error entry (R118, R119), the words ERROR discards
(R121), and the two ways out of it (R117, R122, R136). -/

namespace Sys2Proof.Machine

/-! ## Entering ERROR (R118, R119) -/

/-- A command that enters ERROR makes the error entry: with E_SEQUENCE where it is not legal, with the
code its rule raises where it is. -/
theorem exec_enters_error {i : Instr} {s t : State} (hp : s.phase ≠ .error) (h : exec i s = .next t)
    (ht : t.phase = .error) :
    ∃ code, t = s.errorEntry code (encode i) ∧
      ((code = .sequence ∧ ¬ runsIn i s.toBlock) ∨ ruleOf i s.toBlock = .error code) := by
  rcases exec_cases h with ⟨-, rfl⟩ | ⟨he, -⟩ | ⟨-, hl, rfl⟩ | ⟨-, -, ⟨code, hr, rfl⟩ | ⟨b, out, hr, rfl⟩⟩
  · cases ht
  · exact absurd he hp
  · rw [← Bool.not_eq_true, legal_iff_runsIn hp] at hl
    exact ⟨.sequence, rfl, .inl ⟨rfl, hl⟩⟩
  · exact ⟨code, rfl, .inr hr⟩
  · exact absurd ht (ruleOf_phase_ne hp hr)

/-! ## The one error of each rule with a single check (R76, R81, R97, R105) -/

section
variable {b : Block} {code : ErrCode}

theorem countRule_error {v : Byte} (h : countRule v b = .error code) : code = .countOverflow := by
  unfold countRule at h
  split at h <;> cases h
  rfl

theorem buildRule_error (h : buildRule b = .error code) : code = .malformed := by
  unfold buildRule at h
  split at h <;> cases h
  rfl

theorem encEndRule_error (h : encEndRule b = .error code) : code = .encUnderrun := by
  unfold encEndRule at h
  split at h <;> cases h
  rfl

theorem decEndRule_error (h : decEndRule b = .error code) : code = .truncated := by
  unfold decEndRule at h
  split at h <;> cases h
  rfl

end

/-! ## A word in ERROR (R117, R121) -/

/-- In ERROR every command but CLEAR is discarded. -/
theorem exec_of_error {i : Instr} {s : State} (hi : i ≠ .clear) (hp : s.phase = .error) :
    exec i s = .next s := by
  rw [exec_eq_commandRule i s hi, commandRule_error i s _ hp]

/-- 0x0100 is the one word of CLEAR (R68). -/
theorem decode_eq_clear_iff (w : CmdWord) : decode w = .ok .clear ↔ w = 0x0100 :=
  ⟨fun h => eq_encode_of_decode h, fun h => h ▸ decode_encode .clear⟩

theorem executeWord_of_decode {w : CmdWord} {i : Instr} (hd : decode w = .ok i) (s : State) :
    executeWord w s = exec i s := by
  rw [executeWord, hd]

/-- In ERROR 0x0100 is CLEAR and every other word, legal or not, is discarded. -/
theorem executeWord_of_error (w : CmdWord) {s : State} (hp : s.phase = .error) :
    executeWord w s = .next (if w = 0x0100 then s.clear else s) := by
  split
  · next hw => rw [executeWord_of_decode ((decode_eq_clear_iff w).mpr hw), exec_clear]
  · next hw =>
    cases hd : decode w with
    | error r => rw [executeWord_of_illegal hd, if_pos hp]
    | ok i =>
      have hi : i ≠ .clear := fun hi => hw ((decode_eq_clear_iff w).mp (hi ▸ hd))
      rw [executeWord_of_decode hd, exec_of_error hi hp]

/-! ## A take (R45) -/

theorem takeFrom_toBlock (s : State) (p : Stream) : (s.takeFrom p).toBlock = s.toBlock := by
  rcases takeFrom_cases s p with he | ⟨o, more, -, -, -, he⟩ <;> rw [he]
  exact transfer_toBlock s more o

/-! ## The statements -/

/-- Settles O8: the next state is the error entry (`exec_enters_error`), which writes those four fields
alone, and no rule raises the code "no error". -/
theorem errorEntryChangesNothingElse : Obligations.ErrorEntryChangesNothingElse := by
  intro i s t hp h ht
  obtain ⟨code, rfl, hcode⟩ := exec_enters_error hp h ht
  have hne : code ≠ .none := by
    rcases hcode with ⟨rfl, -⟩ | hr
    · simp
    · exact (ruleOf_error hr).1
  exact ⟨rfl, hne, fun hreset => by simp [State.err, hreset, hp]⟩

/-- Settles O9: E_SEQUENCE comes from R71, which makes NOP, CLEAR and SERIALIZE legal in every phase
but ERROR; every other code comes from the command's own rule. -/
theorem eachErrorHasItsCommands : Obligations.EachErrorHasItsCommands := by
  intro i s t hp h ht
  obtain ⟨code, rfl, ⟨rfl, hl⟩ | hr⟩ := exec_enters_error hp h ht
  · exact ⟨fun hi => hl (hi ▸ trivial), fun hi => hl (hi ▸ trivial), fun hi => hl (hi ▸ trivial)⟩
  · rw [errorEntry_errCode]
    cases i with
    | nop => cases hr
    | clear => cases hr
    | serialize => cases hr
    | count v =>
      obtain rfl := countRule_error hr
      exact .inl ⟨v, rfl⟩
    | build =>
      obtain rfl := buildRule_error hr
      exact .inr rfl
    | encodeByte v => rcases encodeRule_error hr with rfl | rfl <;> exact ⟨v, rfl⟩
    | encEnd =>
      obtain rfl := encEndRule_error hr
      rfl
    | decBit v =>
      rcases decBitRule_error hr with rfl | ⟨rfl, rfl⟩
      · exact ⟨v, rfl⟩
      · rfl
    | decEnd =>
      obtain rfl := decEndRule_error hr
      rfl
    | deserChar c =>
      rcases deserCharRule_error hr with rfl | rfl | rfl
      · exact .inl ⟨c, rfl⟩
      · exact ⟨c, rfl⟩
      · exact .inr ⟨c, rfl⟩

/-- Settles O11: of the moves a step can make, only CLEAR's word and a reset edge write the block in
ERROR. -/
theorem errorLeftOnlyByClearOrReset : Obligations.ErrorLeftOnlyByClearOrReset := by
  intro s t h hp ht
  rcases step_cases h with ⟨rfl, -⟩ | ⟨w, rest, hh, -, hx⟩ | ⟨p, rest, -, rfl⟩ | ⟨a, rest, -, rfl⟩ |
    ⟨rest, hh, rfl⟩ | ⟨rest, -, rfl⟩
  · exact absurd hp ht
  · rw [executeWord_of_error w (s := { s with host := rest }) hp] at hx
    split at hx <;> cases hx
    · next hw => exact ⟨rfl, rest, .inl (hw ▸ hh)⟩
    · exact absurd hp ht
  · rw [takeFrom_toBlock] at ht
    exact absurd hp ht
  · exact absurd hp ht
  · exact ⟨rfl, rest, .inr hh⟩
  · exact absurd hp ht

/-- Settles O10, by `executeWord_of_error`; CLEAR answers `State.clear`, whose block is the reset one. -/
theorem errorPhaseDiscardsAllButClear : Obligations.ErrorPhaseDiscardsAllButClear := by
  intro s w hp
  rw [executeWord_of_error w hp]
  refine ⟨fun hw => by rw [if_neg hw], fun hw => ?_⟩
  rw [if_pos hw]
  exact ⟨(exec_clear s).symm, s.clear, rfl, clear_toBlock s⟩

end Sys2Proof.Machine
end

section
/-! The statements of spec/70_reset_and_hazards.md: the reset edge and its release (R136), and a block
whose offered value nobody takes (R144). -/

namespace Sys2Proof.Machine

/-! ## An edge of rst_n (R136) -/

section
variable {s : State} {rest : List HostMove}

theorem step_resetLow (hh : s.host = .resetLow :: rest) :
    step s = .next ({ s with host := rest } : State).resetEdge := by
  rw [step_of_host_cons hh, hostMove]

theorem step_resetHigh (hh : s.host = .resetHigh :: rest) :
    step s = .next { s with host := rest, inReset := false } := by
  rw [step_of_host_cons hh, hostMove]

end

/-! ## The pins while a value is offered (R45 to R47) -/

section
variable {s : State} {o : Output} {more : List Output}

theorem idle_of_offered_cons (ho : s.offered = o :: more) : s.idle = false := by
  simp [State.idle, ho]

theorem offeredValue_of_offered_cons (hr : s.inReset = false) (ho : s.offered = o :: more) :
    s.offeredValue = some o := by
  simp [State.offeredValue, hr, ho]

theorem valid_iff_of_offeredValue (hv : s.offeredValue = some o) (p : Stream) :
    s.valid p = true ↔ p = o.stream := by
  simp only [State.valid, hv, Option.map_some, beq_iff_eq, Option.some.injEq]
  exact eq_comm

/-! ## A value nobody takes (R144) -/

/-- While the offered value is neither taken nor dropped by a reset edge, a step changes at most what
the model keeps of the host: its moves and its register reads. -/
theorem step_of_undrained {t : State} (hr : s.inReset = false) (ho : s.offered = o :: more)
    (htake : ∀ rest, s.host ≠ .take o.stream :: rest) (hreset : ∀ rest, s.host ≠ .resetLow :: rest)
    (h : step s = .next t) :
    ∃ reads draws host, t = { s with reads := reads, draws := draws, host := host } := by
  rcases step_cases h with ⟨rfl, -⟩ | ⟨w, rest, -, hready, -⟩ | ⟨p, rest, hh, rfl⟩ | ⟨a, rest, -, rfl⟩ |
    ⟨rest, hh, -⟩ | ⟨rest, -, rfl⟩
  · exact ⟨_, _, _, rfl⟩
  · have hbusy : s.cmdReady = false := idle_of_offered_cons ho
    rw [hbusy] at hready
    cases hready
  · have hp : o.stream ≠ p := fun hp => htake rest (hp ▸ hh)
    rw [takeFrom_of_offered_cons (s := { s with host := rest }) p hr ho, if_neg hp]
    exact ⟨_, _, _, rfl⟩
  · exact ⟨_, _, _, rfl⟩
  · exact absurd hh (hreset rest)
  · rw [← hr]
    exact ⟨_, _, _, rfl⟩

end

/-! ## The statements -/

/-- Settles O25: by `step_of_undrained` the next state has the block, the ports and the streams of this
one, and the pins are functions of these. -/
theorem undrainedBlockAcceptsNothing : Obligations.UndrainedBlockAcceptsNothing := by
  intro s t o more hr ho htake hreset h
  have hs : s.offeredValue = some o := offeredValue_of_offered_cons hr ho
  obtain ⟨reads, draws, host, rfl⟩ := step_of_undrained hr ho htake hreset h
  have hidle : s.idle = false := idle_of_offered_cons ho
  exact ⟨rfl, rfl, rfl, rfl, rfl, hr, hidle, hidle, valid_iff_of_offeredValue hs,
    valid_iff_of_offeredValue hs, hs, hs⟩

/-- Settles O13: the edge answers `State.resetEdge`, which offers nothing, and with rst_n = 1 again
nothing offered is idle. -/
theorem resetEdgeResetsAndDropsOutputs : Obligations.ResetEdgeResetsAndDropsOutputs := by
  intro s rest hh
  exact ⟨_, step_resetLow hh, rfl, rfl, rfl, rfl, rfl, rfl, rfl, rfl, rfl, valid_of_offered_nil rfl, rfl,
    fun more hmore => ⟨_, step_resetHigh hmore, idle_of_offered_nil rfl rfl, idle_of_offered_nil rfl rfl,
      rfl, rfl⟩⟩

end Sys2Proof.Machine
end
